-- ==== Sys2Proof/Word.lean ====
section
/-! DEFINITION. The widths of the block: bytes, 16-bit words, 7-bit register addresses, 32-bit operation words and
one-bit line levels (00_scope R6, R9; 30_encoding R87). -/

namespace Sys2Proof

/-- Eight bits: what the shift register holds (10_state R26). -/
abbrev Byte := BitVec 8

/-- Sixteen bits: a register of the sensor, a sample, `RXW`, `TQ` (00_scope R6). -/
abbrev Word := BitVec 16

/-- A register address, seven bits (00_scope R6, 20_memory R50). -/
abbrev RegAddr := BitVec 7

/-- The operation word a host hands the block (30_encoding R87). -/
abbrev OpBits := BitVec 32

/-- The level of a line: `true` is 1, high; `false` is 0, low (00_scope R8, 10_state R22). -/
abbrev Level := Bool

end Sys2Proof
end

