-- ==== Sys2Proof/Syntax.lean ====
section
/-! DEFINITION. The twelve operations of the block (30_encoding R88), one constructor per row of the opcode table. -/

namespace Sys2Proof

/-- The operations of 30_encoding R88, each with the operands its row gives it, at the width the word gives them. -/
inductive Instr where
  /-- `SEL`, 40_transport R112. -/
  | sel
  /-- `DESEL`, 40_transport R113. -/
  | desel
  /-- `DIROUT`, 40_transport R114. -/
  | dirout
  /-- `DIRIN`, 40_transport R115. -/
  | dirin
  /-- `SHOUT b`, 40_transport R118. -/
  | shout (b : Byte)
  /-- `SHIN`, 40_transport R119. -/
  | shin
  /-- `DRAIN`, 41_protocol R141. -/
  | drain
  /-- `RDREG a`, 41_protocol R142. -/
  | rdreg (a : RegAddr)
  /-- `WRREG a, v`, 41_protocol R143. -/
  | wrreg (a : RegAddr) (v : Word)
  /-- `DECODE`, 42_decoder R168. -/
  | decode
  /-- `SETRES r`, 42_decoder R170: `r` is the integer the 16 bits of `V` hold. -/
  | setres (r : Word)
  /-- `WAIT n`, 43_host_sequences R190: `n` milliseconds. -/
  | wait (n : Word)
  deriving DecidableEq, Repr

end Sys2Proof
end

