-- ==== Sys2Proof/WellFormed.lean ====
section
/-! DEFINITION. When an operation word is well formed (30_encoding R87, R89): a known operation code, and every
must-be-zero field zero. The operands of an `Instr` have the word's own widths (30_encoding R85), so what can be ill
formed is a word, seen as its four fields. -/

namespace Sys2Proof

/-- The four fields of an operation word, from the high end down (30_encoding R87). -/
structure OpFields where
  /-- Bits 31:28, the operation code. -/
  opc : BitVec 4
  /-- Bits 27:23, must be zero. -/
  z : BitVec 5
  /-- Bits 22:16, a register address; zero except for `RDREG` and `WRREG`. -/
  a : RegAddr
  /-- Bits 15:0, an immediate; zero except for `SHOUT`, `WRREG`, `SETRES` and `WAIT`. -/
  v : Word
  deriving DecidableEq, Repr

/-- What is wrong with an operation word that matches no row of 30_encoding R88. -/
inductive WordError where
  /-- `OPC` is 0x0, 0xD, 0xE or 0xF. -/
  | unknownOpc
  /-- A bit of `Z` is set. -/
  | zNotZero
  /-- `A` is not zero in an operation that takes no address. -/
  | aNotZero
  /-- `V`, or the part of it the operation does not use, is not zero. -/
  | vNotZero
  deriving DecidableEq, Repr

/-- Whether the operation code is one of the twelve, 0x1 to 0xC (30_encoding R88). -/
def knownOpc (opc : BitVec 4) : Bool := 1 ≤ opc.toNat && opc.toNat ≤ 12

/-- Whether the operation takes a register address: `RDREG` 0x8 and `WRREG` 0x9 (30_encoding R87). -/
def takesAddr (opc : BitVec 4) : Bool := opc.toNat == 8 || opc.toNat == 9

/-- The bits of `V` the operation may set: 8 for `SHOUT` 0x5, 16 for `WRREG` 0x9, `SETRES` 0xB and `WAIT` 0xC, else
none (30_encoding R87). -/
def immediateBits (opc : BitVec 4) : Nat :=
  match opc.toNat with
  | 5 => 8
  | 9 => 16
  | 11 => 16
  | 12 => 16
  | _ => 0

/-- The first error of a word's fields, if it has one (30_encoding R89). -/
def OpFields.error (f : OpFields) : Option WordError :=
  if !knownOpc f.opc then some .unknownOpc
  else if f.z ≠ 0 then some .zNotZero
  else if !takesAddr f.opc && f.a ≠ 0 then some .aNotZero
  else if 2 ^ immediateBits f.opc ≤ f.v.toNat then some .vNotZero
  else none

/-- A well-formed operation word: it has no error. -/
def OpFields.wf (f : OpFields) : Bool := f.error.isNone

end Sys2Proof
end

