-- ==== Sys2Proof/Decode.lean ====
section
/-! DEFINITION. The operation word (30_encoding R87, R88): cut into fields, decoded, encoded; and the opcode table as
rows of mask and match. -/

namespace Sys2Proof

/-- The fields of a word (30_encoding R87). -/
def cutFields (w : OpBits) : OpFields :=
  { opc := w.extractLsb' 28 4, z := w.extractLsb' 23 5, a := w.extractLsb' 16 7, v := w.extractLsb' 0 16 }

/-- The word its fields make up, `OPC` in the high bits (30_encoding R87). -/
def joinFields (f : OpFields) : OpBits := f.opc ++ (f.z ++ (f.a ++ f.v))

/-- The operation of well-formed fields, by operation code (30_encoding R88). -/
def instrOfFields (f : OpFields) : Except WordError Instr :=
  match f.opc.toNat with
  | 1 => .ok .sel
  | 2 => .ok .desel
  | 3 => .ok .dirout
  | 4 => .ok .dirin
  | 5 => .ok (.shout (f.v.extractLsb' 0 8))
  | 6 => .ok .shin
  | 7 => .ok .drain
  | 8 => .ok (.rdreg f.a)
  | 9 => .ok (.wrreg f.a f.v)
  | 10 => .ok .decode
  | 11 => .ok (.setres f.v)
  | 12 => .ok (.wait f.v)
  | _ => .error .unknownOpc

/-- Decoding an operation word: total, and an illegal word is rejected by the name of what is wrong (30_encoding R88,
R89). -/
def decode (w : OpBits) : Except WordError Instr :=
  let f := cutFields w
  match f.error with
  | some e => .error e
  | none => instrOfFields f

/-- The decoder's answer to a word numbered as the opcode table numbers it: one 32-bit word, the bits above `nbits`
zero; a number that 32 bits cannot hold is no word. -/
def decodeTableWord (nbits w : Nat) : Option Instr :=
  if w < 2 ^ nbits ∧ w < 2 ^ 32 then
    match decode (BitVec.ofNat 32 w) with
    | .ok i => some i
    | .error _ => none
  else none

/-- The fields of an operation's word, the unused ones zero (30_encoding R87, R88). -/
def fieldsOf (i : Instr) : OpFields :=
  match i with
  | .sel => { opc := 1, z := 0, a := 0, v := 0 }
  | .desel => { opc := 2, z := 0, a := 0, v := 0 }
  | .dirout => { opc := 3, z := 0, a := 0, v := 0 }
  | .dirin => { opc := 4, z := 0, a := 0, v := 0 }
  | .shout b => { opc := 5, z := 0, a := 0, v := b.zeroExtend 16 }
  | .shin => { opc := 6, z := 0, a := 0, v := 0 }
  | .drain => { opc := 7, z := 0, a := 0, v := 0 }
  | .rdreg a => { opc := 8, z := 0, a := a, v := 0 }
  | .wrreg a v => { opc := 9, z := 0, a := a, v := v }
  | .decode => { opc := 10, z := 0, a := 0, v := 0 }
  | .setres r => { opc := 11, z := 0, a := 0, v := r }
  | .wait n => { opc := 12, z := 0, a := 0, v := n }

/-- The operation word of an operation (30_encoding R88). -/
def encode (i : Instr) : OpBits := joinFields (fieldsOf i)

/-- A row of the opcode table: a word is the operation when its bits under `mask` are `pattern`, the table's `match`
(30_encoding R88). -/
structure OpRow where
  /-- The mnemonic, as the table spells it. -/
  mnemonic : String
  /-- The table's `match`. -/
  pattern : OpBits
  /-- The table's `mask`. -/
  mask : OpBits
  deriving DecidableEq, Repr

/-- The opcode table, its columns `match` and `mask` copied from 30_encoding R88. -/
def opTable : List OpRow :=
  [⟨"SEL", 0x10000000, 0xFFFFFFFF⟩, ⟨"DESEL", 0x20000000, 0xFFFFFFFF⟩, ⟨"DIROUT", 0x30000000, 0xFFFFFFFF⟩,
   ⟨"DIRIN", 0x40000000, 0xFFFFFFFF⟩, ⟨"SHOUT", 0x50000000, 0xFFFFFF00⟩, ⟨"SHIN", 0x60000000, 0xFFFFFFFF⟩,
   ⟨"DRAIN", 0x70000000, 0xFFFFFFFF⟩, ⟨"RDREG", 0x80000000, 0xFF80FFFF⟩, ⟨"WRREG", 0x90000000, 0xFF800000⟩,
   ⟨"DECODE", 0xA0000000, 0xFFFFFFFF⟩, ⟨"SETRES", 0xB0000000, 0xFFFF0000⟩, ⟨"WAIT", 0xC0000000, 0xFFFF0000⟩]

/-- Whether a word is the operation of a row (30_encoding R88). -/
def OpRow.selects (r : OpRow) (w : OpBits) : Bool := w &&& r.mask == r.pattern

/-- The mnemonic of an operation (30_encoding R88, R92). -/
def mnemonicOf (i : Instr) : String :=
  match i with
  | .sel => "SEL"
  | .desel => "DESEL"
  | .dirout => "DIROUT"
  | .dirin => "DIRIN"
  | .shout _ => "SHOUT"
  | .shin => "SHIN"
  | .drain => "DRAIN"
  | .rdreg _ => "RDREG"
  | .wrreg _ _ => "WRREG"
  | .decode => "DECODE"
  | .setres _ => "SETRES"
  | .wait _ => "WAIT"

/-- An operation as the assembler writes it: the mnemonic in capitals, operands in decimal, separated by commas
(30_encoding R92). -/
def assembly (i : Instr) : String :=
  match i with
  | .shout b => mnemonicOf i ++ " " ++ Nat.repr b.toNat
  | .rdreg a => mnemonicOf i ++ " " ++ Nat.repr a.toNat
  | .wrreg a v => mnemonicOf i ++ " " ++ Nat.repr a.toNat ++ ", " ++ Nat.repr v.toNat
  | .setres r => mnemonicOf i ++ " " ++ Nat.repr r.toNat
  | .wait n => mnemonicOf i ++ " " ++ Nat.repr n.toNat
  | .sel => mnemonicOf i
  | .desel => mnemonicOf i
  | .dirout => mnemonicOf i
  | .dirin => mnemonicOf i
  | .shin => mnemonicOf i
  | .drain => mnemonicOf i
  | .decode => mnemonicOf i

end Sys2Proof
end

