-- ==== Sys2Proof/Config.lean ====
section
/-! DEFINITION. The implementation parameters of 00_scope R6: the document's fixed values, the OPEN parameters as
constants without a body, and the environment's free answers (20_memory R65). -/

namespace Sys2Proof

/-- The four resolutions (00_scope R6, 42_decoder R162). -/
inductive Resolution where
  | r13
  | r14
  | r15
  | r16
  deriving DecidableEq, Repr, Inhabited

/-- The environment's answer to one pin action or one sample: `ok`, with the level of the data line that a sample
reads (a pin action does not look at it), or `fail` (00_scope R10, 60_exceptions R233). -/
inductive EnvAnswer where
  | ok (level : Level)
  | fail
  deriving DecidableEq, Repr, Inhabited

/-- `BYTE_BITS` (00_scope R6). -/
def Config.byteBits : Nat := 8

/-- `WORD_BITS` (00_scope R6). -/
def Config.wordBits : Nat := 16

/-- `ADDR_BITS` (00_scope R6). -/
def Config.addrBits : Nat := 7

/-- `ADDR_CONTROL` (00_scope R6, 20_memory R57). -/
def Config.addrControl : RegAddr := 0x1

/-- `ADDR_TRIPHIGH` (00_scope R6, 20_memory R57). -/
def Config.addrTripHigh : RegAddr := 0x2

/-- `ADDR_TRIPLOW` (00_scope R6, 20_memory R57). -/
def Config.addrTripLow : RegAddr := 0x3

/-- `ADDR_ID` (00_scope R6, 20_memory R57). -/
def Config.addrId : RegAddr := 0x7

/-- `SETTLE_MS` (00_scope R6). -/
def Config.settleMs : Word := 100

/-- `cfg.clk_idle`, OPEN: the level of the clock line between pulses (00_scope R6, 10_state R23). Nothing in the model
says which level it is. -/
opaque Config.clkIdle : Level

/-- `cfg.res_default`, OPEN: the resolution held after reset (00_scope R6, 10_state R36). -/
opaque Config.resDefault : Resolution

/-- Which of the fourteen legal bits of the Control register is the shutdown bit, OPEN (00_scope R6, `cfg.sd_mask`). -/
opaque Config.sdIndex : Fin 14

/-- Which of the thirteen legal bits that remain is the one-shot bit, OPEN (00_scope R6, `cfg.os_mask`). -/
opaque Config.osIndex : Fin 13

/-- The legal bits of 00_scope R6 in order: 0 to 3, then 6 to 15; bits 5:4 are skipped. -/
def Config.legalBit (k : Nat) : Nat := if k < 4 then k else k + 2

/-- The shutdown bit's position. -/
def Config.sdBit : Nat := Config.legalBit Config.sdIndex.val

/-- The one-shot bit's position: a legal bit that is not the shutdown bit. -/
def Config.osBit : Nat :=
  Config.legalBit (if Config.osIndex.val < Config.sdIndex.val then Config.osIndex.val else Config.osIndex.val + 1)

/-- `cfg.sd_mask`: one bit set, none of bits 5:4 (00_scope R6). -/
def Config.sdMask : Word := BitVec.twoPow 16 Config.sdBit

/-- `cfg.os_mask`: one bit set, none of bits 5:4, not the shutdown bit (00_scope R6). -/
def Config.osMask : Word := BitVec.twoPow 16 Config.osBit

/-- `cfg.pin_sel`, OPEN identifier that no rule reads (00_scope R6). -/
opaque Config.pinSel : Nat

/-- `cfg.pin_clk`, OPEN identifier that no rule reads (00_scope R6). -/
opaque Config.pinClk : Nat

/-- `cfg.pin_data`, OPEN identifier that no rule reads (00_scope R6). -/
opaque Config.pinData : Nat

/-- The environment's FREE answer to the consultation of this number, where the state's own list `env` has run out:
"each `sample()` may return 0 or 1, each pin action may return `ok` or `fail`, whatever the history" (20_memory R65).
Nothing constrains it; see assumption 1. -/
opaque Config.envAnswer : Nat → EnvAnswer

end Sys2Proof
end

