-- ==== Sys2Proof/Machine/Flags.lean ====
section
/-! DEFINITION. The one condition flag, `NEG` (10_state R31, 42_decoder R169). -/

namespace Sys2Proof.Machine

/-- `NEG <- raw[15]` (42_decoder R168, R169). -/
def negFlag (raw : Word) : Bool := raw.getLsbD 15

end Sys2Proof.Machine
end

