-- ==== Sys2Proof/Machine/Operands.lean ====
section
/-! DEFINITION. The operand assemblies of 30_encoding R85, the resolution code of R86, and the cells' shifts
(40_transport R116, R117). -/

namespace Sys2Proof.Machine

/-- The command byte `{RW, ADDR}`: bit 7 set for a read, clear for a write (30_encoding R80, R85a). -/
def commandByte (read : Bool) (a : RegAddr) : Byte := BitVec.ofBool read ++ a

/-- The word received as two bytes, `hi` the first: `{hi, lo}` (30_encoding R85b). -/
def composeWord (hi lo : Byte) : Word := hi ++ lo

/-- `v[15:8]`, sent first (30_encoding R85c). -/
def highByte (v : Word) : Byte := v.extractLsb' 8 8

/-- `v[7:0]`, sent second (30_encoding R85c). -/
def lowByte (v : Word) : Byte := v.extractLsb' 0 8

/-- `{SR[6:0], b}`: the shift register moved left with `b` entering at bit 0 (40_transport R116, R117). -/
def shiftIn (r : Byte) (b : Level) : Byte := r.extractLsb' 0 7 ++ BitVec.ofBool b

/-- The resolution code: 13 gives 0, 14 gives 1, 15 gives 2, every other integer gives 3 (30_encoding R86). -/
def resCode (r : Int) : BitVec 2 := if r = 13 then 0 else if r = 14 then 1 else if r = 15 then 2 else 3

/-- The number of bits of a resolution. -/
def resBits (r : Resolution) : Nat :=
  match r with
  | .r13 => 13
  | .r14 => 14
  | .r15 => 15
  | .r16 => 16

/-- The resolution `RES` selects: 0, 1, 2, 3 mean 13, 14, 15, 16 (10_state R30). -/
def resolutionOf (code : BitVec 2) : Resolution :=
  match code.toNat with
  | 0 => .r13
  | 1 => .r14
  | 2 => .r15
  | _ => .r16

end Sys2Proof.Machine
end

