-- ==== Sys2Proof/Machine/State.lean ====
section
/-! DEFINITION. The state of the block (10_state R20, R34, R36; 00_scope R8), what the host and the environment do to
it, its reset, and the reasons a step can stop. -/

namespace Sys2Proof.Machine

/-- The drive direction of the data pin: `IN` (0) or `OUT` (1) (10_state R24). -/
inductive Dir where
  | input
  | output
  deriving DecidableEq, Repr

/-- An event of the line trace `LT` (00_scope R8). -/
inductive LineEvent where
  /-- `CS0`, select line driven low. -/
  | cs0
  /-- `CS1`, select line driven high. -/
  | cs1
  /-- `DIRO`, data pin switched to output. -/
  | dirO
  /-- `DIRI`, data pin switched to input. -/
  | dirI
  /-- `D0` or `D1`, data line driven to this level. -/
  | d (b : Level)
  /-- `CKA`, clock line driven to its active level. -/
  | ckA
  /-- `CKI`, clock line driven to its idle level. -/
  | ckI
  /-- `S0` or `S1`, data line sampled at this level. -/
  | s (b : Level)
  /-- `W(n)`, a delay of at least `n` milliseconds. -/
  | w (n : Word)
  deriving DecidableEq, Repr

/-- An event of the byte transcript `BT` (00_scope R8). -/
inductive ByteEvent where
  /-- `SEL`, select window opened. -/
  | sel
  /-- `DESEL`, select window closed. -/
  | desel
  /-- `OUT(b)`, one byte shifted out, complete. -/
  | out (b : Byte)
  /-- `IN(b)`, one byte shifted in, complete. -/
  | inp (b : Byte)
  /-- `W(n)`, a delay of at least `n` milliseconds. -/
  | w (n : Word)
  deriving DecidableEq, Repr

/-- The fault causes of 60_exceptions R231. -/
inductive Cause where
  | transportFailure
  | notSelected
  | reentry
  | dirViolation
  | unwritten
  | illegalOp
  deriving DecidableEq, Repr

/-- How the host's last operation ended (00_scope R11). -/
inductive OpOutcome where
  | done
  | fault (c : Cause)
  | refused
  deriving DecidableEq, Repr

/-- The sequencer position `SEQ`: `IDLE`, or the operation in progress, the index of the byte within it and the index
of the next line event within the byte (10_state R34). -/
inductive SeqPos where
  | idle
  | running (op : Instr) (byte event : Nat)
  deriving DecidableEq, Repr

/-- What the host may do to the block: issue one operation word, or reset it (70_reset_and_hazards R285, R260). -/
inductive HostCmd where
  | issue (w : OpBits)
  | reset
  deriving DecidableEq, Repr

/-- The state: the ten elements of 10_state R20, the sequencer position of R34, the histories of 00_scope R8, and the
host's and the environment's side of the interface. `none` in `sr`, `rxw`, `tq`, `neg` is the spec's own "holds no
value" (10_state R21). -/
@[ext]
structure State where
  /-- `CS`, chip-select: `false` asserted, `true` deasserted (10_state R22). -/
  cs : Level
  /-- `CLK`, the clock line (10_state R23). -/
  clk : Level
  /-- `DIR`, the data pin's direction (10_state R24). -/
  dir : Dir
  /-- `DOUT`, the level the block last drove onto the data line (10_state R25). -/
  dout : Level
  /-- `SR`, the shift register (10_state R26). -/
  sr : Option Byte
  /-- `RXW`, the receive word (10_state R27, 41_protocol R145). -/
  rxw : Option Word
  /-- `RES`, the resolution code (10_state R30). -/
  res : BitVec 2
  /-- `TQ`, the decoded temperature, two's complement, in units of 1/128 °C (10_state R28). -/
  tq : Option Word
  /-- `NEG`, whether the last decode took the "reading is negative" branch (10_state R31). -/
  neg : Option Bool
  /-- `FAULT`, the code of the first fault since reset, 0 for none (10_state R32). -/
  fault : BitVec 3
  /-- `SEQ`, the sequencer position (10_state R34). -/
  seq : SeqPos
  /-- `LT`, the line trace, oldest event first (00_scope R8). -/
  lt : List LineEvent
  /-- `BT`, the byte transcript, oldest event first (00_scope R8). -/
  bt : List ByteEvent
  /-- The outcome the last operation gave back to the host (00_scope R11), none since reset. -/
  outcome : Option OpOutcome
  /-- What the host does next, oldest first (70_reset_and_hazards R283). -/
  cmds : List HostCmd
  /-- The environment's next answers, oldest first; beyond them it answers `Config.envAnswer` (20_memory R65). -/
  env : List EnvAnswer
  /-- How often the environment has been asked. -/
  asked : Nat
  deriving DecidableEq, Repr

/-- The block right after reset, each element as 10_state R36 says; nothing issued and nothing answered yet. -/
def State.reset : State :=
  { cs := true, clk := Config.clkIdle, dir := .input, dout := false, sr := none, rxw := none
    res := resCode (resBits Config.resDefault), tq := none, neg := none, fault := 0, seq := .idle
    lt := [], bt := [], outcome := none, cmds := [], env := [], asked := 0 }

/-- A machine fault: none. A fault of the block is fault entry (60_exceptions R240), a next state that holds its cause
in `FAULT`; no operation can hang or stop the machine (60_exceptions R245), so nobody raises a constructor here. -/
inductive Fault where
  deriving DecidableEq, Repr

/-- The reasons a step gives no next state. -/
inductive Refusal where
  /-- An instruction without a meaning; raised by no arm of `exec` in this model. Safe. -/
  | notModelled (mnemonic : String)
  /-- A command given while an operation is in progress: "the host may issue one operation word when `SEQ = IDLE`"
  and there is no move for anything else (70_reset_and_hazards R285, 92 D35). Raised by `guarded` and by the reset
  command. Safe: no run from an idle state reaches it. -/
  | busy
  deriving DecidableEq, Repr

end Sys2Proof.Machine
end

