-- ==== Sys2Proof/Machine/Ops.lean ====
section
/-! DEFINITION. The operations every meaning is built from: asking the environment, line events, fault entry (taking an
exception), the common checks of an operation, the bit cells and the byte bodies (00_scope R10, 40_transport R110 to
R119, 41_protocol R140, 60_exceptions R240, R242). There is no return from a fault to model (60_exceptions R243). -/

namespace Sys2Proof.Machine

/-! ### Faults -/

/-- The code a cause writes to `FAULT` (60_exceptions R231). -/
def causeCode (c : Cause) : BitVec 3 :=
  match c with
  | .transportFailure => 1
  | .notSelected => 2
  | .reentry => 3
  | .dirViolation => 4
  | .unwritten => 5
  | .illegalOp => 6

/-- The forced deassert of fault entry: inside a window `CS` goes to 1 and `CS1` and `DESEL` are recorded; the
environment is not asked (60_exceptions R240). -/
def forceDeassert (s : State) : State :=
  if s.cs then s else { s with cs := true, lt := s.lt ++ [.cs1], bt := s.bt ++ [.desel] }

/-- Fault entry, `raise F` (60_exceptions R240): the forced deassert, the cause in `FAULT`, `SEQ` idle. Nothing else
changes (R241). The host is given back the fault (00_scope R11). -/
def raiseFault (c : Cause) (s : State) : State :=
  { forceDeassert s with fault := causeCode c, seq := .idle, outcome := some (.fault c) }

/-- A refused operation: nothing changes and no event is appended (60_exceptions R242); the host is told so. -/
def refuseOp (s : State) : State := { s with outcome := some .refused }

/-! ### Runs of micro-steps -/

/-- A stretch of an operation: it goes on with a value, or a fault has been raised and the operation is over. -/
inductive Flow (α : Type) where
  | go (a : α) (s : State)
  | raised (s : State)

/-- What follows a stretch; nothing follows a raised fault (00_scope R10, `raise`). -/
def Flow.andThen {α β : Type} (f : Flow α) (k : α → State → Flow β) : Flow β :=
  match f with
  | .go a s => k a s
  | .raised s => .raised s

/-- The state an operation ends in: done, with `SEQ` idle again (10_state R34, 00_scope R11), or as fault entry
left it. -/
def Flow.final (f : Flow Unit) : State :=
  match f with
  | .go _ s => { s with seq := .idle, outcome := some .done }
  | .raised s => s

/-! ### The environment -/

/-- The environment's `k`-th answer from now on, 0 the next one: the state's list, then the free answers (20_memory
R65). -/
def answerAt (s : State) (k : Nat) : EnvAnswer :=
  match s.env[k]? with
  | some a => a
  | none => Config.envAnswer (s.asked + k)

/-- The state once the environment has been asked one time. -/
def consulted (s : State) : State := { s with env := s.env.drop 1, asked := s.asked + 1 }

/-- `SEQ` moved past one line event (10_state R34). -/
def nextEvent (p : SeqPos) : SeqPos :=
  match p with
  | .idle => .idle
  | .running op byte event => .running op byte (event + 1)

/-- `SEQ` moved to the start of the next byte (10_state R34). -/
def nextByte (p : SeqPos) : SeqPos :=
  match p with
  | .idle => .idle
  | .running op byte _ => .running op (byte + 1) 0

/-- A line event recorded: appended to `LT`, and `SEQ` one event on. -/
def lineEvent (e : LineEvent) (s : State) : State := { s with lt := s.lt ++ [e], seq := nextEvent s.seq }

/-- `bemit e` (00_scope R10). -/
def byteEvent (e : ByteEvent) (s : State) : State := { s with bt := s.bt ++ [e] }

/-- `pin(e)`: ask the environment; on `ok` append `e`, on `fail` raise `TransportFailure` without appending (00_scope
R10, 60_exceptions R233). -/
def pin (e : LineEvent) (s : State) : Flow Unit :=
  match answerAt s 0 with
  | .ok _ => .go () (lineEvent e (consulted s))
  | .fail => .raised (raiseFault .transportFailure (consulted s))

/-- `sample()`: ask the environment for the level of the data line; on `ok` append `S0` or `S1` and give the level, on
`fail` raise `TransportFailure` (00_scope R10, 60_exceptions R233). -/
def sample (s : State) : Flow Level :=
  match answerAt s 0 with
  | .ok b => .go b (lineEvent (.s b) (consulted s))
  | .fail => .raised (raiseFault .transportFailure (consulted s))

/-! ### Registers that may hold no value -/

/-- A read of a register; one that holds no value raises `Unwritten` (00_scope R10, 10_state R21). -/
def readHeld {α : Type} (r : Option α) (s : State) : Flow α :=
  match r with
  | some v => .go v s
  | none => .raised (raiseFault .unwritten s)

/-! ### The checks of an operation -/

/-- The first of the two common checks: with `FAULT != 0` the operation is refused (40_transport R110, 60_exceptions
R242). A command while an operation is in progress has no move (70_reset_and_hazards R285). -/
def guarded (body : State → State) (s : State) : Host.Outcome State Fault Refusal :=
  match s.seq with
  | .running _ _ _ => .refused .busy
  | .idle => if s.fault = 0 then .next (body s) else .next (refuseOp s)

/-- One operation: the common check, then its body from the first micro-step (10_state R34) to its end. -/
def operation (i : Instr) (body : State → Flow Unit) (s : State) : Host.Outcome State Fault Refusal :=
  guarded (fun s => (body { s with seq := .running i 0 0 }).final) s

/-- `if CS = 1: raise NotSelected` (60_exceptions R232). -/
def requireWindow (s : State) : Flow Unit := if s.cs then .raised (raiseFault .notSelected s) else .go () s

/-- `if CS = 0: raise Reentry` (60_exceptions R234). -/
def requireNoWindow (s : State) : Flow Unit := if s.cs then .go () s else .raised (raiseFault .reentry s)

/-- `if DIR != d: raise DirViolation` (60_exceptions R235). -/
def requireDir (d : Dir) (s : State) : Flow Unit :=
  if s.dir = d then .go () s else .raised (raiseFault .dirViolation s)

/-! ### Lines -/

/-- `pin(CS0); CS <- 0; bemit SEL` (40_transport R112). -/
def openWindow (s : State) : Flow Unit :=
  (pin .cs0 s).andThen fun _ s => .go () (byteEvent .sel { s with cs := false })

/-- `pin(CS1); CS <- 1; bemit DESEL` (40_transport R113). -/
def closeWindow (s : State) : Flow Unit :=
  (pin .cs1 s).andThen fun _ s => .go () (byteEvent .desel { s with cs := true })

/-- The line event of a direction switch. -/
def dirEvent (d : Dir) : LineEvent :=
  match d with
  | .input => .dirI
  | .output => .dirO

/-- `pin(DIRI); DIR <- IN` or `pin(DIRO); DIR <- OUT`, whatever `DIR` was (40_transport R114, R115, 41_protocol
R144). -/
def switchDir (d : Dir) (s : State) : Flow Unit :=
  (pin (dirEvent d) s).andThen fun _ s => .go () { s with dir := d }

/-- `pulse()`: the clock to its active level and back (40_transport R111). -/
def pulse (s : State) : Flow Unit :=
  (pin .ckA s).andThen fun _ s =>
  (pin .ckI { s with clk := !Config.clkIdle }).andThen fun _ s =>
  .go () { s with clk := Config.clkIdle }

/-! ### Bit cells and bytes -/

/-- The write cell: the data line to `SR[7]`, a pulse, `SR` shifted with 0 (40_transport R116). -/
def writeCell (s : State) : Flow Unit :=
  (readHeld s.sr s).andThen fun r s =>
  (pin (.d (r.getLsbD 7)) s).andThen fun _ s =>
  (pulse { s with dout := r.getLsbD 7 }).andThen fun _ s =>
  .go () { s with sr := some (shiftIn r false) }

/-- The read cell: a pulse, a sample, `SR` shifted with the sampled bit (40_transport R117). -/
def readCell (s : State) : Flow Unit :=
  (pulse s).andThen fun _ s =>
  (sample s).andThen fun b s =>
  (readHeld s.sr s).andThen fun r s =>
  .go () { s with sr := some (shiftIn r b) }

/-- `repeat n times: cell()`. -/
def repeatCell (cell : State → Flow Unit) (n : Nat) (s : State) : Flow Unit :=
  match n with
  | 0 => .go () s
  | n + 1 => (cell s).andThen fun _ s => repeatCell cell n s

/-- `shout(b)`, the body of `SHOUT` without its checks (41_protocol R140): the byte out, most significant bit first. -/
def shiftOut (b : Byte) (s : State) : Flow Unit :=
  (repeatCell writeCell 8 { s with sr := some b }).andThen fun _ s =>
  .go () (byteEvent (.out b) { s with seq := nextByte s.seq })

/-- `shin()`, the body of `SHIN` without its checks (41_protocol R140): a byte in, most significant bit first, left in
`SR` and given on. -/
def shiftInByte (s : State) : Flow Byte :=
  (repeatCell readCell 8 { s with sr := some 0 }).andThen fun _ s =>
  (readHeld s.sr s).andThen fun b s =>
  .go b (byteEvent (.inp b) { s with seq := nextByte s.seq })

/-- The two bytes in that `DRAIN` and `RDREG` end with: `RXW[15:8]` from the first, `RXW[7:0]` from the second; with
only the first half written `RXW` holds no value (41_protocol R141, R142, R145). -/
def receiveWord (s : State) : Flow Unit :=
  (shiftInByte s).andThen fun hi s =>
  (shiftInByte { s with rxw := none }).andThen fun lo s =>
  .go () { s with rxw := some (composeWord hi lo) }

/-- `IllegalOp`: the word the host issued matches no row of 30_encoding R88 (60_exceptions R236, R239). -/
def illegalWord (s : State) : Host.Outcome State Fault Refusal := guarded (raiseFault .illegalOp) s

/-- Reset (70_reset_and_hazards R260): every element to its value of 10_state R36, the histories emptied, no event
appended; what the host does next and the environment are not the block's and stay (R261). -/
def resetBlock (s : State) : State := { State.reset with cmds := s.cmds, env := s.env, asked := s.asked }

end Sys2Proof.Machine
end

