-- ==== Sys2Proof/Machine/Decoder.lean ====
section
/-! DEFINITION. The temperature decoder and its operations DECODE and SETRES (42_decoder). -/

namespace Sys2Proof.Machine

/-- The decoder's shift, 3, 2, 1, 0 for 13, 14, 15, 16 bits (42_decoder R162). -/
def decoderShift (r : Resolution) : Nat :=
  match r with
  | .r13 => 3
  | .r14 => 2
  | .r15 => 1
  | .r16 => 0

/-- `fullScale` (42_decoder R161). -/
def fullScale (r : Resolution) : Nat :=
  match r with
  | .r13 => 4096
  | .r14 => 8192
  | .r15 => 16384
  | .r16 => 32768

/-- The step in degrees Celsius, the document's four decimals (42_decoder R162). -/
def stepCelsius (r : Resolution) : Rat :=
  match r with
  | .r13 => 625 / 10000
  | .r14 => 3125 / 100000
  | .r15 => 15625 / 1000000
  | .r16 => 78125 / 10000000

/-- The step counted in units of 1/128 °C: `128 * step` (42_decoder R162, 10_state R28). -/
def stepUnits (r : Resolution) : Int :=
  match r with
  | .r13 => 8
  | .r14 => 4
  | .r15 => 2
  | .r16 => 1

/-- The count the step multiplies, steps 1 to 4 of 42_decoder R163: the raw word shifted right logically; at or above
`fullScale` the difference `fullScale - shifted`, taken in the integers and not negated again. -/
def decodeCount (raw : Word) (r : Resolution) : Int :=
  let shifted := raw.toNat >>> decoderShift r
  if fullScale r ≤ shifted then (fullScale r : Int) - shifted else shifted

/-- `dec(raw, r)`, in degrees Celsius, exact (42_decoder R160, R163, R167). -/
def decCelsius (raw : Word) (r : Resolution) : Rat := decodeCount raw r * stepCelsius r

/-- `dec(raw, r) * 128`, the integer that `DECODE` stores (42_decoder R167, R168). -/
def decUnits (raw : Word) (r : Resolution) : Int := decodeCount raw r * stepUnits r

/-- The pseudocode of `DECODE`; the resolution is the one `RES` selects now (42_decoder R168, R171). -/
def decodeBody (s : State) : Flow Unit :=
  (readHeld s.rxw s).andThen fun raw s =>
  .go () { s with tq := some (BitVec.ofInt 16 (decUnits raw (resolutionOf s.res))), neg := some (negFlag raw) }

/-- `DECODE` (42_decoder R168). -/
def execDecode (s : State) : Host.Outcome State Fault Refusal := operation .decode decodeBody s

/-- The pseudocode of `SETRES r` (42_decoder R170). -/
def setresBody (r : Word) (s : State) : Flow Unit := .go () { s with res := resCode r.toNat }

/-- `SETRES r` (42_decoder R170). -/
def execSetres (r : Word) (s : State) : Host.Outcome State Fault Refusal := operation (.setres r) (setresBody r) s

end Sys2Proof.Machine
end

