-- ==== Sys2Proof/Machine/Delay.lean ====
section
/-! DEFINITION. WAIT (43_host_sequences R190). -/

namespace Sys2Proof.Machine

/-- The pseudocode of `WAIT n`: `W(n)` in both histories and nothing else; no pin is touched and no time is kept
(43_host_sequences R190). -/
def waitBody (n : Word) (s : State) : Flow Unit := .go () (byteEvent (.w n) { s with lt := s.lt ++ [.w n] })

/-- `WAIT n` (43_host_sequences R190). -/
def execWait (n : Word) (s : State) : Host.Outcome State Fault Refusal := operation (.wait n) (waitBody n) s

end Sys2Proof.Machine
end

