-- ==== Sys2Proof/Machine/Protocol.lean ====
section
/-! DEFINITION. The register protocol operations: DRAIN, RDREG, WRREG (41_protocol), as in Transport.lean. -/

namespace Sys2Proof.Machine

/-- The pseudocode of `DRAIN` (41_protocol R141). -/
def drainBody (s : State) : Flow Unit :=
  (requireWindow s).andThen fun _ s => (switchDir .input s).andThen fun _ s => receiveWord s

/-- `DRAIN` (41_protocol R141). -/
def execDrain (s : State) : Host.Outcome State Fault Refusal := operation .drain drainBody s

/-- The pseudocode of `RDREG a` (41_protocol R142). -/
def rdregBody (a : RegAddr) (s : State) : Flow Unit :=
  (requireWindow s).andThen fun _ s =>
  (switchDir .output s).andThen fun _ s =>
  (shiftOut (commandByte true a) s).andThen fun _ s =>
  (switchDir .input s).andThen fun _ s =>
  receiveWord s

/-- `RDREG a` (41_protocol R142). -/
def execRdreg (a : RegAddr) (s : State) : Host.Outcome State Fault Refusal := operation (.rdreg a) (rdregBody a) s

/-- The pseudocode of `WRREG a, v` (41_protocol R143). -/
def wrregBody (a : RegAddr) (v : Word) (s : State) : Flow Unit :=
  (requireWindow s).andThen fun _ s =>
  (switchDir .output s).andThen fun _ s =>
  (shiftOut (commandByte false a) s).andThen fun _ s =>
  (shiftOut (highByte v) s).andThen fun _ s =>
  shiftOut (lowByte v) s

/-- `WRREG a, v` (41_protocol R143). -/
def execWrreg (a : RegAddr) (v : Word) (s : State) : Host.Outcome State Fault Refusal :=
  operation (.wrreg a v) (wrregBody a v) s

end Sys2Proof.Machine
end

