-- ==== Sys2Proof/Machine/Transport.lean ====
section
/-! DEFINITION. The Serial Transport operations: SEL, DESEL, DIROUT, DIRIN, SHOUT, SHIN (40_transport). Each has its
pseudocode as a body and its meaning, the body under the common checks. -/

namespace Sys2Proof.Machine

/-- The pseudocode of `SEL` (40_transport R112). -/
def selBody (s : State) : Flow Unit := (requireNoWindow s).andThen fun _ s => openWindow s

/-- `SEL` (40_transport R112). -/
def execSel (s : State) : Host.Outcome State Fault Refusal := operation .sel selBody s

/-- The pseudocode of `DESEL` (40_transport R113). -/
def deselBody (s : State) : Flow Unit := closeWindow s

/-- `DESEL` (40_transport R113). -/
def execDesel (s : State) : Host.Outcome State Fault Refusal := operation .desel deselBody s

/-- The pseudocode of `DIROUT` (40_transport R114). -/
def diroutBody (s : State) : Flow Unit := switchDir .output s

/-- `DIROUT` (40_transport R114). -/
def execDirout (s : State) : Host.Outcome State Fault Refusal := operation .dirout diroutBody s

/-- The pseudocode of `DIRIN` (40_transport R115). -/
def dirinBody (s : State) : Flow Unit := switchDir .input s

/-- `DIRIN` (40_transport R115). -/
def execDirin (s : State) : Host.Outcome State Fault Refusal := operation .dirin dirinBody s

/-- The pseudocode of `SHOUT b` (40_transport R118). -/
def shoutBody (b : Byte) (s : State) : Flow Unit :=
  (requireWindow s).andThen fun _ s => (requireDir .output s).andThen fun _ s => shiftOut b s

/-- `SHOUT b` (40_transport R118). -/
def execShout (b : Byte) (s : State) : Host.Outcome State Fault Refusal := operation (.shout b) (shoutBody b) s

/-- The pseudocode of `SHIN` (40_transport R119). -/
def shinBody (s : State) : Flow Unit :=
  (requireWindow s).andThen fun _ s =>
  (requireDir .input s).andThen fun _ s =>
  (shiftInByte s).andThen fun _ s => .go () s

/-- `SHIN` (40_transport R119). -/
def execShin (s : State) : Host.Outcome State Fault Refusal := operation .shin shinBody s

end Sys2Proof.Machine
end

