-- ==== Sys2Proof/Machine/Dispatch.lean ====
section
/-! DEFINITION. The meaning of each operation, one arm per constructor. -/

namespace Sys2Proof.Machine

def exec (i : Instr) (s : State) : Host.Outcome State Fault Refusal :=
  match i with
  | .sel => Sys2Proof.Machine.execSel s
  | .desel => Sys2Proof.Machine.execDesel s
  | .dirout => Sys2Proof.Machine.execDirout s
  | .dirin => Sys2Proof.Machine.execDirin s
  | .shout b => Sys2Proof.Machine.execShout b s
  | .shin => Sys2Proof.Machine.execShin s
  | .drain => Sys2Proof.Machine.execDrain s
  | .rdreg a => Sys2Proof.Machine.execRdreg a s
  | .wrreg a v => Sys2Proof.Machine.execWrreg a v s
  | .decode => Sys2Proof.Machine.execDecode s
  | .setres r => Sys2Proof.Machine.execSetres r s
  | .wait n => Sys2Proof.Machine.execWait n s

end Sys2Proof.Machine
end

