-- ==== Sys2Proof/Machine/Issue.lean ====
section
/-! DEFINITION. What the host does to the block: issuing an operation word, resetting, reading an element
(70_reset_and_hazards R285), with the order of checks of 60_exceptions R239. -/

namespace Sys2Proof.Machine

/-- The host issues a word (30_encoding R87): its operation is performed, and an illegal word raises `IllegalOp`; both
only after the check that the block is not faulted (40_transport R110, 60_exceptions R239). -/
def issueWord (w : OpBits) (s : State) : Host.Outcome State Fault Refusal :=
  match decode w with
  | .ok i => exec i s
  | .error _ => illegalWord s

/-- The host resets the block between operations (70_reset_and_hazards R260, R285). -/
def resetCommand (s : State) : Host.Outcome State Fault Refusal :=
  match s.seq with
  | .running _ _ _ => .refused .busy
  | .idle => .next (resetBlock s)

/-- One command of the host. -/
def runCommand (c : HostCmd) (s : State) : Host.Outcome State Fault Refusal :=
  match c with
  | .issue w => issueWord w s
  | .reset => resetCommand s

/-- The host's next command, taken off its list; with none the block stays as it is (70_reset_and_hazards R283: it
"never stops by itself"). -/
def nextCommand (s : State) : Host.Outcome State Fault Refusal :=
  match s.cmds with
  | [] => .next s
  | c :: rest => runCommand c { s with cmds := rest }

/-- The host's list with a word put before everything else. -/
def placeWord (s : State) (w : OpBits) : State := { s with cmds := .issue w :: s.cmds }

end Sys2Proof.Machine
end

