-- ==== Sys2Proof/Machine/Step.lean ====
section
/-! DEFINITION. One step of the machine: the host's next command (70_reset_and_hazards R283, R285). -/

namespace Sys2Proof.Machine

/-- One step: the host's next command is carried out whole (10_state R34 allows the operation as one atomic step). -/
def step (s : State) : Host.Outcome State Fault Refusal := nextCommand s

/-- The state with the operation word `w` of `nbits` bits as what the host issues next. -/
def State.withFetchWord (s : State) (nbits w : Nat) : State := placeWord s (BitVec.ofNat 32 (w % 2 ^ nbits))

end Sys2Proof.Machine
end

