-- ==== Sys2Proof/Machine/HostRead.lean ====
section
/-! DEFINITION. The host's reads of the block's elements (10_state R20, 70_reset_and_hazards R285): a read changes nothing,
and an element that holds no value yields nothing. -/

namespace Sys2Proof.Machine

/-- The ten elements of 10_state R20. -/
inductive Element where
  | cs
  | clk
  | dir
  | dout
  | sr
  | rxw
  | res
  | tq
  | neg
  | fault
  deriving DecidableEq, Repr

/-- What the host reads of an element: the unsigned number its bits make, and for `TQ`, the one signed register, the signed
one (00_scope R9, 10_state R20, R28); `none` where it holds no value (R21). -/
def hostRead (e : Element) (s : State) : Option Int :=
  match e with
  | .cs => some s.cs.toNat
  | .clk => some s.clk.toNat
  | .dir => some (match s.dir with | .input => 0 | .output => 1)
  | .dout => some s.dout.toNat
  | .sr => s.sr.map fun r => r.toNat
  | .rxw => s.rxw.map fun r => r.toNat
  | .res => some s.res.toNat
  | .tq => s.tq.map BitVec.toInt
  | .neg => s.neg.map fun b => b.toNat
  | .fault => some s.fault.toNat

/-- The temperature the host makes of `TQ`: `TQ / 128` degrees Celsius, exact (10_state R28). -/
def hostCelsius (s : State) : Option Rat := s.tq.map fun q => (q.toInt : Rat) / 128

end Sys2Proof.Machine
end

