-- ==== Sys2Proof/Machine/HostSeq.lean ====
section
/-! DEFINITION. The host's computations and sequences, the pseudo-instructions (30_encoding R93, 43_host_sequences R191 to
R210): host software that runs on the block, not part of it (00_scope R4). They have no operation word. -/

namespace Sys2Proof.Machine

/-! ### Host computations -/

/-- `c | cfg.sd_mask`, the first value `RESETSENSOR` writes (43_host_sequences R197). -/
def shutdownValue (c : Word) : Word := c ||| Config.sdMask

/-- `c & ~cfg.sd_mask`, the second (43_host_sequences R197). -/
def wakeValue (c : Word) : Word := c &&& ~~~ Config.sdMask

/-- `(c & 0xFFC0) | (rescode(r) << 4)`, the value `CHANGERES` writes (43_host_sequences R199, R200). -/
def changeResValue (c r : Word) : Word := (c &&& 0xFFC0) ||| ((resCode r.toNat).zeroExtend 16 <<< 4)

/-- The value `ONESHOT e` writes (43_host_sequences R201). -/
def oneShotValue (e : Bool) (c : Word) : Word :=
  if e then c ||| Config.sdMask ||| Config.osMask else c &&& ~~~ (Config.sdMask ||| Config.osMask)

/-- The nearest integer, ties away from zero (43_host_sequences R205). -/
def roundAway (q : Rat) : Int := if 0 ≤ q then (q + 1 / 2).floor else -((-q + 1 / 2).floor)

/-- `tripenc(t)`: the rounded product as a 16-bit two's complement pattern, its low five bits cleared; out of range it is
refused (43_host_sequences R205). -/
def tripEncode (t : Rat) : Option Word :=
  let k := roundAway (t * 128)
  if -32768 ≤ k ∧ k ≤ 32767 then some (BitVec.ofInt 16 k &&& 0xFFE0) else none

/-- `tripdec(raw) = raw / 8`, `raw` unsigned, the quotient exact (43_host_sequences R206). -/
def tripDecode (raw : Word) : Rat := (raw.toNat : Rat) / 8

/-- `F = 9 * C / 5 + 32` (43_host_sequences R210). -/
def fahrenheit (c : Rat) : Rat := 9 * c / 5 + 32

/-! ### Operation lists -/

/-- `REGREAD a` (43_host_sequences R195). -/
def regReadOps (a : RegAddr) : List Instr := [.sel, .drain, .rdreg a, .desel]

/-- `REGWRITE a, v` (43_host_sequences R196). -/
def regWriteOps (a : RegAddr) (v : Word) : List Instr := [.sel, .drain, .wrreg a v, .desel]

/-- `TEMPREAD` (43_host_sequences R194). -/
def tempReadOps : List Instr := [.sel, .drain, .desel, .decode]

/-- `RESETSENSOR` after its read gave `c` (43_host_sequences R197). -/
def resetSensorRest (c : Word) : List Instr :=
  regWriteOps Config.addrControl (shutdownValue c) ++ [.wait Config.settleMs] ++
  regWriteOps Config.addrControl (wakeValue c) ++ [.wait Config.settleMs]

/-- `CHANGERES r` after its read gave `c`; `SETRES` comes last (43_host_sequences R199). -/
def changeResRest (r c : Word) : List Instr :=
  regWriteOps Config.addrControl (changeResValue c r) ++ [.setres r]

/-- `ONESHOT e` after its read gave `c` (43_host_sequences R201). -/
def oneShotRest (e : Bool) (c : Word) : List Instr := regWriteOps Config.addrControl (oneShotValue e c)

/-- `SETTRIP lo, hi`: TripLow first; refused when a threshold is out of range (43_host_sequences R205, R207). -/
def setTripOps (lo hi : Rat) : Option (List Instr) :=
  (tripEncode lo).bind fun l => (tripEncode hi).map fun h =>
    regWriteOps Config.addrTripLow l ++ regWriteOps Config.addrTripHigh h

/-! ### Running a sequence -/

/-- The operations of a list one after another; a fault ends the sequence (43_host_sequences R191). -/
def runOps (ops : List Instr) (s : State) : Host.Outcome State Fault Refusal :=
  match ops with
  | [] => .next s
  | i :: rest =>
    match exec i s with
    | .next t => if t.fault = 0 then runOps rest t else .next t
    | .fault r => .fault r
    | .refused r => .refused r

/-- What a sequence does after a part of it: the rest if no fault was recorded (43_host_sequences R191). -/
def afterOps (o : Host.Outcome State Fault Refusal) (k : State → Host.Outcome State Fault Refusal) :
    Host.Outcome State Fault Refusal :=
  match o with
  | .next t => if t.fault = 0 then k t else .next t
  | .fault r => .fault r
  | .refused r => .refused r

/-- `c <- REGREAD a`, then the operations the host derives from `c`; a register that holds no value gives the host
nothing to go on with (43_host_sequences R198, 70_reset_and_hazards R285). -/
def readThenRun (a : RegAddr) (rest : Word → List Instr) (s : State) : Host.Outcome State Fault Refusal :=
  afterOps (runOps (regReadOps a) s) fun t =>
    match t.rxw with
    | some c => runOps (rest c) t
    | none => .next t

/-- What a sequence returns: what the host makes of the state it ended in, and nothing where a fault is recorded there, for
the sequence then ended before its value was made (43_host_sequences R191). -/
def valueAfter {α : Type} (o : Host.Outcome State Fault Refusal) (value : State → Option α) : Option α :=
  match o with
  | .next t => if t.fault = 0 then value t else none
  | .fault _ => none
  | .refused _ => none

/-- `REGREAD a`, with the value it returns, `RXW` (43_host_sequences R195). -/
def seqRegRead (a : RegAddr) (s : State) : Host.Outcome State Fault Refusal × Option Word :=
  let o := runOps (regReadOps a) s
  (o, valueAfter o State.rxw)

/-- `REGWRITE a, v` (43_host_sequences R196). -/
def seqRegWrite (a : RegAddr) (v : Word) (s : State) : Host.Outcome State Fault Refusal := runOps (regWriteOps a v) s

/-- `TEMPREAD`, with the value it returns, `TQ / 128` (43_host_sequences R194). -/
def seqTempRead (s : State) : Host.Outcome State Fault Refusal × Option Rat :=
  let o := runOps tempReadOps s
  (o, valueAfter o hostCelsius)

/-- `TEMPF`: `TEMPREAD`, its value converted (43_host_sequences R210). -/
def seqTempF (s : State) : Host.Outcome State Fault Refusal × Option Rat :=
  let r := seqTempRead s
  (r.1, r.2.map fahrenheit)

/-- `RESETSENSOR` (43_host_sequences R197). -/
def seqResetSensor (s : State) : Host.Outcome State Fault Refusal :=
  readThenRun Config.addrControl resetSensorRest s

/-- `CHANGERES r` (43_host_sequences R199). -/
def seqChangeRes (r : Word) (s : State) : Host.Outcome State Fault Refusal :=
  readThenRun Config.addrControl (changeResRest r) s

/-- The boot obligations in order: reset the block, `RESETSENSOR`, `CHANGERES r` (70_reset_and_hazards R262). -/
def seqBoot (r : Word) (s : State) : Host.Outcome State Fault Refusal :=
  afterOps (seqResetSensor (resetBlock s)) (seqChangeRes r)

/-- `ONESHOT e` (43_host_sequences R201). -/
def seqOneShot (e : Bool) (s : State) : Host.Outcome State Fault Refusal :=
  readThenRun Config.addrControl (oneShotRest e) s

/-- `SETTRIP lo, hi`; `none` where a threshold is refused (43_host_sequences R207). -/
def seqSetTrip (lo hi : Rat) (s : State) : Option (Host.Outcome State Fault Refusal) :=
  (setTripOps lo hi).map fun ops => runOps ops s

/-- `GETTRIP`, with the values it returns, `(low, high)`; the second read is not begun after a fault in the first
(43_host_sequences R208, R191). -/
def seqGetTrip (s : State) : Host.Outcome State Fault Refusal × Option (Rat × Rat) :=
  match seqRegRead Config.addrTripLow s with
  | (.next t, some l) =>
    let high := seqRegRead Config.addrTripHigh t
    (high.1, high.2.map fun h => (tripDecode l, tripDecode h))
  | (o, _) => (o, none)

end Sys2Proof.Machine
end

