-- ==== Sys2Proof/Machine/HostDuty.lean ====
section
/-! DEFINITION. What the host owes, as far as its operations show it: `host_well_formed` (70_reset_and_hazards R270 to R278,
R284). A host's operations are a list of sequences, each performed whole before the next (R275), each with the values that
its reads of Control gave the host, which the values it writes must be derived from (43_host_sequences R198). -/

namespace Sys2Proof.Machine

/-- One sequence of the host: its operations in order, and what its reads of Control returned, in order. -/
structure HostSequence where
  ops : List Instr
  reads : List Word
  deriving DecidableEq, Repr

/-! ### The windows -/

/-- Where a host's list of operations stands with respect to the windows. -/
inductive WindowPhase where
  /-- Outside a window. -/
  | closed
  /-- After `SEL`, before the drain. -/
  | selected
  /-- After the drain. -/
  | drained
  /-- After the one exchange. -/
  | exchanged
  deriving DecidableEq, Repr

/-- The shape of the windows: drain first, then at most one exchange, every window closed (70_reset_and_hazards R270, R271,
R276; what a window holds, 43_host_sequences R191). Between windows everything but a shift (R273) and a compound exchange:
`DESEL`, `DIROUT` and `DIRIN` are legal there (40_transport R113, R114, R115). No `SHOUT` or `SHIN` stands in a window, so
none has the wrong direction (R272). -/
def windowsKept (p : WindowPhase) (ops : List Instr) : Bool :=
  match ops with
  | [] => p == .closed
  | i :: rest =>
    match p, i with
    | .closed, .sel => windowsKept .selected rest
    | .closed, .desel => windowsKept .closed rest
    | .closed, .dirout => windowsKept .closed rest
    | .closed, .dirin => windowsKept .closed rest
    | .closed, .decode => windowsKept .closed rest
    | .closed, .setres _ => windowsKept .closed rest
    | .closed, .wait _ => windowsKept .closed rest
    | .selected, .drain => windowsKept .drained rest
    | .drained, .rdreg _ => windowsKept .exchanged rest
    | .drained, .wrreg _ _ => windowsKept .exchanged rest
    | .drained, .desel => windowsKept .closed rest
    | .exchanged, .desel => windowsKept .closed rest
    | _, _ => false

/-! ### The Control register -/

/-- `RESETSENSOR` after its read gave `c`, each settle delay at least `SETTLE_MS`: the one sequence that writes Control twice
from one read, and it must wait after each (70_reset_and_hazards R278, 43_host_sequences R197). -/
def isResetSensor (c : Word) (ops : List Instr) : Bool :=
  (ops.map fun i =>
    match i with
    | .wait n => if Config.settleMs ≤ n then .wait Config.settleMs else .wait n
    | i => i) == regReadOps Config.addrControl ++ resetSensorRest c

/-- `CHANGERES` after its read gave `c`, for the resolution its `SETRES` names: the one sequence that changes the resolution
(70_reset_and_hazards R274, 43_host_sequences R199). -/
def isChangeRes (c : Word) (ops : List Instr) : Bool :=
  match ops.getLast? with
  | some (.setres r) => ops == regReadOps Config.addrControl ++ changeResRest r c
  | _ => false

/-- Every other sequence: each write of Control follows a read of its own, not used by an earlier write (R277), and keeps
bits 5:4 of the value read, and there is no `SETRES` (R274). `fresh` is the value of the last read of Control, until a write
uses it; every value in `reads` is that of a read in the list. -/
def controlKept (fresh : Option Word) (reads : List Word) (ops : List Instr) : Bool :=
  match ops with
  | [] => reads.isEmpty
  | .rdreg a :: rest =>
    if a = Config.addrControl then
      match reads with
      | [] => false
      | c :: reads => controlKept (some c) reads rest
    else controlKept fresh reads rest
  | .wrreg a v :: rest =>
    if a = Config.addrControl then
      match fresh with
      | none => false
      | some c => v.extractLsb' 4 2 == c.extractLsb' 4 2 && controlKept none reads rest
    else controlKept fresh reads rest
  | .setres _ :: _ => false
  | _ :: rest => controlKept fresh reads rest

/-- A sequence that keeps the host's obligations. -/
def sequenceKept (q : HostSequence) : Bool :=
  windowsKept .closed q.ops &&
    (controlKept none q.reads q.ops ||
      match q.reads with
      | [c] => isChangeRes c q.ops || isResetSensor c q.ops
      | _ => false)

/-- The obligations on a host's whole list of sequences. -/
def sequencesKept (qs : List HostSequence) : Bool := qs.all sequenceKept

/-! ### In a run -/

/-- The values that the reads of Control give the host when the operations run from a state; none after a fault. -/
def controlReads (ops : List Instr) (s : State) : List Word :=
  match ops with
  | [] => []
  | i :: rest =>
    match exec i s with
    | .next t =>
      if t.fault = 0 then
        match i, t.rxw with
        | .rdreg a, some c => if a = Config.addrControl then c :: controlReads rest t else controlReads rest t
        | _, _ => controlReads rest t
      else []
    | .fault _ => []
    | .refused _ => []

/-- The values listed as read are those the run gave, up to the fault that ends it. -/
def readsOfRun (qs : List HostSequence) (s : State) : Prop :=
  match qs with
  | [] => True
  | q :: rest =>
    controlReads q.ops s <+: q.reads ∧ ∀ t, runOps q.ops s = .next t → t.fault = 0 → readsOfRun rest t

/-- `host_well_formed` of a run from `s`: the host's sequences keep the obligations, on the values the run itself gave the
host (70_reset_and_hazards R284). -/
abbrev HostWellFormed (qs : List HostSequence) (s : State) : Prop := sequencesKept qs = true ∧ readsOfRun qs s

end Sys2Proof.Machine
end

