-- ==== Sys2Proof/Machine/Trace.lean ====
section
/-! DEFINITION. The micro-steps of each operation written out as a list, from the tables and event counts of the spec and
not from the meanings (10_state R34, 30_encoding R81 to R83, 70_reset_and_hazards R282; the column `wire` of the opcode
table). Claims compare the line trace of an operation with this list. -/

namespace Sys2Proof.Machine

/-- A micro-step: a pin action with its event, or a sample of the data line (10_state R34, 00_scope R10). -/
inductive MicroStep where
  | act (e : LineEvent)
  | sample
  deriving DecidableEq, Repr

/-- The bits of a byte in wire order, bit 7 first (20_memory R51). -/
def wireBits (b : Byte) : List Level :=
  [b.getLsbD 7, b.getLsbD 6, b.getLsbD 5, b.getLsbD 4, b.getLsbD 3, b.getLsbD 2, b.getLsbD 1, b.getLsbD 0]

/-- The three events of a write cell: data before clock (40_transport R116, R121). -/
def writeCellSteps (d : Level) : List MicroStep := [.act (.d d), .act .ckA, .act .ckI]

/-- The three events of a read cell: the sample after the whole pulse (40_transport R117). -/
def readCellSteps : List MicroStep := [.act .ckA, .act .ckI, .sample]

/-- A byte out: eight write cells, `D<b[i]>` for `i` from 7 down to 0 (40_transport R118). -/
def byteOutSteps (b : Byte) : List MicroStep := (wireBits b).flatMap writeCellSteps

/-- A byte in: eight read cells (40_transport R119). -/
def byteInSteps : List MicroStep := (List.replicate 8 readCellSteps).flatten

/-- The micro-steps of an operation that passes its checks, in order (opcode table, `line_events`; 70_reset_and_hazards
R282). `WAIT` asks the environment nothing: its event is no micro-step. -/
def microSteps (i : Instr) : List MicroStep :=
  match i with
  | .sel => [.act .cs0]
  | .desel => [.act .cs1]
  | .dirout => [.act .dirO]
  | .dirin => [.act .dirI]
  | .shout b => byteOutSteps b
  | .shin => byteInSteps
  | .drain => .act .dirI :: (byteInSteps ++ byteInSteps)
  | .rdreg a => .act .dirO :: byteOutSteps (commandByte true a) ++ .act .dirI :: (byteInSteps ++ byteInSteps)
  | .wrreg a v => .act .dirO :: byteOutSteps (commandByte false a) ++ byteOutSteps (highByte v) ++ byteOutSteps (lowByte v)
  | .decode => []
  | .setres _ => []
  | .wait _ => []

/-- The level the environment's `k`-th answer carries; read only where that answer is not `fail`. -/
def levelAt (s : State) (k : Nat) : Level :=
  match answerAt s k with
  | .ok b => b
  | .fail => false

/-- The line event of a micro-step that is the `k`-th consultation from state `s`. -/
def stepEvent (s : State) (k : Nat) (m : MicroStep) : LineEvent :=
  match m with
  | .act e => e
  | .sample => .s (levelAt s k)

/-- The line events of micro-steps that begin at the `k`-th consultation from state `s`. -/
def eventsFrom (s : State) (k : Nat) (ms : List MicroStep) : List LineEvent :=
  match ms with
  | [] => []
  | m :: ms => stepEvent s k m :: eventsFrom s (k + 1) ms

/-- The byte whose eight read cells begin at the `k`-th consultation: the first bit sampled is bit 7; each cell asks
three times and the third is the sample (40_transport R117, R119). -/
def byteAt (s : State) (k : Nat) : Byte :=
  BitVec.ofBool (levelAt s (k + 2)) ++ BitVec.ofBool (levelAt s (k + 5)) ++ BitVec.ofBool (levelAt s (k + 8)) ++
  BitVec.ofBool (levelAt s (k + 11)) ++ BitVec.ofBool (levelAt s (k + 14)) ++ BitVec.ofBool (levelAt s (k + 17)) ++
  BitVec.ofBool (levelAt s (k + 20)) ++ BitVec.ofBool (levelAt s (k + 23))

/-- The word whose two bytes begin at the `k`-th consultation, high byte first (20_memory R51, 41_protocol R145). -/
def wordAt (s : State) (k : Nat) : Word := composeWord (byteAt s k) (byteAt s (k + 24))

/-- What `BT` gains by a window that reads register `a` and begins at the `k`-th consultation: the drained sample, the
command byte, the register's word (43_host_sequences R195). -/
def readWindow (s : State) (k : Nat) (a : RegAddr) : List ByteEvent :=
  [.sel, .inp (byteAt s (k + 2)), .inp (byteAt s (k + 26)), .out (0x80 ||| a.zeroExtend 8), .inp (byteAt s (k + 76)),
   .inp (byteAt s (k + 100)), .desel]

/-- What `BT` gains by a window that writes `v` to register `a` and begins at the `k`-th consultation: the drained sample,
the command byte, the two bytes of `v`, high byte first (43_host_sequences R196). -/
def writeWindow (s : State) (k : Nat) (a : RegAddr) (v : Word) : List ByteEvent :=
  [.sel, .inp (byteAt s (k + 2)), .inp (byteAt s (k + 26)), .out (a.zeroExtend 8), .out (v.extractLsb' 8 8),
   .out (v.extractLsb' 0 8), .desel]

/-- The state once the micro-steps `ms` have all happened and the operation is done, before the registers its rule writes:
their events in `LT`, the environment asked once for each (00_scope R11, 10_state R34). -/
def doneSteps (ms : List MicroStep) (s : State) : State :=
  { s with lt := s.lt ++ eventsFrom s 0 ms, env := s.env.drop ms.length, asked := s.asked + ms.length
           outcome := some .done }

/-- The state when micro-step `k` of `ms` is answered with `fail`: the ones before it happened, it and the later ones did
not, and the registers they write are left to say (60_exceptions R233, R241). -/
def cutSteps (ms : List MicroStep) (k : Nat) (s : State) : State :=
  { s with lt := s.lt ++ (eventsFrom s 0 ms).take k, env := s.env.drop (k + 1), asked := s.asked + (k + 1) }

/-- `env_never_fails` for the next `n` consultations (20_memory R65, 70_reset_and_hazards R284). -/
abbrev EnvOk (s : State) (n : Nat) : Prop := ∀ k < n, answerAt s k ≠ .fail

/-- The environment fails for the first time at its `k`-th answer from now on (60_exceptions R233). -/
abbrev FirstFail (s : State) (k : Nat) : Prop := EnvOk s k ∧ answerAt s k = .fail

end Sys2Proof.Machine
end

