-- ==== Sys2Proof/Machine/RefDev.lean ====
section
/-! DEFINITION. The test fixture `RefDev` (20_memory R66 to R68). It is not the sensor and not part of the block: tests run
against it, and `env_is_refdev` (70_reset_and_hazards R284) is a premise about it. -/

namespace Sys2Proof.Machine

/-- The fixture's state (20_memory R66). -/
structure RefDev where
  /-- `DREG`, a total map from address to word. -/
  dreg : RegAddr → Word
  /-- `SMP`, the sample it emits at the next selection. -/
  smp : Word
  /-- `sel`, whether it is selected. -/
  sel : Bool
  /-- `n`, the pulses begun since the last `CS0`. -/
  n : Nat
  /-- `L`, the sample latched at `CS0`. -/
  latched : Word
  /-- `CMD`, the command byte. -/
  cmd : Byte
  /-- `WSH`, the word being written. -/
  wsh : Word
  /-- `line`, the last level the block drove. -/
  line : Level

/-- The fixture at the start of a test, with the test's `SMP` and `DREG` (20_memory R66). -/
def refDevStart (smp : Word) (dreg : RegAddr → Word) : RefDev :=
  { dreg := dreg, smp := smp, sel := false, n := 0, latched := 0, cmd := 0, wsh := 0, line := false }

/-- A word or byte with bit `i` set to `b`, the other bits kept. -/
def setBit {w : Nat} (v : BitVec w) (i : Nat) (b : Bool) : BitVec w :=
  if b then v ||| BitVec.twoPow w i else v &&& ~~~ BitVec.twoPow w i

/-- The address of the fixture's command, `CMD[6:0]`. -/
def refDevAddr (d : RefDev) : RegAddr := d.cmd.extractLsb' 0 7

/-- `CKA` while selected, `n` already counted: pulses 17 to 24 take the command, 25 to 40 the data of a write, which is
committed at pulse 40; pulse 41 is REFUSED, `none` (20_memory R67). -/
def refDevPulse (d : RefDev) : Option RefDev :=
  if d.n ≤ 16 then some d
  else if d.n ≤ 24 then some { d with cmd := setBit d.cmd (24 - d.n) d.line }
  else if d.n ≤ 40 then
    if d.cmd.getLsbD 7 then some d
    else
      let w := setBit d.wsh (40 - d.n) d.line
      if d.n = 40 then some { d with wsh := w, dreg := fun a => if a = refDevAddr d then w else d.dreg a }
      else some { d with wsh := w }
  else none

/-- The fixture's answer to a sample, `none` where it REFUSES (20_memory R67). -/
def refDevSample (d : RefDev) : Option Level :=
  if !d.sel then none
  else if 1 ≤ d.n && d.n ≤ 16 then some (d.latched.getLsbD (16 - d.n))
  else if 25 ≤ d.n && d.n ≤ 40 && d.cmd.getLsbD 7 then some ((d.dreg (refDevAddr d)).getLsbD (40 - d.n))
  else none

/-- The fixture's reaction to a line event (20_memory R67), `none` where it REFUSES; a sample event must be the level it
answers. -/
def refDevReact (d : RefDev) (e : LineEvent) : Option RefDev :=
  match e with
  | .cs0 => some { d with sel := true, n := 0, latched := d.smp }
  | .cs1 => some { d with sel := false }
  | .d b => some { d with line := b }
  | .dirO => some d
  | .dirI => some d
  | .ckI => some d
  | .w _ => some d
  | .ckA => if d.sel then refDevPulse { d with n := d.n + 1 } else some d
  | .s b => if refDevSample d = some b then some d else none

/-- The fixture after a line trace, `none` where it refuses an event or would have answered a sample otherwise. -/
def refDevReplay (d : RefDev) (es : List LineEvent) : Option RefDev :=
  match es with
  | [] => some d
  | e :: es => (refDevReact d e).bind fun d => refDevReplay d es

/-- The answers the fixture gives to a list of micro-steps; it never fails a pin action (20_memory R66). -/
def refDevScript (d : RefDev) (ms : List MicroStep) : Option (List EnvAnswer) :=
  match ms with
  | [] => some []
  | .act e :: ms => (refDevReact d e).bind fun d => (refDevScript d ms).map fun r => .ok false :: r
  | .sample :: ms => (refDevSample d).bind fun b => (refDevScript d ms).map fun r => .ok b :: r

/-- `env_is_refdev` for a stretch of a run without a reset: what the block recorded from `s` to `t` is what the fixture `d`
answers, and no consultation of the stretch was answered `fail`, which the fixture never does (70_reset_and_hazards R284,
20_memory R66). -/
def envIsRefDev (d : RefDev) (s t : State) : Prop :=
  EnvOk s (t.asked - s.asked) ∧ ∃ es, t.lt = s.lt ++ es ∧ (refDevReplay d es).isSome = true

end Sys2Proof.Machine
end

