-- ==== Sys2Proof/Safety.lean ====
section
/-! DEFINITION. What counts as a good run, and the named premises of a claim (70_reset_and_hazards R283, R284); what the
line trace says of the lines; the invariant of the block. -/

namespace Sys2Proof.Machine

/-! ### The end of a run (70_reset_and_hazards R283) -/

/-- The run is over: the host's list is exhausted and no operation is in progress. -/
abbrev runOver (s : State) : Prop := s.cmds = [] ∧ s.seq = .idle

/-- The good end: `FAULT = 0` and `CS = 1`. -/
abbrev goodEnd (s : State) : Prop := s.fault = 0 ∧ s.cs = true

/-- The faulted end: `FAULT != 0`. -/
abbrev faultedEnd (s : State) : Prop := s.fault ≠ 0

/-- Left open: `FAULT = 0` and `CS = 0`; never the good end of a claim (70_reset_and_hazards R276). -/
abbrev leftOpen (s : State) : Prop := s.fault = 0 ∧ s.cs = false

/-! ### Named premises (70_reset_and_hazards R284); `env_never_fails` is `EnvOk`, `env_is_refdev` is `envIsRefDev`,
`host_well_formed` is `HostWellFormed` -/

/-- `clean_entry`. -/
abbrev CleanEntry (s : State) : Prop := s.fault = 0 ∧ s.cs = true ∧ s.seq = .idle ∧ s.clk = Config.clkIdle

/-- The block takes an operation: none is in progress and no fault is recorded (70_reset_and_hazards R285, 40_transport
R110). -/
abbrev Ready (s : State) : Prop := s.seq = .idle ∧ s.fault = 0

/-- Whether the operation's own checks pass, those that come before any event (60_exceptions R239): the window, the
direction, the word to decode. -/
def checksPass (i : Instr) (s : State) : Bool :=
  match i with
  | .sel => s.cs
  | .shout _ => !s.cs && s.dir == .output
  | .shin => !s.cs && s.dir == .input
  | .drain => !s.cs
  | .rdreg _ => !s.cs
  | .wrreg _ _ => !s.cs
  | .decode => s.rxw.isSome
  | .desel => true
  | .dirout => true
  | .dirin => true
  | .setres _ => true
  | .wait _ => true

/-- `res_agrees`: `RES` equals bits 5:4 of the sensor's Control register (70_reset_and_hazards R274); the sensor is the
environment's, so its register is an argument. -/
abbrev ResAgrees (control : Word) (s : State) : Prop := s.res = control.extractLsb' 4 2

/-! ### What the line trace says of the lines -/

/-- `CS` after a line event. -/
def csAfter (e : LineEvent) (b : Level) : Level :=
  match e with
  | .cs0 => false
  | .cs1 => true
  | _ => b

/-- `CLK` after a line event. -/
def clkAfter (e : LineEvent) (b : Level) : Level :=
  match e with
  | .ckA => !Config.clkIdle
  | .ckI => Config.clkIdle
  | _ => b

/-- `DIR` after a line event. -/
def dirAfter (e : LineEvent) (d : Dir) : Dir :=
  match e with
  | .dirI => .input
  | .dirO => .output
  | _ => d

/-- `DOUT` after a line event. -/
def doutAfter (e : LineEvent) (b : Level) : Level :=
  match e with
  | .d v => v
  | _ => b

/-- The lines are where the line trace since reset says they are: the reset levels (10_state R36) moved by each event
of `LT` in order (00_scope R8). -/
abbrev LinesFollowTrace (s : State) : Prop :=
  s.cs = s.lt.foldl (fun b e => csAfter e b) true ∧
  s.clk = s.lt.foldl (fun b e => clkAfter e b) Config.clkIdle ∧
  s.dir = s.lt.foldl (fun d e => dirAfter e d) .input ∧
  s.dout = s.lt.foldl (fun b e => doutAfter e b) false

/-- The select windows of the line trace, as the byte transcript records them (00_scope R8): one `SEL` for each `CS0`
and one `DESEL` for each `CS1`, in the same order, the delays between. -/
def windowEvents (lt : List LineEvent) : List ByteEvent :=
  lt.filterMap fun e =>
    match e with
    | .cs0 => some .sel
    | .cs1 => some .desel
    | .w n => some (.w n)
    | _ => none

/-- The byte transcript without its bytes. -/
def withoutBytes (bt : List ByteEvent) : List ByteEvent :=
  bt.filter fun e =>
    match e with
    | .out _ => false
    | .inp _ => false
    | _ => true

/-- What holds between operations in every run (10_state R23, R33, R34; 60_exceptions R240, R242): `SEQ` is idle; with no
fault recorded the clock rests; with a fault recorded the line is deselected; `FAULT` is never 7; a reading that is
negative or not has been made together with the temperature. -/
abbrev BlockInv (s : State) : Prop :=
  s.seq = .idle ∧ (s.fault = 0 → s.clk = Config.clkIdle) ∧ (s.fault ≠ 0 → s.cs = true) ∧ s.fault ≠ 7 ∧
  s.tq.isSome = s.neg.isSome ∧ LinesFollowTrace s ∧ withoutBytes s.bt = windowEvents s.lt

end Sys2Proof.Machine
end

