-- ==== Sys2Proof/Certificates/Slice0/Obligations.lean ====
section
/-! DEFINITION. The statements for the provers, made from the numbered rules of spec/. `Ready s` says that the block takes
an operation (SEQ idle, FAULT = 0); `EnvOk s n` that the environment answers the next `n` consultations without `fail`;
`byteAt s k` is the byte it answers from its `k`-th answer on; `readWindow` and `writeWindow` are the byte transcripts of a
register read and a register write (43_host_sequences R195, R196); `raiseFault c s` is fault entry, spelled out by
FaultEntryDeselects. `env` and `asked`, which say where the environment's answers come from, are the model's own fields
(assumption 1). -/

open Sys2Proof Sys2Proof.Machine

/-! ### What each operation does -/

/-- 40_transport R112, 60_exceptions R234: outside a window `SEL` drives `CS` to 0 and records `CS0` and `SEL`, or faults
`TransportFailure` with no event; inside one it faults `Reentry`. -/
def Obligations.SelOpensWindow : Prop :=
  ∀ s : State, Ready s →
    (s.cs = true → EnvOk s 1 →
      exec .sel s = .next { doneSteps [.act .cs0] s with cs := false, bt := s.bt ++ [.sel] }) ∧
    (s.cs = true → FirstFail s 0 →
      exec .sel s = .next (raiseFault .transportFailure (cutSteps [.act .cs0] 0 s))) ∧
    (s.cs = false → exec .sel s = .next (raiseFault .reentry s))

/-- 40_transport R113: `DESEL`, in or out of a window, drives `CS` to 1 and records `CS1` and `DESEL`; its one fault is
`TransportFailure`. -/
def Obligations.DeselClosesWindow : Prop :=
  ∀ s : State, Ready s →
    (EnvOk s 1 → exec .desel s = .next { doneSteps [.act .cs1] s with cs := true, bt := s.bt ++ [.desel] }) ∧
    (FirstFail s 0 → exec .desel s = .next (raiseFault .transportFailure (cutSteps [.act .cs1] 0 s)))

/-- 40_transport R114: `DIROUT` switches the pin to output and records `DIRO`, whatever `DIR` and `CS` were; its one fault
is `TransportFailure`. -/
def Obligations.DiroutSwitchesToOutput : Prop :=
  ∀ s : State, Ready s →
    (EnvOk s 1 → exec .dirout s = .next { doneSteps [.act .dirO] s with dir := .output }) ∧
    (FirstFail s 0 → exec .dirout s = .next (raiseFault .transportFailure (cutSteps [.act .dirO] 0 s)))

/-- 40_transport R115: `DIRIN` switches the pin to input and records `DIRI`, whatever `DIR` and `CS` were; its one fault
is `TransportFailure`. -/
def Obligations.DirinSwitchesToInput : Prop :=
  ∀ s : State, Ready s →
    (EnvOk s 1 → exec .dirin s = .next { doneSteps [.act .dirI] s with dir := .input }) ∧
    (FirstFail s 0 → exec .dirin s = .next (raiseFault .transportFailure (cutSteps [.act .dirI] 0 s)))

/-- 40_transport R118: in a window with the pin an output, `SHOUT b` records `D<b[i]>`, `CKA`, `CKI` for `i` from 7 down
to 0 and then `OUT(b)`; `SR` is 0x00, `DOUT` is `b[0]`, `CLK` is idle. It faults `NotSelected` outside a window,
`DirViolation` with the pin an input, and `TransportFailure` at any of its 24 events, then with no `OUT`. -/
def Obligations.ShoutShiftsByteOut : Prop :=
  ∀ (b : Byte) (s : State), Ready s →
    (s.cs = true → exec (.shout b) s = .next (raiseFault .notSelected s)) ∧
    (s.cs = false → s.dir = .input → exec (.shout b) s = .next (raiseFault .dirViolation s)) ∧
    (s.cs = false → s.dir = .output → EnvOk s 24 → exec (.shout b) s = .next { doneSteps (byteOutSteps b) s with
      sr := some 0, dout := b.getLsbD 0, clk := Config.clkIdle, bt := s.bt ++ [.out b] }) ∧
    (s.cs = false → s.dir = .output → ∀ k < 24, FirstFail s k →
      ∃ t, exec (.shout b) s = .next t ∧ t.fault = 1 ∧ t.bt = s.bt ++ [.desel])

/-- 40_transport R119: in a window with the pin an input, `SHIN` records eight times `CKA`, `CKI`, `S<s>` and then
`IN(SR)`; `SR` holds the sampled byte, the first bit in `SR[7]`; `CLK` is idle; `RXW` is not written. It faults
`NotSelected` outside a window, `DirViolation` with the pin an output, and `TransportFailure` at any of its 24 events. -/
def Obligations.ShinShiftsByteIn : Prop :=
  ∀ s : State, Ready s →
    (s.cs = true → exec .shin s = .next (raiseFault .notSelected s)) ∧
    (s.cs = false → s.dir = .output → exec .shin s = .next (raiseFault .dirViolation s)) ∧
    (s.cs = false → s.dir = .input → EnvOk s 24 → exec .shin s = .next { doneSteps byteInSteps s with
      sr := some (byteAt s 0), clk := Config.clkIdle, bt := s.bt ++ [.inp (byteAt s 0)] }) ∧
    (s.cs = false → s.dir = .input → ∀ k < 24, FirstFail s k →
      ∃ t, exec .shin s = .next t ∧ t.fault = 1 ∧ t.bt = s.bt ++ [.desel])

/-- 41_protocol R141: in a window `DRAIN` switches to input and receives two bytes, high byte first, into `RXW`. It faults
`NotSelected` outside a window and `TransportFailure` at any of its 49 events; `BT` then has the bytes completed. -/
def Obligations.DrainReceivesWord : Prop :=
  ∀ s : State, Ready s →
    (s.cs = true → exec .drain s = .next (raiseFault .notSelected s)) ∧
    (s.cs = false → EnvOk s 49 →
      exec .drain s = .next { doneSteps (.act .dirI :: (byteInSteps ++ byteInSteps)) s with
        dir := .input, sr := some (byteAt s 25), rxw := some (byteAt s 1 ++ byteAt s 25), clk := Config.clkIdle
        bt := s.bt ++ [.inp (byteAt s 1), .inp (byteAt s 25)] }) ∧
    (s.cs = false → ∀ k < 49, FirstFail s k → ∃ t, exec .drain s = .next t ∧ t.fault = 1 ∧
      t.bt = s.bt ++ (if k < 25 then [] else [.inp (byteAt s 1)]) ++ [.desel])

/-- 41_protocol R142: in a window `RDREG a` sends `0x80 | a` and receives two bytes, high byte first, into `RXW`, for
every address. It faults `NotSelected` outside a window and `TransportFailure` at any of its 74 events. -/
def Obligations.RdregReadsRegister : Prop :=
  ∀ (a : RegAddr) (s : State), Ready s →
    (s.cs = true → exec (.rdreg a) s = .next (raiseFault .notSelected s)) ∧
    (s.cs = false → EnvOk s 74 →
      exec (.rdreg a) s = .next { doneSteps (.act .dirO :: byteOutSteps (0x80 ||| a.zeroExtend 8) ++
          .act .dirI :: (byteInSteps ++ byteInSteps)) s with
        dir := .input, dout := a.getLsbD 0, sr := some (byteAt s 50), rxw := some (byteAt s 26 ++ byteAt s 50)
        clk := Config.clkIdle
        bt := s.bt ++ [.out (0x80 ||| a.zeroExtend 8), .inp (byteAt s 26), .inp (byteAt s 50)] }) ∧
    (s.cs = false → ∀ k < 74, FirstFail s k → ∃ t, exec (.rdreg a) s = .next t ∧ t.fault = 1 ∧
      t.bt = s.bt ++ (if k < 25 then [] else [.out (0x80 ||| a.zeroExtend 8)]) ++
        (if k < 50 then [] else [.inp (byteAt s 26)]) ++ [.desel])

/-- 41_protocol R143: in a window `WRREG a, v` sends `a`, `v[15:8]` and `v[7:0]`, for every address and value; `RXW` is
not written. It faults `NotSelected` outside a window and `TransportFailure` at any of its 73 events. -/
def Obligations.WrregWritesRegister : Prop :=
  ∀ (a : RegAddr) (v : Word) (s : State), Ready s →
    (s.cs = true → exec (.wrreg a v) s = .next (raiseFault .notSelected s)) ∧
    (s.cs = false → EnvOk s 73 →
      exec (.wrreg a v) s = .next { doneSteps (.act .dirO :: byteOutSteps (a.zeroExtend 8) ++
          byteOutSteps (v.extractLsb' 8 8) ++ byteOutSteps (v.extractLsb' 0 8)) s with
        dir := .output, dout := v.getLsbD 0, sr := some 0, clk := Config.clkIdle
        bt := s.bt ++ [.out (a.zeroExtend 8), .out (v.extractLsb' 8 8), .out (v.extractLsb' 0 8)] }) ∧
    (s.cs = false → ∀ k < 73, FirstFail s k → ∃ t, exec (.wrreg a v) s = .next t ∧ t.fault = 1 ∧
      t.bt = s.bt ++ (if k < 25 then [] else [.out (a.zeroExtend 8)]) ++
        (if k < 49 then [] else [.out (v.extractLsb' 8 8)]) ++ [.desel])

/-- 42_decoder R168: with a word in `RXW`, `DECODE` stores in `TQ` the two's complement integer that is 128 times
`dec(RXW, 13 + RES)` and in `NEG` bit 15 of the word; no event is appended and nothing else changes. With none it faults
`Unwritten`. Both in and out of a window. -/
def Obligations.DecodeStoresTemperature : Prop :=
  ∀ s : State, Ready s →
    (∀ raw, s.rxw = some raw → ∃ q : Word, (q.toInt : Rat) = decCelsius raw (resolutionOf s.res) * 128 ∧
      exec .decode s = .next { s with tq := some q, neg := some (raw.getLsbD 15), outcome := some .done }) ∧
    (s.rxw = none → exec .decode s = .next (raiseFault .unwritten s))

/-- 42_decoder R170: `SETRES r` stores the code 0, 1, 2 for 13, 14, 15 and 3 for every other value, and nothing else. -/
def Obligations.SetresSelectsResolution : Prop :=
  ∀ (r : Word) (s : State), Ready s →
    exec (.setres r) s = .next { s with
      res := if r = 13 then 0 else if r = 14 then 1 else if r = 15 then 2 else 3
      outcome := some .done }

/-- 43_host_sequences R190: `WAIT n` appends `W(n)` to both histories and writes no register, in or out of a window. -/
def Obligations.WaitRecordsDelay : Prop :=
  ∀ (n : Word) (s : State), Ready s →
    exec (.wait n) s = .next { s with lt := s.lt ++ [.w n], bt := s.bt ++ [.w n], outcome := some .done }

/-! ### Where operations fault, and what a fault leaves -/

/-- 60_exceptions R240: fault entry. In a window `CS` goes to 1 and `CS1` and `DESEL` are recorded, without asking the
environment; outside one no event is appended; `FAULT` takes the code and `SEQ` is idle; nothing else of the block
changes. -/
def Obligations.FaultEntryDeselects : Prop :=
  ∀ (c : Cause) (s : State),
    (s.cs = false → raiseFault c s = { s with
      cs := true, lt := s.lt ++ [.cs1], bt := s.bt ++ [.desel], fault := causeCode c, seq := .idle
      outcome := some (.fault c) }) ∧
    (s.cs = true → raiseFault c s = { s with fault := causeCode c, seq := .idle, outcome := some (.fault c) })

/-- 60_exceptions R231: the codes of the six causes, none of them 0 or 7; and which operation raises each cause, in what
state. -/
def Obligations.CausesAsListed : Prop :=
  (causeCode .transportFailure = 1 ∧ causeCode .notSelected = 2 ∧ causeCode .reentry = 3 ∧
    causeCode .dirViolation = 4 ∧ causeCode .unwritten = 5 ∧ causeCode .illegalOp = 6 ∧
    ∀ c, causeCode c ≠ 0 ∧ causeCode c ≠ 7) ∧
  ∀ (i : Instr) (s t : State) (c : Cause), exec i s = .next t → t.outcome = some (.fault c) →
    t.fault = causeCode c ∧
    match c with
    | .transportFailure => ∃ k < (microSteps i).length, answerAt s k = .fail
    | .notSelected =>
      s.cs = true ∧ ((∃ b, i = .shout b) ∨ i = .shin ∨ i = .drain ∨ (∃ a, i = .rdreg a) ∨ ∃ a v, i = .wrreg a v)
    | .reentry => s.cs = false ∧ i = .sel
    | .dirViolation => (∃ b, i = .shout b) ∧ s.dir = .input ∨ i = .shin ∧ s.dir = .output
    | .unwritten => s.rxw = none ∧ i = .decode
    | .illegalOp => False

/-- 60_exceptions R236, 30_encoding R89: a word that no row of the opcode table selects is one with an unknown operation
code or a must-be-zero field that is not zero; issued to a block that takes operations it faults `IllegalOp`. -/
def Obligations.IllegalWordFaults : Prop :=
  ∀ w : OpBits, ((∀ r ∈ opTable, r.selects w = false) ↔ (cutFields w).wf = false) ∧
    ∀ s : State, Ready s → (cutFields w).wf = false → issueWord w s = .next (raiseFault .illegalOp s)

/-- 60_exceptions R242: while `FAULT != 0` every word the host issues, legal or not, changes no register, appends no
event and keeps the first cause. -/
def Obligations.FaultedBlockRefusesEveryWord : Prop :=
  ∀ (w : OpBits) (s : State), s.seq = .idle → s.fault ≠ 0 → issueWord w s = .next { s with outcome := some .refused }

/-- 60_exceptions R233: at the first micro-step that the environment answers with `fail`, an operation whose checks pass
takes the fault `TransportFailure`: exactly the events of the micro-steps before it stand in the line trace, followed by
the forced `CS1` where a window was open. -/
def Obligations.TransportFailureIsPrecise : Prop :=
  ∀ (i : Instr) (s : State) (k : Nat), Ready s → checksPass i s = true → k < (microSteps i).length → FirstFail s k →
    ∃ t, exec i s = .next t ∧ t.fault = 1 ∧ t.cs = true ∧ t.seq = .idle ∧ t.outcome = some (.fault .transportFailure) ∧
      t.lt = s.lt ++ (eventsFrom s 0 (microSteps i)).take k ++ (if s.cs then [] else [.cs1])

/-- 60_exceptions R241, on `SHOUT`: a failure at micro-step `k` leaves `SR` shifted by the completed cells, `DOUT` at the
last bit driven, `CLK` active only when the failed action is a `CKI`, everything else as fault entry finds it, and no `OUT`
in `BT`. -/
def Obligations.ShoutFailureLeavesPartialByte : Prop :=
  ∀ (b : Byte) (s : State) (k : Nat), Ready s → s.cs = false → s.dir = .output → k < 24 → FirstFail s k →
    exec (.shout b) s = .next (raiseFault .transportFailure { cutSteps (byteOutSteps b) k s with
      sr := some (b <<< (k / 3))
      dout := if k = 0 then s.dout else b.getLsbD (7 - (k - 1) / 3)
      clk := if k % 3 = 2 then !Config.clkIdle else if k < 3 then s.clk else Config.clkIdle })

/-- 60_exceptions R241, on `SHIN`, `DRAIN`, `RDREG`, `WRREG`: what a failure at micro-step `k` leaves in the registers. A byte
in, cut short, is in `SR` as its first sampled bits over zeros; a byte out as the bits not yet sent, moved up; `DIR` is as
last switched, `DOUT` the last bit driven (bit `23 - (k - 2) / 3` of the three bytes of a `WRREG`; of `RDREG`'s command byte
bit 7 down to 0), `CLK` active exactly when the failed action is a `CKI`. -/
def Obligations.FailureLeavesPartialRegisters : Prop :=
  ∀ s : State, Ready s → s.cs = false → ∀ k, FirstFail s k →
    (s.dir = .input → k < 24 → ∃ t, exec .shin s = .next t ∧ t.fault = 1 ∧ t.dir = s.dir ∧ t.dout = s.dout ∧
      t.sr = some (byteAt s 0 >>> (8 - k / 3)) ∧
      t.clk = if k % 3 = 1 then !Config.clkIdle else if k = 0 then s.clk else Config.clkIdle) ∧
    (k < 49 → ∃ t, exec .drain s = .next t ∧ t.fault = 1 ∧ t.dir = (if k = 0 then s.dir else .input) ∧
      t.dout = s.dout ∧
      t.sr = (if k = 0 then s.sr else if k < 25 then some (byteAt s 1 >>> (8 - (k - 1) / 3))
        else some (byteAt s 25 >>> (8 - (k - 25) / 3))) ∧
      t.clk = if k % 3 = 2 then !Config.clkIdle else if k ≤ 1 then s.clk else Config.clkIdle) ∧
    (∀ a : RegAddr, k < 74 → ∃ t, exec (.rdreg a) s = .next t ∧ t.fault = 1 ∧
      t.dir = (if k = 0 then s.dir else if k ≤ 25 then .output else .input) ∧
      t.dout = (if k ≤ 1 then s.dout else if k < 25 then (0x80 ||| a.zeroExtend 8).getLsbD (7 - (k - 2) / 3)
        else a.getLsbD 0) ∧
      t.sr = (if k = 0 then s.sr else if k ≤ 25 then some ((0x80 ||| a.zeroExtend 8) <<< ((k - 1) / 3))
        else if k < 50 then some (byteAt s 26 >>> (8 - (k - 26) / 3))
        else some (byteAt s 50 >>> (8 - (k - 50) / 3))) ∧
      t.clk = if k ≠ 0 ∧ k % 3 = 0 then !Config.clkIdle else if k < 3 then s.clk else Config.clkIdle) ∧
    ∀ (a : RegAddr) (v : Word), k < 73 → ∃ t, exec (.wrreg a v) s = .next t ∧ t.fault = 1 ∧
      t.dir = (if k = 0 then s.dir else .output) ∧
      t.dout = (if k ≤ 1 then s.dout else (a.zeroExtend 8 ++ v).getLsbD (23 - (k - 2) / 3)) ∧
      t.sr = (if k = 0 then s.sr else if k < 25 then some (a.zeroExtend 8 <<< ((k - 1) / 3))
        else if k < 49 then some (v.extractLsb' 8 8 <<< ((k - 25) / 3))
        else some (v.extractLsb' 0 8 <<< ((k - 49) / 3))) ∧
      t.clk = if k ≠ 0 ∧ k % 3 = 0 then !Config.clkIdle else if k < 3 then s.clk else Config.clkIdle

/-- 41_protocol R145: `RXW` is the two bytes of one whole `DRAIN` or `RDREG`, the first in the high half; a failure before
the first byte is in leaves it as it was; one between the two bytes leaves it holding no value, even if it held one. -/
def Obligations.ReceiveWordIsWholeOrNone : Prop :=
  ∀ (i : Instr) (first : Nat) (s : State), (i = .drain ∧ first = 1 ∨ (∃ a, i = .rdreg a) ∧ first = 26) →
    Ready s → s.cs = false →
    (EnvOk s (first + 48) → ∃ t, exec i s = .next t ∧ t.rxw = some (byteAt s first ++ byteAt s (first + 24))) ∧
    ∀ k < first + 48, FirstFail s k → ∃ t, exec i s = .next t ∧ t.rxw = if k < first + 24 then s.rxw else none

/-- 60_exceptions R240, 40_transport R120: whenever an operation ends in a fault the select line is high, `SEQ` is idle,
and the host is given the cause whose code `FAULT` holds. -/
def Obligations.EveryFaultEndsDeselected : Prop :=
  ∀ (i : Instr) (s t : State), exec i s = .next t → s.fault = 0 → t.fault ≠ 0 →
    t.cs = true ∧ t.seq = .idle ∧ ∃ c, t.outcome = some (.fault c) ∧ t.fault = causeCode c

/-- 70_reset_and_hazards R285, 92 D35: an operation issued while another is in progress has no move (the model's
refusal, assumption 4). -/
def Obligations.BusyBlockHasNoMove : Prop :=
  ∀ (i : Instr) (s : State), s.seq ≠ .idle → exec i s = .refused .busy

/-! ### What operations leave unchanged -/

/-- The frame of `SEL`, `DESEL`, `DIROUT`, `DIRIN` (40_transport R112 to R115): no register, `DOUT` or `CLK` changes; the
window operations leave `DIR`; the direction switches leave `CS` and `BT` unless they fault. -/
def Obligations.LineOperationsFrame : Prop :=
  ∀ (i : Instr) (s t : State), (i = .sel ∨ i = .desel ∨ i = .dirout ∨ i = .dirin) → exec i s = .next t →
    t.clk = s.clk ∧ t.dout = s.dout ∧ t.sr = s.sr ∧ t.rxw = s.rxw ∧ t.res = s.res ∧ t.tq = s.tq ∧ t.neg = s.neg ∧
    t.seq = s.seq ∧ t.cmds = s.cmds ∧ (i = .sel ∨ i = .desel → t.dir = s.dir) ∧
    (i = .dirout ∨ i = .dirin → t.fault = s.fault → t.cs = s.cs ∧ t.bt = s.bt)

/-- The frame of `SHOUT` and `SHIN` (40_transport R118, R119): `RXW`, `RES`, `TQ`, `NEG` and `DIR` never change, `CS` only
by a fault, and `SHIN` leaves `DOUT`. -/
def Obligations.ByteOperationsFrame : Prop :=
  ∀ (i : Instr) (s t : State), ((∃ b, i = .shout b) ∨ i = .shin) → exec i s = .next t →
    t.rxw = s.rxw ∧ t.res = s.res ∧ t.tq = s.tq ∧ t.neg = s.neg ∧ t.dir = s.dir ∧ t.seq = s.seq ∧ t.cmds = s.cmds ∧
    (t.fault = s.fault → t.cs = s.cs) ∧ (i = .shin → t.dout = s.dout)

/-- The frame of `DRAIN`, `RDREG`, `WRREG` (41_protocol R141 to R143): `RES`, `TQ`, `NEG` never change, `CS` only by a
fault; `WRREG` leaves `RXW` and `DRAIN` leaves `DOUT`. -/
def Obligations.WordOperationsFrame : Prop :=
  ∀ (i : Instr) (s t : State), (i = .drain ∨ (∃ a, i = .rdreg a) ∨ ∃ a v, i = .wrreg a v) → exec i s = .next t →
    t.res = s.res ∧ t.tq = s.tq ∧ t.neg = s.neg ∧ t.seq = s.seq ∧ t.cmds = s.cmds ∧
    (t.fault = s.fault → t.cs = s.cs) ∧ ((∃ a v, i = .wrreg a v) → t.rxw = s.rxw) ∧ (i = .drain → t.dout = s.dout)

/-- The frame of `DECODE`, `SETRES`, `WAIT` (42_decoder R168, R170; 43_host_sequences R190): the environment is not asked
and no line moves; `DECODE` without a fault writes `TQ` and `NEG` alone, and with one leaves every register and `DIR`,
`CLK`, `DOUT`; `SETRES` writes `RES` alone; `WAIT` only the histories. -/
def Obligations.ComputationsFrame : Prop :=
  ∀ s t : State,
    (exec .decode s = .next t →
      (t.fault = s.fault → t = { s with tq := t.tq, neg := t.neg, outcome := t.outcome }) ∧
      (t.fault ≠ s.fault → t = { s with
        cs := t.cs, fault := t.fault, lt := t.lt, bt := t.bt, outcome := t.outcome })) ∧
    (∀ r, exec (.setres r) s = .next t → t = { s with res := t.res, outcome := t.outcome }) ∧
    (∀ n, exec (.wait n) s = .next t → t = { s with lt := t.lt, bt := t.bt, outcome := t.outcome })

/-- 10_state R20, its column "written by": each element changes only by the operations listed there, `CS` and `FAULT` also
by fault entry. -/
def Obligations.EachElementHasItsWriters : Prop :=
  ∀ (i : Instr) (s t : State), exec i s = .next t →
    (t.res ≠ s.res → ∃ r, i = .setres r) ∧
    (t.tq ≠ s.tq ∨ t.neg ≠ s.neg → i = .decode) ∧
    (t.rxw ≠ s.rxw → i = .drain ∨ ∃ a, i = .rdreg a) ∧
    (t.dir ≠ s.dir → i = .dirout ∨ i = .dirin ∨ i = .drain ∨ (∃ a, i = .rdreg a) ∨ ∃ a v, i = .wrreg a v) ∧
    (t.dout ≠ s.dout → (∃ b, i = .shout b) ∨ (∃ a, i = .rdreg a) ∨ ∃ a v, i = .wrreg a v) ∧
    (t.sr ≠ s.sr ∨ t.clk ≠ s.clk →
      (∃ b, i = .shout b) ∨ i = .shin ∨ i = .drain ∨ (∃ a, i = .rdreg a) ∨ ∃ a v, i = .wrreg a v) ∧
    (t.cs ≠ s.cs → i = .sel ∨ i = .desel ∨ t.fault ≠ s.fault) ∧
    (t.fault ≠ s.fault → s.fault = 0 ∧ ∃ c, t.fault = causeCode c)

/-! ### Rules of the whole machine -/

/-- 10_state R22: only `SEL` drives `CS` to 0; `DESEL` and every fault entry drive it to 1. -/
def Obligations.SelectLineWriters : Prop :=
  ∀ (i : Instr) (s t : State), exec i s = .next t →
    (s.cs = true → t.cs = false → i = .sel) ∧ (i = .desel → s.fault = 0 → t.cs = true) ∧
    (t.fault ≠ s.fault → t.cs = true)

/-- 10_state R32: `FAULT` is 0 after reset; a step writes it once, with the code of the fault it gives back; from then on
every word is refused and only a reset clears it. -/
def Obligations.FaultIsSticky : Prop :=
  State.reset.fault = 0 ∧
  (∀ s t : State, step s = .next t → s.fault = 0 →
    t.fault = 0 ∨ ∃ c, t.fault = causeCode c ∧ t.outcome = some (.fault c)) ∧
  (∀ s t : State, step s = .next t → s.fault ≠ 0 → t.fault = s.fault ∨ ∃ rest, s.cmds = .reset :: rest) ∧
  ∀ (s : State) (w : OpBits) (rest : List HostCmd), s.fault ≠ 0 → s.seq = .idle → s.cmds = .issue w :: rest →
    step s = .next { s with cmds := rest, outcome := some .refused }

/-- 00_scope R8, 20_memory R59: an operation only appends to the two histories, and asks the environment at most 74 times
(60_exceptions R245). -/
def Obligations.HistoriesOnlyGrow : Prop :=
  ∀ (i : Instr) (s t : State), exec i s = .next t →
    s.lt <+: t.lt ∧ s.bt <+: t.bt ∧ s.asked ≤ t.asked ∧ t.asked ≤ s.asked + 74

/-- 70_reset_and_hazards R282: the counts of line events of a completed operation. -/
def Obligations.EventCountsAsListed : Prop :=
  ∀ (i : Instr) (s : State), Ready s → checksPass i s = true → EnvOk s (microSteps i).length →
    ∃ t, exec i s = .next t ∧ t.outcome = some .done ∧ t.lt.length = s.lt.length +
      (match i with
        | .shout _ => 24 | .shin => 24 | .drain => 49 | .rdreg _ => 74 | .wrreg _ _ => 73
        | .decode => 0 | .setres _ => 0 | .sel => 1 | .desel => 1 | .dirout => 1 | .dirin => 1 | .wait _ => 1)

/-- 40_transport R121: in the events of every write cell, those of a `SHOUT`, of a `WRREG` and of the first 25 of a `RDREG`,
completed or cut short by a fault, a clock event `CKA` is preceded by the data event of its cell and a `CKI` by that `CKA`. -/
def Obligations.DataBeforeClock : Prop :=
  ∀ (i : Instr) (s t : State) (es : List LineEvent) (j : Nat),
    ((∃ b, i = .shout b) ∨ (∃ a v, i = .wrreg a v) ∨ (∃ a, i = .rdreg a) ∧ j < 25) →
    exec i s = .next t → t.lt = s.lt ++ es →
      (es[j]? = some .ckA → 1 ≤ j ∧ ∃ d, es[j - 1]? = some (.d d)) ∧
      (es[j]? = some .ckI → 2 ≤ j ∧ es[j - 1]? = some .ckA ∧ ∃ d, es[j - 2]? = some (.d d))

/-- 20_memory R65, R63: no word is ruled out by the block: in a window, for every word there are answers of the
environment under which `DRAIN` receives it and no fault is taken. -/
def Obligations.AnyWordMayBeReceived : Prop :=
  ∀ (w : Word) (s : State), Ready s → s.cs = false →
    ∃ answers t, exec .drain { s with env := answers } = .next t ∧ t.fault = 0 ∧ t.rxw = some w

/-- The invariant of the block, kept by every step: `SEQ` idle between operations; with no fault the clock rests (10_state
R23); with a fault the line is deselected (60_exceptions R240); `FAULT` is never 7 (10_state R33); `TQ` and `NEG` hold
values together; and the lines and the windows are where the line trace says (00_scope R8). -/
def Obligations.StepKeepsBlockInvariant : Prop :=
  ∀ s t : State, BlockInv s → step s = .next t → BlockInv t

/-- The invariant holds at reset. -/
def Obligations.ResetMeetsBlockInvariant : Prop := BlockInv State.reset

/-- 10_state R36: the values after reset. -/
def Obligations.ResetValuesAsListed : Prop :=
  State.reset.cs = true ∧ State.reset.clk = Config.clkIdle ∧ State.reset.dir = .input ∧ State.reset.dout = false ∧
  State.reset.sr = none ∧ State.reset.rxw = none ∧ State.reset.tq = none ∧ State.reset.neg = none ∧
  State.reset.res = (match Config.resDefault with | .r13 => 0 | .r14 => 1 | .r15 => 2 | .r16 => 3) ∧
  State.reset.fault = 0 ∧ State.reset.seq = .idle ∧ State.reset.lt = [] ∧ State.reset.bt = []

/-! ### Issuing words -/

/-- A step runs the decoded operation: the host's next word, if it decodes to `i`, is taken off the list and `exec i` is
the step; and a word placed for the next step is run on the state it was placed in. -/
def Obligations.StepRunsIssuedOperation : Prop :=
  (∀ (s : State) (w : OpBits) (rest : List HostCmd) (i : Instr), s.cmds = .issue w :: rest → decode w = .ok i →
    step s = exec i { s with cmds := rest }) ∧
  (∀ (s : State) (nbits w : Nat) (i : Instr), decodeTableWord nbits w = some i →
    step (s.withFetchWord nbits w) = exec i s)

/-- 70_reset_and_hazards R260, R261: a reset between operations sets every element to its reset value and empties the
histories, whatever the state and the fault; the host's list goes on and the environment is left alone. -/
def Obligations.ResetCommandResetsBlock : Prop :=
  ∀ (s : State) (rest : List HostCmd), s.cmds = .reset :: rest → s.seq = .idle →
    step s = .next { State.reset with cmds := rest, env := s.env, asked := s.asked }

/-- 70_reset_and_hazards R283: with nothing issued the block stays as it is (the model's reading, assumption 2). -/
def Obligations.IdleHostLeavesBlockAlone : Prop := ∀ s : State, s.cmds = [] → step s = .next s

/-- 30_encoding R88: decoding an encoded operation gives it back, with every operand at every value. -/
def Obligations.DecodeOfEncode : Prop := ∀ i : Instr, decode (encode i) = .ok i

/-- 30_encoding R87, R89: a word that decodes is the word of what it decodes to: no bit of it is ignored. -/
def Obligations.EncodeOfDecode : Prop := ∀ (w : OpBits) (i : Instr), decode w = .ok i → encode i = w

/-- 30_encoding R88: a word decodes to an operation exactly when the table's row of that mnemonic selects it, no word is
selected by two rows, and the operands are the fields the table names. -/
def Obligations.DecoderFollowsTable : Prop :=
  ∀ w : OpBits,
    (∀ r ∈ opTable, r.selects w = true ↔ ∃ i, decode w = .ok i ∧ mnemonicOf i = r.mnemonic) ∧
    (∀ r ∈ opTable, ∀ q ∈ opTable, r.selects w = true → q.selects w = true → r = q) ∧
    (∀ b, decode w = .ok (.shout b) → b = w.extractLsb' 0 8) ∧
    (∀ a, decode w = .ok (.rdreg a) → a = w.extractLsb' 16 7) ∧
    (∀ a v, decode w = .ok (.wrreg a v) → a = w.extractLsb' 16 7 ∧ v = w.extractLsb' 0 16) ∧
    (∀ v, decode w = .ok (.setres v) ∨ decode w = .ok (.wait v) → v = w.extractLsb' 0 16)

/-- 95_test_vectors 2.6: words of the spec decode to the operations they stand for, and words it lists as illegal are
rejected. -/
def Obligations.ListedWordsDecode : Prop :=
  decode 0x10000000 = .ok .sel ∧ decode 0x50000081 = .ok (.shout 0x81) ∧ decode 0x807F0000 = .ok (.rdreg 0x7F) ∧
  decode 0x90021234 = .ok (.wrreg 0x2 0x1234) ∧ decode 0xA0000000 = .ok .decode ∧
  decode 0xB000FFFF = .ok (.setres 65535) ∧ decode 0xC0000064 = .ok (.wait 100) ∧
  decode 0x00000000 = .error .unknownOpc ∧ decode 0x50000181 = .error .vNotZero ∧
  decode 0x80810000 = .error .zNotZero ∧ decode 0x70010000 = .error .aNotZero

/-! ### The decoder -/

/-- 42_decoder R161, R162: the constants of each resolution in their closed forms, its `RES` code, and
`fullScale * step = 256`. -/
def Obligations.DecoderConstantsAsListed : Prop :=
  ∀ r : Resolution,
    (resCode (resBits r)).toNat = resBits r - 13 ∧ resolutionOf (resCode (resBits r)) = r ∧
    decoderShift r = 16 - resBits r ∧ fullScale r = 2 ^ (resBits r - 1) ∧ stepCelsius r = 1 / 2 ^ (resBits r - 9) ∧
    (fullScale r : Rat) * stepCelsius r = 256

/-- 42_decoder R164: the threshold test is bit 15; the decoder reads the word as a sign bit and a magnitude: the low 15 bits
with their lowest `s = 16 - r` bits cleared, in units of 1/128 °C, negative when bit 15 is set. -/
def Obligations.DecodeIsSignAndMagnitude : Prop :=
  ∀ (raw : Word) (r : Resolution),
    (fullScale r ≤ raw.toNat / 2 ^ (16 - resBits r) ↔ raw.getLsbD 15 = true) ∧
    let m : Nat := raw.toNat % 2 ^ 15 / 2 ^ (16 - resBits r) * 2 ^ (16 - resBits r)
    decCelsius raw r = if raw.getLsbD 15 then -((m : Rat) / 128) else (m : Rat) / 128

/-- 42_decoder R165: the range, the two words that decode to zero, the words of the extremes, and that the bits below the
resolution do not matter. -/
def Obligations.DecodeRange : Prop :=
  ∀ (raw : Word) (r : Resolution),
    -(256 - stepCelsius r) ≤ decCelsius raw r ∧ decCelsius raw r ≤ 256 - stepCelsius r ∧
    decCelsius 0x0000 r = 0 ∧ decCelsius 0x8000 r = 0 ∧ negFlag 0x8000 = true ∧
    decCelsius 0x7FFF r = 256 - stepCelsius r ∧ decCelsius 0xFFFF r = -(256 - stepCelsius r) ∧
    ∀ other : Word, other.toNat / 2 ^ (16 - resBits r) = raw.toNat / 2 ^ (16 - resBits r) →
      decCelsius other r = decCelsius raw r

/-- 42_decoder R171: a decode after `SETRES r` uses the resolution just selected: the stored count is the one at that
resolution, whatever was decoded or selected before. -/
def Obligations.DecodeUsesSelectedResolution : Prop :=
  ∀ (r raw : Word) (s : State), Ready s → s.rxw = some raw →
    ∃ t u, exec (.setres r) s = .next t ∧ exec .decode t = .next u ∧
      u.tq = some (BitVec.ofInt 16 (decUnits raw
        (if r = 13 then .r13 else if r = 14 then .r14 else if r = 15 then .r15 else .r16)))

/-! ### Host computations and sequences -/

/-- 43_host_sequences R200: the value `CHANGERES` writes keeps bits 15:6 of the value read, has the resolution's code in
bits 5:4, and has bits 3:0 clear. -/
def Obligations.ChangeResMaskQuirk : Prop :=
  ∀ (c r : Word) (k : Nat), k < 16 →
    (changeResValue c r).getLsbD k =
      if 6 ≤ k then c.getLsbD k else if 4 ≤ k then (resCode r.toNat).getLsbD (k - 4) else false

/-- 00_scope R6: the shutdown and the one-shot mask have one bit set each, different ones, neither in bits 5:4; so
`ONESHOT` enabled and then disabled changes no other bit (43_host_sequences R201). -/
def Obligations.OneShotMovesTwoBits : Prop :=
  ∃ sd os : Nat, sd < 16 ∧ os < 16 ∧ sd ≠ os ∧ sd ≠ 4 ∧ sd ≠ 5 ∧ os ≠ 4 ∧ os ≠ 5 ∧
    Config.sdMask = BitVec.twoPow 16 sd ∧ Config.osMask = BitVec.twoPow 16 os ∧
    ∀ (e : Bool) (c : Word) (k : Nat), k < 16 →
      (oneShotValue e c).getLsbD k = if k = sd ∨ k = os then e else c.getLsbD k

/-- 43_host_sequences R205, R206: for the non-negative multiples of 0.25 below 256, which the trip encoding represents
exactly, decoding the encoded word gives sixteen times the temperature. -/
def Obligations.TripCodecScalesBySixteen : Prop :=
  ∀ n : Nat, n < 1024 → ∃ w : Word, tripEncode ((n : Rat) / 4) = some w ∧ tripDecode w = 16 * ((n : Rat) / 4)

/-- 43_host_sequences R194: `TEMPREAD` from outside a window ends well and returns `dec(sample, 13 + RES)` for the 16 bits
the environment supplied. One that fails at any of its 51 events ends there (R191), deselected (60_exceptions R240); that it
then returns nothing, whatever `TQ` held, is the model's choice (assumption 14), for R194 is silent there. -/
def Obligations.TempReadDecodesSample : Prop :=
  ∀ s : State, Ready s → s.cs = true →
    (EnvOk s 51 → ∃ t,
      seqTempRead s = (.next t, some (decCelsius (byteAt s 2 ++ byteAt s 26) (resolutionOf s.res))) ∧ goodEnd t ∧
      t.bt = s.bt ++ [.sel, .inp (byteAt s 2), .inp (byteAt s 26), .desel]) ∧
    ∀ k < 51, FirstFail s k → ∃ t, seqTempRead s = (.next t, none) ∧ t.fault = 1 ∧ t.cs = true

/-- 43_host_sequences R210: `TEMPF` returns the temperature that `TEMPREAD` reads (R194), converted by
`F = 9 * C / 5 + 32`, for all temperatures, negative ones too. That it returns nothing where the reading fails (R191) is the
model's choice (assumption 14), for R210 is silent there. -/
def Obligations.TempFConvertsReading : Prop :=
  ∀ s : State, Ready s → s.cs = true →
    (EnvOk s 51 → ∃ t, goodEnd t ∧
      seqTempF s = (.next t, some (9 * decCelsius (byteAt s 2 ++ byteAt s 26) (resolutionOf s.res) / 5 + 32))) ∧
    ∀ k < 51, FirstFail s k → (seqTempF s).2 = none

/-- 43_host_sequences R195: `REGREAD a` ends well, returns the register's word and leaves it in `RXW`, and the byte transcript
is the drain, the command byte and the two bytes in one window. -/
def Obligations.RegReadReturnsWord : Prop :=
  ∀ (a : RegAddr) (s : State), Ready s → s.cs = true → EnvOk s 125 →
    ∃ t, seqRegRead a s = (.next t, some (byteAt s 76 ++ byteAt s 100)) ∧ goodEnd t ∧
      t.rxw = some (byteAt s 76 ++ byteAt s 100) ∧ t.bt = s.bt ++ readWindow s 0 a

/-- 43_host_sequences R196: `REGWRITE a, v` ends well with the drained sample in `RXW`, and the byte transcript is the
drain, the command byte and the two bytes out in one window. -/
def Obligations.RegWriteSendsWord : Prop :=
  ∀ (a : RegAddr) (v : Word) (s : State), Ready s → s.cs = true → EnvOk s 124 →
    ∃ t, seqRegWrite a v s = .next t ∧ goodEnd t ∧ t.rxw = some (byteAt s 2 ++ byteAt s 26) ∧
      t.bt = s.bt ++ writeWindow s 0 a v

/-- 43_host_sequences R199: `CHANGERES r` reads Control, writes the value derived from that read in a window of its own,
and then selects the resolution in the block: if it faults at any event before, `RES` keeps its old value. -/
def Obligations.ChangeResWritesThenSelects : Prop :=
  ∀ (r : Word) (s : State), Ready s → s.cs = true →
    (EnvOk s 249 →
      let v := changeResValue (byteAt s 76 ++ byteAt s 100) r
      ∃ t, seqChangeRes r s = .next t ∧ goodEnd t ∧ t.res = resCode r.toNat ∧
        t.bt = s.bt ++ readWindow s 0 0x1 ++ writeWindow s 125 0x1 v) ∧
    ∀ k < 249, FirstFail s k → ∃ t, seqChangeRes r s = .next t ∧ t.fault = 1 ∧ t.cs = true ∧ t.res = s.res

/-- 43_host_sequences R197: `RESETSENSOR` performs exactly: drain, read Control, drain, write with the shutdown bit set,
delay, drain, write with it clear, delay; both writes are derived from the one read, and `RES` is unchanged. -/
def Obligations.ResetSensorSequence : Prop :=
  ∀ s : State, Ready s → s.cs = true → EnvOk s 373 →
    let c : Word := byteAt s 76 ++ byteAt s 100
    let v := c ||| Config.sdMask
    let u := c &&& ~~~ Config.sdMask
    ∃ t, seqResetSensor s = .next t ∧ goodEnd t ∧ t.res = s.res ∧
      t.bt = s.bt ++ readWindow s 0 0x1 ++ writeWindow s 125 0x1 v ++ [.w 100] ++ writeWindow s 249 0x1 u ++
        [.w 100]

/-- 43_host_sequences R201: `ONESHOT e` reads Control and writes the value derived from that read: both bits set when
enabling, both clear when disabling, in a window of its own; `RES` is unchanged. -/
def Obligations.OneShotReadsThenWrites : Prop :=
  ∀ (e : Bool) (s : State), Ready s → s.cs = true → EnvOk s 249 →
    let c : Word := byteAt s 76 ++ byteAt s 100
    let v := if e then c ||| Config.sdMask ||| Config.osMask else c &&& ~~~ (Config.sdMask ||| Config.osMask)
    ∃ t, seqOneShot e s = .next t ∧ goodEnd t ∧ t.res = s.res ∧
      t.bt = s.bt ++ readWindow s 0 0x1 ++ writeWindow s 125 0x1 v

/-- 43_host_sequences R207: `SETTRIP lo, hi` writes the encoded low threshold to TripLow, 0x3, and then the high one to
TripHigh, 0x2, without a read; it is refused when a threshold has no encoding (R205). -/
def Obligations.SetTripWritesLowThenHigh : Prop :=
  ∀ (lo hi : Rat) (s : State),
    (tripEncode lo = none ∨ tripEncode hi = none → seqSetTrip lo hi s = none) ∧
    ∀ l h, tripEncode lo = some l → tripEncode hi = some h → Ready s → s.cs = true → EnvOk s 248 →
      ∃ t, seqSetTrip lo hi s = some (.next t) ∧ goodEnd t ∧
        t.bt = s.bt ++ writeWindow s 0 0x3 l ++ writeWindow s 124 0x2 h

/-- 43_host_sequences R208: `GETTRIP` reads TripLow, 0x3, and then TripHigh, 0x2, and gives the two decoded values, low
first. -/
def Obligations.GetTripReadsLowThenHigh : Prop :=
  ∀ s : State, Ready s → s.cs = true → EnvOk s 250 →
    ∃ t, seqGetTrip s = (.next t, some (tripDecode (byteAt s 76 ++ byteAt s 100),
        tripDecode (byteAt s 201 ++ byteAt s 225))) ∧ goodEnd t ∧
      t.bt = s.bt ++ readWindow s 0 0x3 ++ readWindow s 125 0x2

/-- 70_reset_and_hazards R276, R272, R273; 40_transport R120: a host that keeps the shape of the windows ends with the
select line high, whatever the environment answers, and never meets `NotSelected`, `Reentry`, `DirViolation` or
`IllegalOp`. -/
def Obligations.KeptWindowsEndDeselected : Prop :=
  ∀ (ops : List Instr) (s t : State), windowsKept .closed ops = true → Ready s → s.cs = true →
    runOps ops s = .next t → t.cs = true ∧ (t.fault = 0 ∨ t.fault = 1 ∨ t.fault = 5)
end

