-- ==== Sys2Proof/Laws/Encoding.lean ====
section
/-! SUPPORT. The fields of a word and the word of its fields are inverse to each other (30_encoding R87); when fields have
no error (R89). -/

namespace Sys2Proof

/-- The fields of the word that fields make up are those fields. -/
theorem cut_join (f : OpFields) : cutFields (joinFields f) = f := by
  obtain ⟨opc, z, a, v⟩ := f
  simp only [cutFields, joinFields, OpFields.mk.injEq]
  refine ⟨?_, ?_, ?_, ?_⟩ <;> apply BitVec.eq_of_getLsbD_eq <;> intro i hi <;>
    rw [BitVec.getLsbD_extractLsb'] <;> simp only [BitVec.getLsbD_append]
  · rw [if_neg (by omega)]; simp [hi]
  · rw [if_pos (by omega), if_neg (by omega)]; simp [hi]
  · rw [if_pos (by omega), if_pos (by omega), if_neg (by omega)]; simp [hi]
  · rw [if_pos (by omega), if_pos (by omega), if_pos (by omega)]; simp [hi]

/-- The word that the fields of a word make up is that word. -/
theorem join_cut (w : OpBits) : joinFields (cutFields w) = w := by
  apply BitVec.eq_of_getLsbD_eq
  intro i hi
  simp only [cutFields, joinFields, BitVec.getLsbD_append, BitVec.getLsbD_extractLsb']
  split_ifs with h1 h2 h3
  · simp [h3]
  · rw [show 16 + (i - 16) = i by omega, decide_eq_true (by omega : i - 16 < 7), Bool.true_and]
  · rw [show 23 + (i - (7 + 16)) = i by omega, decide_eq_true (by omega : i - (7 + 16) < 5), Bool.true_and]
  · rw [show 28 + (i - (5 + (7 + 16))) = i by omega, decide_eq_true (by omega : i - (5 + (7 + 16)) < 4), Bool.true_and]

/-- Fields have no error exactly when the four checks pass (30_encoding R87, R89). -/
theorem error_eq_none (f : OpFields) :
    f.error = none ↔ knownOpc f.opc = true ∧ f.z = 0 ∧ (takesAddr f.opc = true ∨ f.a = 0) ∧
      f.v.toNat < 2 ^ immediateBits f.opc := by
  unfold OpFields.error
  by_cases h1 : knownOpc f.opc = true <;> by_cases h2 : f.z = 0 <;> by_cases h3 : takesAddr f.opc = true <;>
    by_cases h4 : f.a = 0 <;> by_cases h5 : f.v.toNat < 2 ^ immediateBits f.opc <;> simp_all

end Sys2Proof
end

