-- ==== Sys2Proof/Laws/State.lean ====
section
/-! SUPPORT. What each named update of the state does to each field, and the sequencer position. -/

namespace Sys2Proof.Machine

/-! ### Asking the environment -/

@[simp] theorem consulted_cs (s : State) : (consulted s).cs = s.cs := rfl
@[simp] theorem consulted_clk (s : State) : (consulted s).clk = s.clk := rfl
@[simp] theorem consulted_dir (s : State) : (consulted s).dir = s.dir := rfl
@[simp] theorem consulted_dout (s : State) : (consulted s).dout = s.dout := rfl
@[simp] theorem consulted_sr (s : State) : (consulted s).sr = s.sr := rfl
@[simp] theorem consulted_rxw (s : State) : (consulted s).rxw = s.rxw := rfl
@[simp] theorem consulted_res (s : State) : (consulted s).res = s.res := rfl
@[simp] theorem consulted_tq (s : State) : (consulted s).tq = s.tq := rfl
@[simp] theorem consulted_neg (s : State) : (consulted s).neg = s.neg := rfl
@[simp] theorem consulted_fault (s : State) : (consulted s).fault = s.fault := rfl
@[simp] theorem consulted_seq (s : State) : (consulted s).seq = s.seq := rfl
@[simp] theorem consulted_lt (s : State) : (consulted s).lt = s.lt := rfl
@[simp] theorem consulted_bt (s : State) : (consulted s).bt = s.bt := rfl
@[simp] theorem consulted_outcome (s : State) : (consulted s).outcome = s.outcome := rfl
@[simp] theorem consulted_cmds (s : State) : (consulted s).cmds = s.cmds := rfl
@[simp] theorem consulted_env (s : State) : (consulted s).env = s.env.drop 1 := rfl
@[simp] theorem consulted_asked (s : State) : (consulted s).asked = s.asked + 1 := rfl

/-! ### A line event -/

@[simp] theorem lineEvent_cs (e : LineEvent) (s : State) : (lineEvent e s).cs = s.cs := rfl
@[simp] theorem lineEvent_clk (e : LineEvent) (s : State) : (lineEvent e s).clk = s.clk := rfl
@[simp] theorem lineEvent_dir (e : LineEvent) (s : State) : (lineEvent e s).dir = s.dir := rfl
@[simp] theorem lineEvent_dout (e : LineEvent) (s : State) : (lineEvent e s).dout = s.dout := rfl
@[simp] theorem lineEvent_sr (e : LineEvent) (s : State) : (lineEvent e s).sr = s.sr := rfl
@[simp] theorem lineEvent_rxw (e : LineEvent) (s : State) : (lineEvent e s).rxw = s.rxw := rfl
@[simp] theorem lineEvent_res (e : LineEvent) (s : State) : (lineEvent e s).res = s.res := rfl
@[simp] theorem lineEvent_tq (e : LineEvent) (s : State) : (lineEvent e s).tq = s.tq := rfl
@[simp] theorem lineEvent_neg (e : LineEvent) (s : State) : (lineEvent e s).neg = s.neg := rfl
@[simp] theorem lineEvent_fault (e : LineEvent) (s : State) : (lineEvent e s).fault = s.fault := rfl
@[simp] theorem lineEvent_seq (e : LineEvent) (s : State) : (lineEvent e s).seq = nextEvent s.seq := rfl
@[simp] theorem lineEvent_lt (e : LineEvent) (s : State) : (lineEvent e s).lt = s.lt ++ [e] := rfl
@[simp] theorem lineEvent_bt (e : LineEvent) (s : State) : (lineEvent e s).bt = s.bt := rfl
@[simp] theorem lineEvent_outcome (e : LineEvent) (s : State) : (lineEvent e s).outcome = s.outcome := rfl
@[simp] theorem lineEvent_cmds (e : LineEvent) (s : State) : (lineEvent e s).cmds = s.cmds := rfl
@[simp] theorem lineEvent_env (e : LineEvent) (s : State) : (lineEvent e s).env = s.env := rfl
@[simp] theorem lineEvent_asked (e : LineEvent) (s : State) : (lineEvent e s).asked = s.asked := rfl

/-! ### A byte event -/

@[simp] theorem byteEvent_cs (e : ByteEvent) (s : State) : (byteEvent e s).cs = s.cs := rfl
@[simp] theorem byteEvent_clk (e : ByteEvent) (s : State) : (byteEvent e s).clk = s.clk := rfl
@[simp] theorem byteEvent_dir (e : ByteEvent) (s : State) : (byteEvent e s).dir = s.dir := rfl
@[simp] theorem byteEvent_dout (e : ByteEvent) (s : State) : (byteEvent e s).dout = s.dout := rfl
@[simp] theorem byteEvent_sr (e : ByteEvent) (s : State) : (byteEvent e s).sr = s.sr := rfl
@[simp] theorem byteEvent_rxw (e : ByteEvent) (s : State) : (byteEvent e s).rxw = s.rxw := rfl
@[simp] theorem byteEvent_res (e : ByteEvent) (s : State) : (byteEvent e s).res = s.res := rfl
@[simp] theorem byteEvent_tq (e : ByteEvent) (s : State) : (byteEvent e s).tq = s.tq := rfl
@[simp] theorem byteEvent_neg (e : ByteEvent) (s : State) : (byteEvent e s).neg = s.neg := rfl
@[simp] theorem byteEvent_fault (e : ByteEvent) (s : State) : (byteEvent e s).fault = s.fault := rfl
@[simp] theorem byteEvent_seq (e : ByteEvent) (s : State) : (byteEvent e s).seq = s.seq := rfl
@[simp] theorem byteEvent_lt (e : ByteEvent) (s : State) : (byteEvent e s).lt = s.lt := rfl
@[simp] theorem byteEvent_bt (e : ByteEvent) (s : State) : (byteEvent e s).bt = s.bt ++ [e] := rfl
@[simp] theorem byteEvent_outcome (e : ByteEvent) (s : State) : (byteEvent e s).outcome = s.outcome := rfl
@[simp] theorem byteEvent_cmds (e : ByteEvent) (s : State) : (byteEvent e s).cmds = s.cmds := rfl
@[simp] theorem byteEvent_env (e : ByteEvent) (s : State) : (byteEvent e s).env = s.env := rfl
@[simp] theorem byteEvent_asked (e : ByteEvent) (s : State) : (byteEvent e s).asked = s.asked := rfl

/-! ### A refused operation -/

@[simp] theorem refuseOp_cs (s : State) : (refuseOp s).cs = s.cs := rfl
@[simp] theorem refuseOp_clk (s : State) : (refuseOp s).clk = s.clk := rfl
@[simp] theorem refuseOp_dir (s : State) : (refuseOp s).dir = s.dir := rfl
@[simp] theorem refuseOp_dout (s : State) : (refuseOp s).dout = s.dout := rfl
@[simp] theorem refuseOp_sr (s : State) : (refuseOp s).sr = s.sr := rfl
@[simp] theorem refuseOp_rxw (s : State) : (refuseOp s).rxw = s.rxw := rfl
@[simp] theorem refuseOp_res (s : State) : (refuseOp s).res = s.res := rfl
@[simp] theorem refuseOp_tq (s : State) : (refuseOp s).tq = s.tq := rfl
@[simp] theorem refuseOp_neg (s : State) : (refuseOp s).neg = s.neg := rfl
@[simp] theorem refuseOp_fault (s : State) : (refuseOp s).fault = s.fault := rfl
@[simp] theorem refuseOp_seq (s : State) : (refuseOp s).seq = s.seq := rfl
@[simp] theorem refuseOp_lt (s : State) : (refuseOp s).lt = s.lt := rfl
@[simp] theorem refuseOp_bt (s : State) : (refuseOp s).bt = s.bt := rfl
@[simp] theorem refuseOp_outcome (s : State) : (refuseOp s).outcome = some .refused := rfl
@[simp] theorem refuseOp_cmds (s : State) : (refuseOp s).cmds = s.cmds := rfl
@[simp] theorem refuseOp_env (s : State) : (refuseOp s).env = s.env := rfl
@[simp] theorem refuseOp_asked (s : State) : (refuseOp s).asked = s.asked := rfl

/-! ### The forced deassert (60_exceptions R240) -/

@[simp] theorem forceDeassert_cs (s : State) : (forceDeassert s).cs = true := by unfold forceDeassert; split <;> simp_all
@[simp] theorem forceDeassert_clk (s : State) : (forceDeassert s).clk = s.clk := by unfold forceDeassert; split <;> simp_all
@[simp] theorem forceDeassert_dir (s : State) : (forceDeassert s).dir = s.dir := by unfold forceDeassert; split <;> simp_all
@[simp] theorem forceDeassert_dout (s : State) : (forceDeassert s).dout = s.dout := by unfold forceDeassert; split <;> simp_all
@[simp] theorem forceDeassert_sr (s : State) : (forceDeassert s).sr = s.sr := by unfold forceDeassert; split <;> simp_all
@[simp] theorem forceDeassert_rxw (s : State) : (forceDeassert s).rxw = s.rxw := by unfold forceDeassert; split <;> simp_all
@[simp] theorem forceDeassert_res (s : State) : (forceDeassert s).res = s.res := by unfold forceDeassert; split <;> simp_all
@[simp] theorem forceDeassert_tq (s : State) : (forceDeassert s).tq = s.tq := by unfold forceDeassert; split <;> simp_all
@[simp] theorem forceDeassert_neg (s : State) : (forceDeassert s).neg = s.neg := by unfold forceDeassert; split <;> simp_all
@[simp] theorem forceDeassert_fault (s : State) : (forceDeassert s).fault = s.fault := by unfold forceDeassert; split <;> simp_all
@[simp] theorem forceDeassert_seq (s : State) : (forceDeassert s).seq = s.seq := by unfold forceDeassert; split <;> simp_all
@[simp] theorem forceDeassert_lt (s : State) : (forceDeassert s).lt = if s.cs then s.lt else s.lt ++ [.cs1] := by unfold forceDeassert; split <;> simp_all
@[simp] theorem forceDeassert_bt (s : State) : (forceDeassert s).bt = if s.cs then s.bt else s.bt ++ [.desel] := by unfold forceDeassert; split <;> simp_all
@[simp] theorem forceDeassert_outcome (s : State) : (forceDeassert s).outcome = s.outcome := by unfold forceDeassert; split <;> simp_all
@[simp] theorem forceDeassert_cmds (s : State) : (forceDeassert s).cmds = s.cmds := by unfold forceDeassert; split <;> simp_all
@[simp] theorem forceDeassert_env (s : State) : (forceDeassert s).env = s.env := by unfold forceDeassert; split <;> simp_all
@[simp] theorem forceDeassert_asked (s : State) : (forceDeassert s).asked = s.asked := by unfold forceDeassert; split <;> simp_all

/-! ### Fault entry (60_exceptions R240, R241) -/

@[simp] theorem raiseFault_cs (c : Cause) (s : State) : (raiseFault c s).cs = true := forceDeassert_cs s
@[simp] theorem raiseFault_clk (c : Cause) (s : State) : (raiseFault c s).clk = s.clk := forceDeassert_clk s
@[simp] theorem raiseFault_dir (c : Cause) (s : State) : (raiseFault c s).dir = s.dir := forceDeassert_dir s
@[simp] theorem raiseFault_dout (c : Cause) (s : State) : (raiseFault c s).dout = s.dout := forceDeassert_dout s
@[simp] theorem raiseFault_sr (c : Cause) (s : State) : (raiseFault c s).sr = s.sr := forceDeassert_sr s
@[simp] theorem raiseFault_rxw (c : Cause) (s : State) : (raiseFault c s).rxw = s.rxw := forceDeassert_rxw s
@[simp] theorem raiseFault_res (c : Cause) (s : State) : (raiseFault c s).res = s.res := forceDeassert_res s
@[simp] theorem raiseFault_tq (c : Cause) (s : State) : (raiseFault c s).tq = s.tq := forceDeassert_tq s
@[simp] theorem raiseFault_neg (c : Cause) (s : State) : (raiseFault c s).neg = s.neg := forceDeassert_neg s
@[simp] theorem raiseFault_fault (c : Cause) (s : State) : (raiseFault c s).fault = causeCode c := rfl
@[simp] theorem raiseFault_seq (c : Cause) (s : State) : (raiseFault c s).seq = .idle := rfl
@[simp] theorem raiseFault_lt (c : Cause) (s : State) : (raiseFault c s).lt = if s.cs then s.lt else s.lt ++ [.cs1] := forceDeassert_lt s
@[simp] theorem raiseFault_bt (c : Cause) (s : State) : (raiseFault c s).bt = if s.cs then s.bt else s.bt ++ [.desel] := forceDeassert_bt s
@[simp] theorem raiseFault_outcome (c : Cause) (s : State) : (raiseFault c s).outcome = some (.fault c) := rfl
@[simp] theorem raiseFault_cmds (c : Cause) (s : State) : (raiseFault c s).cmds = s.cmds := forceDeassert_cmds s
@[simp] theorem raiseFault_env (c : Cause) (s : State) : (raiseFault c s).env = s.env := forceDeassert_env s
@[simp] theorem raiseFault_asked (c : Cause) (s : State) : (raiseFault c s).asked = s.asked := forceDeassert_asked s

/-! ### Reset (70_reset_and_hazards R260) -/

@[simp] theorem resetBlock_cs (s : State) : (resetBlock s).cs = State.reset.cs := rfl
@[simp] theorem resetBlock_clk (s : State) : (resetBlock s).clk = State.reset.clk := rfl
@[simp] theorem resetBlock_dir (s : State) : (resetBlock s).dir = State.reset.dir := rfl
@[simp] theorem resetBlock_dout (s : State) : (resetBlock s).dout = State.reset.dout := rfl
@[simp] theorem resetBlock_sr (s : State) : (resetBlock s).sr = State.reset.sr := rfl
@[simp] theorem resetBlock_rxw (s : State) : (resetBlock s).rxw = State.reset.rxw := rfl
@[simp] theorem resetBlock_res (s : State) : (resetBlock s).res = State.reset.res := rfl
@[simp] theorem resetBlock_tq (s : State) : (resetBlock s).tq = State.reset.tq := rfl
@[simp] theorem resetBlock_neg (s : State) : (resetBlock s).neg = State.reset.neg := rfl
@[simp] theorem resetBlock_fault (s : State) : (resetBlock s).fault = State.reset.fault := rfl
@[simp] theorem resetBlock_seq (s : State) : (resetBlock s).seq = State.reset.seq := rfl
@[simp] theorem resetBlock_lt (s : State) : (resetBlock s).lt = State.reset.lt := rfl
@[simp] theorem resetBlock_bt (s : State) : (resetBlock s).bt = State.reset.bt := rfl
@[simp] theorem resetBlock_outcome (s : State) : (resetBlock s).outcome = State.reset.outcome := rfl
@[simp] theorem resetBlock_cmds (s : State) : (resetBlock s).cmds = s.cmds := rfl
@[simp] theorem resetBlock_env (s : State) : (resetBlock s).env = s.env := rfl
@[simp] theorem resetBlock_asked (s : State) : (resetBlock s).asked = s.asked := rfl

/-! ### A word placed before the host's list -/

@[simp] theorem placeWord_cs (s : State) (w : OpBits) : (placeWord s w).cs = s.cs := rfl
@[simp] theorem placeWord_clk (s : State) (w : OpBits) : (placeWord s w).clk = s.clk := rfl
@[simp] theorem placeWord_dir (s : State) (w : OpBits) : (placeWord s w).dir = s.dir := rfl
@[simp] theorem placeWord_dout (s : State) (w : OpBits) : (placeWord s w).dout = s.dout := rfl
@[simp] theorem placeWord_sr (s : State) (w : OpBits) : (placeWord s w).sr = s.sr := rfl
@[simp] theorem placeWord_rxw (s : State) (w : OpBits) : (placeWord s w).rxw = s.rxw := rfl
@[simp] theorem placeWord_res (s : State) (w : OpBits) : (placeWord s w).res = s.res := rfl
@[simp] theorem placeWord_tq (s : State) (w : OpBits) : (placeWord s w).tq = s.tq := rfl
@[simp] theorem placeWord_neg (s : State) (w : OpBits) : (placeWord s w).neg = s.neg := rfl
@[simp] theorem placeWord_fault (s : State) (w : OpBits) : (placeWord s w).fault = s.fault := rfl
@[simp] theorem placeWord_seq (s : State) (w : OpBits) : (placeWord s w).seq = s.seq := rfl
@[simp] theorem placeWord_lt (s : State) (w : OpBits) : (placeWord s w).lt = s.lt := rfl
@[simp] theorem placeWord_bt (s : State) (w : OpBits) : (placeWord s w).bt = s.bt := rfl
@[simp] theorem placeWord_outcome (s : State) (w : OpBits) : (placeWord s w).outcome = s.outcome := rfl
@[simp] theorem placeWord_cmds (s : State) (w : OpBits) : (placeWord s w).cmds = .issue w :: s.cmds := rfl
@[simp] theorem placeWord_env (s : State) (w : OpBits) : (placeWord s w).env = s.env := rfl
@[simp] theorem placeWord_asked (s : State) (w : OpBits) : (placeWord s w).asked = s.asked := rfl

/-! ### The sequencer position -/

@[simp] theorem nextByte_nextEvent (p : SeqPos) : nextByte (nextEvent p) = nextByte p := by cases p <;> rfl

@[simp] theorem nextEvent_running (i : Instr) (b e : Nat) :
    nextEvent (.running i b e) = .running i b (e + 1) := rfl

@[simp] theorem nextByte_running (i : Instr) (b e : Nat) : nextByte (.running i b e) = .running i (b + 1) 0 := rfl

end Sys2Proof.Machine
end

