-- ==== Sys2Proof/Laws/Flow.lean ====
section
/-! SUPPORT. The laws of a stretch of micro-steps, of the common checks and of the environment's answers. -/

namespace Sys2Proof.Machine

/-! ### Flow -/

section
variable {α β γ : Type}

@[simp] theorem andThen_go (a : α) (s : State) (k : α → State → Flow β) : (Flow.go a s).andThen k = k a s := rfl

@[simp] theorem andThen_raised (s : State) (k : α → State → Flow β) : (Flow.raised s).andThen k = .raised s := rfl

theorem andThen_assoc (f : Flow α) (k : α → State → Flow β) (l : β → State → Flow γ) :
    (f.andThen k).andThen l = f.andThen fun a s => (k a s).andThen l := by cases f <;> rfl

@[simp] theorem final_go (s : State) : (Flow.go () s).final = { s with seq := .idle, outcome := some .done } := rfl

@[simp] theorem final_raised (s : State) : (Flow.raised s : Flow Unit).final = s := rfl

end

/-! ### The common checks of an operation (40_transport R110) -/

theorem guarded_ready {body : State → State} {s : State} (hs : s.seq = .idle) (hf : s.fault = 0) :
    guarded body s = .next (body s) := by simp [guarded, hs, hf]

theorem guarded_faulted {body : State → State} {s : State} (hs : s.seq = .idle) (hf : s.fault ≠ 0) :
    guarded body s = .next (refuseOp s) := by
  unfold guarded
  rw [hs]
  exact if_neg hf

theorem guarded_busy {body : State → State} {s : State} (hs : s.seq ≠ .idle) : guarded body s = .refused .busy := by
  unfold guarded; split <;> simp_all

/-- Everything a guarded body can answer with a next state: it ran, or it was refused. -/
theorem guarded_next {body : State → State} {s t : State} (h : guarded body s = .next t) :
    s.seq = .idle ∧ ((s.fault = 0 ∧ t = body s) ∨ (s.fault ≠ 0 ∧ t = refuseOp s)) := by
  unfold guarded at h
  split at h
  · simp at h
  · rename_i hs
    split at h
    · exact ⟨hs, .inl ⟨by assumption, by simpa using h.symm⟩⟩
    · exact ⟨hs, .inr ⟨by assumption, by simpa using h.symm⟩⟩

theorem operation_ready {i : Instr} {body : State → Flow Unit} {s : State} (hs : s.seq = .idle) (hf : s.fault = 0) :
    operation i body s = .next (body { s with seq := .running i 0 0 }).final := guarded_ready hs hf

theorem operation_next {i : Instr} {body : State → Flow Unit} {s t : State} (h : operation i body s = .next t) :
    s.seq = .idle ∧
      ((s.fault = 0 ∧ t = (body { s with seq := .running i 0 0 }).final) ∨ (s.fault ≠ 0 ∧ t = refuseOp s)) :=
  guarded_next h

/-- The pseudocode of each operation. -/
def bodyOf (i : Instr) : State → Flow Unit :=
  match i with
  | .sel => selBody
  | .desel => deselBody
  | .dirout => diroutBody
  | .dirin => dirinBody
  | .shout b => shoutBody b
  | .shin => shinBody
  | .drain => drainBody
  | .rdreg a => rdregBody a
  | .wrreg a v => wrregBody a v
  | .decode => decodeBody
  | .setres r => setresBody r
  | .wait n => waitBody n

/-- Every meaning is its pseudocode under the common checks. -/
theorem exec_eq (i : Instr) (s : State) : exec i s = operation i (bodyOf i) s := by cases i <;> rfl

/-- What an operation can answer: with no operation in progress, its pseudocode ran, or it was refused. -/
theorem exec_next {i : Instr} {s t : State} (h : exec i s = .next t) :
    s.seq = .idle ∧
      ((s.fault = 0 ∧ t = (bodyOf i { s with seq := .running i 0 0 }).final) ∨ (s.fault ≠ 0 ∧ t = refuseOp s)) :=
  operation_next (exec_eq i s ▸ h)

theorem requireWindow_open {s : State} (h : s.cs = false) : requireWindow s = .go () s := by simp [requireWindow, h]

theorem requireWindow_closed {s : State} (h : s.cs = true) :
    requireWindow s = .raised (raiseFault .notSelected s) := by simp [requireWindow, h]

theorem requireNoWindow_closed {s : State} (h : s.cs = true) : requireNoWindow s = .go () s := by
  simp [requireNoWindow, h]

theorem requireNoWindow_open {s : State} (h : s.cs = false) :
    requireNoWindow s = .raised (raiseFault .reentry s) := by simp [requireNoWindow, h]

theorem requireDir_same {d : Dir} {s : State} (h : s.dir = d) : requireDir d s = .go () s := by simp [requireDir, h]

theorem requireDir_other {d : Dir} {s : State} (h : s.dir ≠ d) :
    requireDir d s = .raised (raiseFault .dirViolation s) := by simp [requireDir, h]

@[simp] theorem readHeld_some {α : Type} (v : α) (s : State) : readHeld (some v) s = .go v s := rfl

@[simp] theorem readHeld_none {α : Type} (s : State) :
    readHeld (none : Option α) s = .raised (raiseFault .unwritten s) := rfl

/-! ### The environment's answers -/

/-- The answers depend on the list and the counter alone. -/
theorem answerAt_congr {s t : State} (he : t.env = s.env) (ha : t.asked = s.asked) (k : Nat) :
    answerAt t k = answerAt s k := by simp [answerAt, he, ha]

/-- `n` consultations later the answers are the same ones, `n` further on. -/
theorem answerAt_later {s t : State} {n : Nat} (he : t.env = s.env.drop n) (ha : t.asked = s.asked + n) (k : Nat) :
    answerAt t k = answerAt s (n + k) := by simp [answerAt, he, ha, Nat.add_assoc]

@[simp] theorem answerAt_consulted (s : State) (k : Nat) : answerAt (consulted s) k = answerAt s (1 + k) :=
  answerAt_later rfl rfl k

end Sys2Proof.Machine
end

