-- ==== Sys2Proof/Laws/Host.lean ====
section
/-! SUPPORT. The laws of the runner of host sequences (43_host_sequences R191), of what a sequence returns, of the host's
obligations (70_reset_and_hazards R284), and of the decoder's two scales (42_decoder R167). -/

namespace Sys2Proof.Machine

@[simp] theorem runOps_nil (s : State) : runOps [] s = .next s := rfl

/-- An operation that ends without a fault recorded: the sequence goes on. -/
theorem runOps_cons_done {i : Instr} {rest : List Instr} {s t : State} (h : exec i s = .next t) (hf : t.fault = 0) :
    runOps (i :: rest) s = runOps rest t := by simp [runOps, h, hf]

/-- An operation that ends with a fault recorded: the sequence ends there. -/
theorem runOps_cons_fault {i : Instr} {rest : List Instr} {s t : State} (h : exec i s = .next t) (hf : t.fault ≠ 0) :
    runOps (i :: rest) s = .next t := by
  simp only [runOps, h]
  exact if_neg hf

/-- All a sequence's end can be: the first operation faulted there, or the rest ran. -/
theorem runOps_cons_next {i : Instr} {rest : List Instr} {s u : State} (h : runOps (i :: rest) s = .next u) :
    ∃ t, exec i s = .next t ∧ ((t.fault ≠ 0 ∧ u = t) ∨ (t.fault = 0 ∧ runOps rest t = .next u)) := by
  cases he : exec i s with
  | next t =>
    refine ⟨t, rfl, ?_⟩
    by_cases hf : t.fault = 0
    · exact .inr ⟨hf, by rw [← h, runOps_cons_done he hf]⟩
    · rw [runOps_cons_fault he hf] at h
      exact .inl ⟨hf, by simpa using h.symm⟩
  | fault r => nomatch r
  | refused r => simp [runOps, he] at h

/-- One list after another, where the first ends without a fault recorded. -/
theorem runOps_append {xs ys : List Instr} {s t : State} (h : runOps xs s = .next t) (hf : t.fault = 0) :
    runOps (xs ++ ys) s = runOps ys t := by
  induction xs generalizing s with
  | nil => simp only [runOps_nil, Host.Outcome.next.injEq] at h; rw [h]; rfl
  | cons i xs ih =>
    obtain ⟨u, hu, ⟨hne, rfl⟩ | ⟨hz, hr⟩⟩ := runOps_cons_next h
    · exact absurd hf hne
    · rw [List.cons_append, runOps_cons_done hu hz, ih hr]

theorem afterOps_done {k : State → Host.Outcome State Fault Refusal} {t : State} (hf : t.fault = 0) :
    afterOps (.next t) k = k t := by simp [afterOps, hf]

/-- A sequence that ends without a fault recorded returns its value, and one that ends with one returns none. -/
theorem valueAfter_done {α : Type} {value : State → Option α} {t : State} (hf : t.fault = 0) :
    valueAfter (.next t) value = value t := if_pos hf

theorem valueAfter_fault {α : Type} {value : State → Option α} {t : State} (hf : t.fault ≠ 0) :
    valueAfter (.next t) value = none := if_neg hf

/-- A value returned is that of a state without a fault recorded: never a stale one. -/
theorem valueAfter_some {α : Type} {o : Host.Outcome State Fault Refusal} {value : State → Option α} {a : α}
    (h : valueAfter o value = some a) : ∃ t, o = .next t ∧ t.fault = 0 ∧ value t = some a := by
  cases o with
  | next t =>
    by_cases hf : t.fault = 0
    · exact ⟨t, rfl, hf, by rwa [valueAfter_done hf] at h⟩
    · rw [valueAfter_fault hf] at h; cases h
  | fault r => cases h
  | refused r => cases h

/-- `RESETSENSOR` and `CHANGERES` as the spec gives them keep the host's obligations, whatever the read gave. -/
theorem resetSensor_kept (c : Word) :
    sequenceKept { ops := regReadOps Config.addrControl ++ resetSensorRest c, reads := [c] } = true := by
  have h : isResetSensor c (regReadOps Config.addrControl ++ resetSensorRest c) = true := beq_self_eq_true _
  simp only [sequenceKept, h, Bool.or_true, Bool.and_true]
  rfl

theorem changeRes_kept (c r : Word) :
    sequenceKept { ops := regReadOps Config.addrControl ++ changeResRest r c, reads := [c] } = true := by
  have h : isChangeRes c (regReadOps Config.addrControl ++ changeResRest r c) = true := beq_self_eq_true _
  simp only [sequenceKept, h, Bool.true_or, Bool.or_true, Bool.and_true]
  rfl

/-- The count the host's `TQ` holds is 128 times the temperature. -/
theorem decUnits_eq (raw : Word) (r : Resolution) : (decUnits raw r : Rat) = decCelsius raw r * 128 := by
  cases r <;> simp only [decUnits, decCelsius, stepUnits, stepCelsius] <;> push_cast <;> ring

end Sys2Proof.Machine
end

