-- ==== Sys2Proof/Laws/Micro.lean ====
section
/-! SUPPORT. What each shared stretch of micro-steps does: under answers that are all `ok` the state it goes on in, and at the
first `fail` what stands in the line trace when fault entry is taken (60_exceptions R241). -/

namespace Sys2Proof.Machine

theorem EnvOk.mono {s : State} {m n : Nat} (h : EnvOk s n) (hm : m ≤ n) : EnvOk s m := fun k hk => h k (by omega)

/-- The part of a success after the first `n` answers. -/
theorem EnvOk.later {s t : State} {m n : Nat} (h : EnvOk s (n + m)) (he : t.env = s.env.drop n)
    (ha : t.asked = s.asked + n) : EnvOk t m := fun k hk => by
  rw [answerAt_later he ha]; exact h _ (by omega)

theorem levelAt_later {s t : State} {n : Nat} (he : t.env = s.env.drop n) (ha : t.asked = s.asked + n) (k : Nat) :
    levelAt t k = levelAt s (n + k) := by simp [levelAt, answerAt_later he ha]

theorem byteAt_later {s t : State} {n : Nat} (he : t.env = s.env.drop n) (ha : t.asked = s.asked + n) (k : Nat) :
    byteAt t k = byteAt s (n + k) := by simp [byteAt, levelAt_later he ha, Nat.add_assoc]

theorem wordAt_later {s t : State} {n : Nat} (he : t.env = s.env.drop n) (ha : t.asked = s.asked + n) (k : Nat) :
    wordAt t k = wordAt s (n + k) := by simp [wordAt, byteAt_later he ha, Nat.add_assoc]

theorem stepEvent_later {s t : State} {n : Nat} (he : t.env = s.env.drop n) (ha : t.asked = s.asked + n) (k : Nat)
    (m : MicroStep) : stepEvent t k m = stepEvent s (n + k) m := by
  cases m <;> simp [stepEvent, levelAt_later he ha]

theorem eventsFrom_later {s t : State} {n : Nat} (he : t.env = s.env.drop n) (ha : t.asked = s.asked + n) (k : Nat)
    (ms : List MicroStep) : eventsFrom t k ms = eventsFrom s (n + k) ms := by
  induction ms generalizing k with
  | nil => rfl
  | cons m ms ih => simp [eventsFrom, ih, stepEvent_later he ha, Nat.add_assoc]

theorem eventsFrom_append (s : State) (k : Nat) (ms ns : List MicroStep) :
    eventsFrom s k (ms ++ ns) = eventsFrom s k ms ++ eventsFrom s (k + ms.length) ns := by
  induction ms generalizing k with
  | nil => simp [eventsFrom]
  | cons m ms ih => simp [eventsFrom, ih, Nat.add_assoc, Nat.add_comm 1]

@[simp] theorem eventsFrom_length (s : State) (k : Nat) (ms : List MicroStep) :
    (eventsFrom s k ms).length = ms.length := by
  induction ms generalizing k with
  | nil => rfl
  | cons m ms ih => simp [eventsFrom, ih]

@[simp] theorem byteOutSteps_length (b : Byte) : (byteOutSteps b).length = 24 := rfl

@[simp] theorem byteInSteps_length : byteInSteps.length = 24 := rfl

theorem pin_ok {e : LineEvent} {s : State} (h : EnvOk s 1) : pin e s = .go () (lineEvent e (consulted s)) := by
  have h0 := h 0 (by omega)
  unfold pin
  split <;> simp_all

theorem pin_fail {e : LineEvent} {s : State} (h : answerAt s 0 = .fail) :
    pin e s = .raised (raiseFault .transportFailure (consulted s)) := by simp [pin, h]

theorem sample_ok {s : State} (h : EnvOk s 1) :
    sample s = .go (levelAt s 0) (lineEvent (.s (levelAt s 0)) (consulted s)) := by
  have h0 := h 0 (by omega)
  unfold sample levelAt
  split <;> simp_all

theorem sample_fail {s : State} (h : answerAt s 0 = .fail) :
    sample s = .raised (raiseFault .transportFailure (consulted s)) := by simp [sample, h]

/-! ### The law of a stretch -/

/-- The state `t` stands `ms` micro-steps after `s` in what the environment and the line trace see of it. -/
structure After (ms : List MicroStep) (s t : State) : Prop where
  lt : t.lt = s.lt ++ eventsFrom s 0 ms
  env : t.env = s.env.drop ms.length
  asked : t.asked = s.asked + ms.length
  cs : t.cs = s.cs

/-- The state `u` that fault entry is taken in when the answer to the micro-step of index `k` is `fail`: the `k` before
it happened, it and the later ones did not (60_exceptions R241). -/
structure FailedAt (ms : List MicroStep) (k : Nat) (s u : State) : Prop where
  lt : u.lt = s.lt ++ (eventsFrom s 0 ms).take k
  env : u.env = s.env.drop (k + 1)
  asked : u.asked = s.asked + k + 1
  cs : u.cs = s.cs

/-- The law of a stretch `f` that starts in `s`: its micro-steps are `ms`; answered with `ok` throughout it goes on with
`a` in `t`; at the first `fail` it raises `TransportFailure` there. -/
structure Precise {α : Type} (ms : List MicroStep) (s : State) (f : Flow α) (a : α) (t : State) : Prop where
  done : EnvOk s ms.length → f = .go a t
  failed : ∀ k < ms.length, FirstFail s k → ∃ u, f = .raised (raiseFault .transportFailure u) ∧ FailedAt ms k s u
  after : After ms s t

section
variable {α β : Type}

/-- One stretch after another. -/
theorem Precise.andThen {ms ns : List MicroStep} {s t v : State} {f : Flow α} {a : α} {k : α → State → Flow β} {b : β}
    (hf : Precise ms s f a t) (hk : Precise ns t (k a t) b v) : Precise (ms ++ ns) s (f.andThen k) b v := by
  have hev : eventsFrom t 0 ns = eventsFrom s (0 + ms.length) ns := by
    rw [eventsFrom_later hf.after.env hf.after.asked]; simp
  refine ⟨fun h => ?_, fun j hj hfail => ?_, ?_⟩
  · rw [List.length_append] at h
    rw [hf.done (h.mono (by omega)), andThen_go]
    exact hk.done (h.later hf.after.env hf.after.asked)
  · by_cases hlt : j < ms.length
    · obtain ⟨u, hu, hat⟩ := hf.failed j hlt hfail
      refine ⟨u, by rw [hu, andThen_raised], ?_, hat.env, hat.asked, hat.cs⟩
      rw [hat.lt, eventsFrom_append, List.take_append_of_le_length (by simp; omega)]
    · obtain ⟨i, rfl⟩ := Nat.exists_eq_add_of_le (Nat.le_of_not_lt hlt)
      have hi : FirstFail t i :=
        ⟨hfail.1.later hf.after.env hf.after.asked, by rw [answerAt_later hf.after.env hf.after.asked]; exact hfail.2⟩
      obtain ⟨u, hu, hat⟩ := hk.failed i (by simp at hj; omega) hi
      refine ⟨u, by rw [hf.done (hfail.1.mono (by omega)), andThen_go, hu], ?_, ?_, ?_, ?_⟩
      · rw [hat.lt, hf.after.lt, eventsFrom_append, hev, List.append_assoc, List.take_append]
        simp [List.take_of_length_le]
      · rw [hat.env, hf.after.env, List.drop_drop, Nat.add_assoc]
      · rw [hat.asked, hf.after.asked]; omega
      · rw [hat.cs, hf.after.cs]
  · refine ⟨?_, ?_, ?_, ?_⟩
    · rw [hk.after.lt, hf.after.lt, eventsFrom_append, hev, List.append_assoc]
    · rw [hk.after.env, hf.after.env, List.drop_drop, List.length_append]
    · rw [hk.after.asked, hf.after.asked, List.length_append, Nat.add_assoc]
    · rw [hk.after.cs, hf.after.cs]

/-- Register writes after the last micro-step. -/
theorem Precise.map {ms : List MicroStep} {s t v : State} {f : Flow α} {a : α} {k : α → State → Flow β} {b : β}
    (hf : Precise ms s f a t) (hk : k a t = .go b v) (hv : After ms s v) : Precise ms s (f.andThen k) b v := by
  refine ⟨fun h => by rw [hf.done h, andThen_go, hk], fun j hj hfail => ?_, hv⟩
  obtain ⟨u, hu, hat⟩ := hf.failed j hj hfail
  exact ⟨u, by rw [hu, andThen_raised], hat⟩

/-- Register writes before the first micro-step: no rule of a stretch reads what `r` differs from `s` in. -/
theorem Precise.start {ms : List MicroStep} {s r t : State} {f : Flow α} {a : α} (hf : Precise ms r f a t)
    (hlt : r.lt = s.lt) (he : r.env = s.env) (ha : r.asked = s.asked) (hc : r.cs = s.cs) : Precise ms s f a t := by
  have hans : ∀ k, answerAt r k = answerAt s k := answerAt_congr he ha
  have hev : eventsFrom r 0 ms = eventsFrom s 0 ms := by
    rw [eventsFrom_later (s := s) (n := 0) (by simp [he]) (by simp [ha])]
  refine ⟨fun h => hf.done fun k hk => by rw [hans]; exact h k hk, fun k hk hfail => ?_, ?_⟩
  · obtain ⟨u, hu, hat⟩ := hf.failed k hk ⟨fun j hj => by rw [hans]; exact hfail.1 j hj, by rw [hans]; exact hfail.2⟩
    exact ⟨u, hu, by rw [hat.lt, hlt, hev], by rw [hat.env, he], by rw [hat.asked, ha], by rw [hat.cs, hc]⟩
  · exact ⟨by rw [hf.after.lt, hlt, hev], by rw [hf.after.env, he], by rw [hf.after.asked, ha], by rw [hf.after.cs, hc]⟩

end

/-! ### The laws of the shared stretches -/

theorem pin_precise (e : LineEvent) (s : State) :
    Precise [.act e] s (pin e s) () (lineEvent e (consulted s)) := by
  refine ⟨pin_ok, fun k hk hfail => ?_, by simp [eventsFrom, stepEvent], by simp, by simp, by simp⟩
  obtain rfl : k = 0 := by simpa using hk
  exact ⟨_, pin_fail hfail.2, by simp, by simp, by simp, by simp⟩

theorem sample_precise (s : State) :
    Precise [.sample] s (sample s) (levelAt s 0) (lineEvent (.s (levelAt s 0)) (consulted s)) := by
  refine ⟨sample_ok, fun k hk hfail => ?_, by simp [eventsFrom, stepEvent], by simp, by simp, by simp⟩
  obtain rfl : k = 0 := by simpa using hk
  exact ⟨_, sample_fail hfail.2, by simp, by simp, by simp, by simp⟩

theorem switchDir_precise (d : Dir) (s : State) :
    Precise [.act (dirEvent d)] s (switchDir d s) () { lineEvent (dirEvent d) (consulted s) with dir := d } :=
  (pin_precise _ s).map rfl ⟨(pin_precise _ s).after.lt, rfl, rfl, rfl⟩

/-- The state after a pulse. -/
def pulsed (s : State) : State :=
  { lineEvent .ckI (consulted (lineEvent .ckA (consulted s))) with clk := Config.clkIdle }

theorem pulse_precise (s : State) : Precise [.act .ckA, .act .ckI] s (pulse s) () (pulsed s) := by
  refine (pin_precise .ckA s).andThen (ns := [.act .ckI]) ?_
  refine Precise.start (r := { lineEvent .ckA (consulted s) with clk := !Config.clkIdle }) ?_ rfl rfl rfl rfl
  exact (pin_precise .ckI _).map rfl ⟨(pin_precise .ckI _).after.lt, rfl, rfl, rfl⟩

/-- The state after a write cell with `r` in `SR`. -/
def writtenCell (r : Byte) (s : State) : State :=
  { pulsed { lineEvent (.d (r.getLsbD 7)) (consulted s) with dout := r.getLsbD 7 } with sr := some (shiftIn r false) }

theorem writeCell_precise {r : Byte} {s : State} (h : s.sr = some r) :
    Precise (writeCellSteps (r.getLsbD 7)) s (writeCell s) () (writtenCell r s) := by
  unfold writeCell
  rw [h, readHeld_some, andThen_go]
  refine (pin_precise (.d (r.getLsbD 7)) s).andThen (ns := [.act .ckA, .act .ckI]) ?_
  refine Precise.start (r := { lineEvent (.d (r.getLsbD 7)) (consulted s) with dout := r.getLsbD 7 }) ?_ rfl rfl rfl rfl
  have hp := pulse_precise { lineEvent (.d (r.getLsbD 7)) (consulted s) with dout := r.getLsbD 7 }
  exact hp.map rfl ⟨hp.after.lt, hp.after.env, hp.after.asked, hp.after.cs⟩

/-- The state after a read cell with `r` in `SR`. -/
def readCelled (r : Byte) (s : State) : State :=
  { lineEvent (.s (levelAt s 2)) (consulted (pulsed s)) with sr := some (shiftIn r (levelAt s 2)) }

theorem readCell_precise {r : Byte} {s : State} (h : s.sr = some r) :
    Precise readCellSteps s (readCell s) () (readCelled r s) := by
  have hp := pulse_precise s
  refine hp.andThen (ns := [.sample]) ?_
  have hl : levelAt (pulsed s) 0 = levelAt s 2 := levelAt_later hp.after.env hp.after.asked 0
  have hs := sample_precise (pulsed s)
  rw [hl] at hs
  refine hs.map ?_ ⟨hs.after.lt, hs.after.env, hs.after.asked, hs.after.cs⟩
  simp only [lineEvent_sr, consulted_sr]
  rw [show (pulsed s).sr = some r from h]
  rfl

/-! ### Bytes -/

/-- What no cell and no byte touches; `SEQ` stays within the byte. -/
structure CellRest (s t : State) : Prop where
  dir : t.dir = s.dir
  rxw : t.rxw = s.rxw
  res : t.res = s.res
  tq : t.tq = s.tq
  neg : t.neg = s.neg
  fault : t.fault = s.fault
  bt : t.bt = s.bt
  outcome : t.outcome = s.outcome
  cmds : t.cmds = s.cmds
  seq : nextByte t.seq = nextByte s.seq

theorem CellRest.refl (s : State) : CellRest s s := ⟨rfl, rfl, rfl, rfl, rfl, rfl, rfl, rfl, rfl, rfl⟩

theorem CellRest.trans {s t u : State} (h : CellRest s t) (g : CellRest t u) : CellRest s u :=
  ⟨g.dir.trans h.dir, g.rxw.trans h.rxw, g.res.trans h.res, g.tq.trans h.tq, g.neg.trans h.neg,
    g.fault.trans h.fault, g.bt.trans h.bt, g.outcome.trans h.outcome, g.cmds.trans h.cmds, g.seq.trans h.seq⟩

theorem lineEvent_rest (e : LineEvent) (s : State) : CellRest s (lineEvent e (consulted s)) :=
  ⟨rfl, rfl, rfl, rfl, rfl, rfl, rfl, rfl, rfl, nextByte_nextEvent s.seq⟩

theorem clk_rest (s : State) (b : Level) : CellRest s { s with clk := b } :=
  ⟨rfl, rfl, rfl, rfl, rfl, rfl, rfl, rfl, rfl, rfl⟩

theorem dout_rest (s : State) (b : Level) : CellRest s { s with dout := b } :=
  ⟨rfl, rfl, rfl, rfl, rfl, rfl, rfl, rfl, rfl, rfl⟩

theorem sr_rest (s : State) (r : Option Byte) : CellRest s { s with sr := r } :=
  ⟨rfl, rfl, rfl, rfl, rfl, rfl, rfl, rfl, rfl, rfl⟩

theorem pulsed_rest (s : State) : CellRest s (pulsed s) :=
  ((lineEvent_rest .ckA s).trans (lineEvent_rest .ckI _)).trans (clk_rest _ _)

theorem writtenCell_rest (r : Byte) (s : State) : CellRest s (writtenCell r s) :=
  (((lineEvent_rest _ s).trans (dout_rest _ _)).trans (pulsed_rest _)).trans (sr_rest _ _)

theorem readCelled_rest (r : Byte) (s : State) : CellRest s (readCelled r s) :=
  ((pulsed_rest s).trans (lineEvent_rest _ _)).trans (sr_rest _ _)

/-- No micro-step at all. -/
theorem go_precise (s : State) : Precise [] s (.go () s) () s :=
  ⟨fun _ => rfl, fun k hk => absurd hk (Nat.not_lt_zero k), ⟨(List.append_nil _).symm, rfl, rfl, rfl⟩⟩

theorem shiftIn_false (r : Byte) : shiftIn r false = r <<< 1 := by revert r; decide

theorem shiftIn_false_shift (r : Byte) (n : Nat) : shiftIn r false <<< n = r <<< (n + 1) := by
  rw [shiftIn_false, ← BitVec.shiftLeft_add, Nat.add_comm]

/-- The cells of a byte out, as a count over its left shifts. -/
theorem byteOutSteps_eq (b : Byte) :
    byteOutSteps b = (List.range 8).flatMap fun i => writeCellSteps ((b <<< i).getLsbD 7) := by
  have h : wireBits b = (List.range 8).map fun i => (b <<< i).getLsbD 7 := by revert b; decide
  rw [byteOutSteps, h, List.flatMap_map]

theorem writeCells_precise (n : Nat) (r : Byte) (s : State) (h : s.sr = some r) :
    ∃ t, Precise ((List.range n).flatMap fun i => writeCellSteps ((r <<< i).getLsbD 7)) s (repeatCell writeCell n s) () t ∧
      CellRest s t ∧ t.sr = some (r <<< n) ∧ t.clk = (if n = 0 then s.clk else Config.clkIdle) ∧
      t.dout = (if n = 0 then s.dout else (r <<< (n - 1)).getLsbD 7) := by
  induction n generalizing r s with
  | zero => exact ⟨s, go_precise s, .refl s, by rw [h, BitVec.shiftLeft_zero], rfl, rfl⟩
  | succ n ih =>
    have hc := writeCell_precise h
    obtain ⟨t, ht, hrest, hsr, hclk, hdout⟩ := ih (shiftIn r false) (writtenCell r s) rfl
    refine ⟨t, ?_, (writtenCell_rest r s).trans hrest, ?_, ?_, ?_⟩
    · have hall := hc.andThen (k := fun _ s => repeatCell writeCell n s) ht
      simp only [shiftIn_false_shift] at hall
      rw [List.range_succ_eq_map, List.flatMap_cons, List.flatMap_map, BitVec.shiftLeft_zero]
      exact hall
    · rw [hsr, shiftIn_false_shift]
    · rw [hclk]; cases n <;> rfl
    · rw [hdout]
      cases n with
      | zero => rw [if_pos rfl, if_neg (by omega), Nat.add_sub_cancel, BitVec.shiftLeft_zero]; rfl
      | succ m => rw [if_neg (by omega), if_neg (by omega), shiftIn_false_shift]; rfl

theorem shiftLeft_eight (b : Byte) : b <<< 8 = 0 := by revert b; decide

theorem last_bit_out (b : Byte) : (b <<< 7).getLsbD 7 = b.getLsbD 0 := by revert b; decide

/-- The state after a byte out. -/
theorem shiftOut_precise (b : Byte) (s : State) :
    ∃ t, Precise (byteOutSteps b) s (shiftOut b s) () t ∧
      t = { s with
        sr := some 0, clk := Config.clkIdle, dout := b.getLsbD 0, bt := s.bt ++ [.out b]
        lt := t.lt, env := t.env, asked := t.asked, seq := nextByte s.seq } := by
  obtain ⟨t, ht, hr, hsr, hclk, hdout⟩ := writeCells_precise 8 b { s with sr := some b } rfl
  refine ⟨byteEvent (.out b) { t with seq := nextByte t.seq }, ?_, ?_⟩
  · rw [byteOutSteps_eq]
    refine Precise.start (r := { s with sr := some b }) ?_ rfl rfl rfl rfl
    exact ht.map rfl ⟨ht.after.lt, ht.after.env, ht.after.asked, ht.after.cs⟩
  · rw [shiftLeft_eight] at hsr
    rw [if_neg (by omega)] at hclk hdout
    rw [last_bit_out] at hdout
    exact State.ext ht.after.cs hclk hr.dir hdout hsr hr.rxw hr.res hr.tq hr.neg hr.fault hr.seq rfl
      (congrArg (fun l => l ++ [ByteEvent.out b]) hr.bt) hr.outcome hr.cmds rfl rfl

/-- The byte that `n` read cells make of `r`, the first beginning at the `k`-th consultation. -/
def readInto (s : State) (n k : Nat) (r : Byte) : Byte :=
  match n with
  | 0 => r
  | n + 1 => readInto s n (k + 3) (shiftIn r (levelAt s (k + 2)))

theorem readInto_later {s t : State} {m : Nat} (he : t.env = s.env.drop m) (ha : t.asked = s.asked + m) (n k : Nat)
    (r : Byte) : readInto t n k r = readInto s n (m + k) r := by
  induction n generalizing k r with
  | zero => rfl
  | succ n ih => simp [readInto, ih, levelAt_later he ha, Nat.add_assoc]

/-- Eight bits shifted in, the first becoming bit 7. -/
theorem shiftIn_eight (b₇ b₆ b₅ b₄ b₃ b₂ b₁ b₀ : Bool) :
    shiftIn (shiftIn (shiftIn (shiftIn (shiftIn (shiftIn (shiftIn (shiftIn 0 b₇) b₆) b₅) b₄) b₃) b₂) b₁) b₀ =
      BitVec.ofBool b₇ ++ BitVec.ofBool b₆ ++ BitVec.ofBool b₅ ++ BitVec.ofBool b₄ ++ BitVec.ofBool b₃ ++
      BitVec.ofBool b₂ ++ BitVec.ofBool b₁ ++ BitVec.ofBool b₀ := by
  revert b₇ b₆ b₅ b₄ b₃ b₂ b₁ b₀; decide

theorem readInto_eight (s : State) (k : Nat) : readInto s 8 k 0 = byteAt s k := by
  simp only [readInto, byteAt, shiftIn_eight, Nat.add_assoc, Nat.reduceAdd]

theorem readCells_precise (n : Nat) (r : Byte) (s : State) (h : s.sr = some r) :
    ∃ t, Precise (List.replicate n readCellSteps).flatten s (repeatCell readCell n s) () t ∧
      CellRest s t ∧ t.sr = some (readInto s n 0 r) ∧ t.clk = (if n = 0 then s.clk else Config.clkIdle) ∧
      t.dout = s.dout := by
  induction n generalizing r s with
  | zero => exact ⟨s, go_precise s, .refl s, h, rfl, rfl⟩
  | succ n ih =>
    have hc := readCell_precise h
    obtain ⟨t, ht, hrest, hsr, hclk, hdout⟩ := ih (shiftIn r (levelAt s 2)) (readCelled r s) rfl
    refine ⟨t, ?_, (readCelled_rest r s).trans hrest, ?_, ?_, hdout⟩
    · rw [List.replicate_succ, List.flatten_cons]
      exact hc.andThen (k := fun _ s => repeatCell readCell n s) ht
    · rw [hsr, readInto_later hc.after.env hc.after.asked]; rfl
    · rw [hclk]; cases n <;> rfl

/-- The state after a byte in. -/
theorem shiftInByte_precise (s : State) :
    ∃ t, Precise byteInSteps s (shiftInByte s) (byteAt s 0) t ∧
      t = { s with
        sr := some (byteAt s 0), clk := Config.clkIdle, bt := s.bt ++ [.inp (byteAt s 0)]
        lt := t.lt, env := t.env, asked := t.asked, seq := nextByte s.seq } := by
  obtain ⟨t, ht, hr, hsr, hclk, hdout⟩ := readCells_precise 8 0 { s with sr := some 0 } rfl
  rw [readInto_eight, if_neg (by omega)] at *
  change t.sr = some (byteAt s 0) at hsr
  refine ⟨byteEvent (.inp (byteAt s 0)) { t with seq := nextByte t.seq }, ?_, ?_⟩
  · refine Precise.start (r := { s with sr := some 0 }) ?_ rfl rfl rfl rfl
    refine ht.map (by simp only [hsr, readHeld_some, andThen_go])
      ⟨ht.after.lt, ht.after.env, ht.after.asked, ht.after.cs⟩
  · exact State.ext ht.after.cs hclk hr.dir hdout hsr hr.rxw hr.res hr.tq hr.neg hr.fault hr.seq rfl
      (congrArg (fun l => l ++ [ByteEvent.inp (byteAt s 0)]) hr.bt) hr.outcome hr.cmds rfl rfl

/-- The state after the two bytes in that end `DRAIN` and `RDREG`. -/
theorem receiveWord_precise (s : State) :
    ∃ t, Precise (byteInSteps ++ byteInSteps) s (receiveWord s) () t ∧
      t = { s with
        sr := some (byteAt s 24), rxw := some (wordAt s 0), clk := Config.clkIdle
        bt := s.bt ++ [.inp (byteAt s 0), .inp (byteAt s 24)]
        lt := t.lt, env := t.env, asked := t.asked, seq := nextByte (nextByte s.seq) } := by
  obtain ⟨t, ht, heq⟩ := shiftInByte_precise s
  obtain ⟨v, hv, hveq⟩ := shiftInByte_precise { t with rxw := none }
  have hb : byteAt { t with rxw := none } 0 = byteAt s 24 := byteAt_later (n := 24) ht.after.env ht.after.asked 0
  rw [hb] at hv hveq
  refine ⟨{ v with rxw := some (composeWord (byteAt s 0) (byteAt s 24)) }, ?_, ?_⟩
  · refine ht.andThen (Precise.start (r := { t with rxw := none }) ?_ rfl rfl rfl rfl)
    exact hv.map rfl ⟨hv.after.lt, hv.after.env, hv.after.asked, hv.after.cs⟩
  · rw [hveq, heq]
    simp [wordAt]

end Sys2Proof.Machine
end

