-- ==== Sys2Proof/Laws/Keeps.lean ====
section
/-! SUPPORT. What each shared stretch leaves unchanged whatever the environment answers, and what a whole operation can
answer; the frames of the operations are put together from these. -/

namespace Sys2Proof.Machine

/-- A stretch keeps `P`: it goes on in a state with `P`, or fault entry was taken in one. -/
def Flow.Keeps {α : Type} (P : State → Prop) (f : Flow α) : Prop :=
  match f with
  | .go _ t => P t
  | .raised t => ∃ c u, t = raiseFault c u ∧ P u

section
variable {α β : Type}

theorem keeps_go {P : State → Prop} {a : α} {t : State} (h : P t) : (Flow.go a t).Keeps P := h

theorem keeps_raise {P : State → Prop} {c : Cause} {u : State} (h : P u) :
    (Flow.raised (raiseFault c u) : Flow α).Keeps P := ⟨c, u, rfl, h⟩

theorem Flow.Keeps.mono {P Q : State → Prop} {f : Flow α} (h : f.Keeps P) (hpq : ∀ t, P t → Q t) : f.Keeps Q := by
  cases f with
  | go a t => exact hpq _ h
  | raised t => obtain ⟨c, u, rfl, hu⟩ := h; exact ⟨c, u, rfl, hpq _ hu⟩

/-- One stretch after another. -/
theorem Flow.Keeps.andThen {P Q : State → Prop} {f : Flow α} {k : α → State → Flow β} (hf : f.Keeps P)
    (hpq : ∀ t, P t → Q t) (hk : ∀ a t, P t → (k a t).Keeps Q) : (f.andThen k).Keeps Q := by
  cases f with
  | go a t => exact hk a t hf
  | raised t => exact (Flow.Keeps.mono (f := (Flow.raised t : Flow β)) hf hpq)

end

/-- The state an operation ends in comes from a state with `P`: it is done there, or fault entry was taken there. -/
theorem final_of_keeps {P : State → Prop} {f : Flow Unit} (h : f.Keeps P) :
    ∃ u, P u ∧ (f.final = { u with seq := .idle, outcome := some .done } ∨ ∃ c, f.final = raiseFault c u) := by
  cases f with
  | go a t => exact ⟨t, h, .inl rfl⟩
  | raised t => obtain ⟨c, u, rfl, hu⟩ := h; exact ⟨u, hu, .inr ⟨c, rfl⟩⟩

/-- All a next state of `exec` can be, for an operation whose pseudocode keeps `P`: refused, done or faulted. -/
theorem exec_of_keeps {i : Instr} {s t : State} {P : State → Prop} (h : exec i s = .next t)
    (hk : (bodyOf i { s with seq := .running i 0 0 }).Keeps P) :
    s.seq = .idle ∧ ((s.fault ≠ 0 ∧ t = refuseOp s) ∨
      (s.fault = 0 ∧ ∃ u, P u ∧ (t = { u with seq := .idle, outcome := some .done } ∨ ∃ c, t = raiseFault c u))) := by
  obtain ⟨hseq, ⟨hf, rfl⟩ | ⟨hf, rfl⟩⟩ := exec_next h
  · exact ⟨hseq, .inr ⟨hf, final_of_keeps hk⟩⟩
  · exact ⟨hseq, .inl ⟨hf, rfl⟩⟩

/-- An operation whose pseudocode is `Precise`: its end under answers that are all `ok`, and its fault at the first
`fail`, both counted from the state the host issued it in. -/
theorem exec_of_precise {i : Instr} {ms : List MicroStep} {s t : State} (hseq : s.seq = .idle) (hf : s.fault = 0)
    (h : Precise ms { s with seq := .running i 0 0 } (bodyOf i { s with seq := .running i 0 0 }) () t) :
    (EnvOk s ms.length → exec i s = .next { t with seq := .idle, outcome := some .done }) ∧
    (∀ k < ms.length, FirstFail s k → ∃ u, exec i s = .next (raiseFault .transportFailure u) ∧ FailedAt ms k s u) ∧
    After ms s t := by
  have hp : Precise ms s (bodyOf i { s with seq := .running i 0 0 }) () t := h.start rfl rfl rfl rfl
  rw [exec_eq, operation_ready hseq hf]
  refine ⟨fun he => by rw [hp.done he]; rfl, fun k hk hfail => ?_, hp.after⟩
  obtain ⟨u, hu, hat⟩ := hp.failed k hk hfail
  exact ⟨u, by rw [hu]; rfl, hat⟩

theorem causeCode_ne_zero (c : Cause) : causeCode c ≠ 0 := by cases c <;> decide

theorem causeCode_ne_seven (c : Cause) : causeCode c ≠ 7 := by cases c <;> decide

/-! ### The environment -/

theorem pin_keeps {P : State → Prop} {e : LineEvent} {s : State} (hr : P (consulted s))
    (hg : P (lineEvent e (consulted s))) : (pin e s).Keeps P := by
  unfold pin; split
  · exact hg
  · exact keeps_raise hr

theorem sample_keeps {P : State → Prop} {s : State} (hr : P (consulted s))
    (hg : ∀ b, P (lineEvent (.s b) (consulted s))) : (sample s).Keeps P := by
  unfold sample; split
  · exact hg _
  · exact keeps_raise hr

theorem readHeld_keeps {α : Type} {P : State → Prop} {r : Option α} {s : State} (h : P s) : (readHeld r s).Keeps P := by
  cases r with
  | none => exact keeps_raise h
  | some v => exact h

theorem requireWindow_keeps {P : State → Prop} {s : State} (h : P s) : (requireWindow s).Keeps P := by
  unfold requireWindow; split
  · exact keeps_raise h
  · exact h

theorem requireNoWindow_keeps {P : State → Prop} {s : State} (h : P s) : (requireNoWindow s).Keeps P := by
  unfold requireNoWindow; split
  · exact h
  · exact keeps_raise h

theorem requireDir_keeps {P : State → Prop} {d : Dir} {s : State} (h : P s) : (requireDir d s).Keeps P := by
  unfold requireDir; split
  · exact h
  · exact keeps_raise h

/-! ### Cells and bytes -/

/-- What a cell and a byte body leave alone: the lines `CS` and `DIR`, every register but `SR`, `DOUT` and `CLK`, and
what the host does next. -/
structure ByteRest (s t : State) : Prop where
  cs : t.cs = s.cs
  dir : t.dir = s.dir
  rxw : t.rxw = s.rxw
  res : t.res = s.res
  tq : t.tq = s.tq
  neg : t.neg = s.neg
  fault : t.fault = s.fault
  cmds : t.cmds = s.cmds

theorem ByteRest.refl (s : State) : ByteRest s s := ⟨rfl, rfl, rfl, rfl, rfl, rfl, rfl, rfl⟩

theorem ByteRest.trans {s t u : State} (h : ByteRest s t) (g : ByteRest t u) : ByteRest s u :=
  ⟨g.cs.trans h.cs, g.dir.trans h.dir, g.rxw.trans h.rxw, g.res.trans h.res, g.tq.trans h.tq, g.neg.trans h.neg,
    g.fault.trans h.fault, g.cmds.trans h.cmds⟩

theorem consulted_byteRest (s : State) : ByteRest s (consulted s) := ⟨rfl, rfl, rfl, rfl, rfl, rfl, rfl, rfl⟩

theorem lineEvent_byteRest (e : LineEvent) (s : State) : ByteRest s (lineEvent e s) :=
  ⟨rfl, rfl, rfl, rfl, rfl, rfl, rfl, rfl⟩

/-- A relation that a pin action's record keeps, and a write of `CLK` and of `SR`: what every cell keeps. -/
structure CellClosed (R : State → State → Prop) : Prop where
  refl : ∀ s, R s s
  trans : ∀ {s t u}, R s t → R t u → R s u
  asked : ∀ s, R s (consulted s)
  event : ∀ e s, R s (lineEvent e s)
  clk : ∀ s b, R s { s with clk := b }
  sr : ∀ s r, R s { s with sr := r }

section
variable {R : State → State → Prop}

theorem pin_cell (hR : CellClosed R) (e : LineEvent) (s : State) : (pin e s).Keeps (R s) :=
  pin_keeps (hR.asked s) (hR.trans (hR.asked s) (hR.event e _))

theorem pulse_cell (hR : CellClosed R) (s : State) : (pulse s).Keeps (R s) := by
  refine (pin_cell hR .ckA s).andThen (fun _ h => h) fun _ t ht => ?_
  have hclk := hR.trans ht (hR.clk t (!Config.clkIdle))
  refine Flow.Keeps.andThen ((pin_cell hR .ckI _).mono fun _ h => hR.trans hclk h) (fun _ h => h) fun _ u hu => ?_
  exact hR.trans hu (hR.clk u _)

theorem readCell_cell (hR : CellClosed R) (s : State) : (readCell s).Keeps (R s) := by
  refine (pulse_cell hR s).andThen (fun _ h => h) fun _ t ht => ?_
  have hs : (sample t).Keeps (R s) :=
    sample_keeps (hR.trans ht (hR.asked t)) fun b => hR.trans (hR.trans ht (hR.asked t)) (hR.event _ _)
  refine hs.andThen (fun _ h => h) fun b u hu => ?_
  exact (readHeld_keeps hu).andThen (fun _ h => h) fun r v hv => hR.trans hv (hR.sr v _)

theorem writeCell_cell (hR : CellClosed R) (hd : ∀ s b, R s { s with dout := b }) (s : State) :
    (writeCell s).Keeps (R s) := by
  refine (readHeld_keeps (hR.refl s)).andThen (fun _ h => h) fun r t ht => ?_
  refine Flow.Keeps.andThen ((pin_cell hR _ t).mono fun _ h => hR.trans ht h) (fun _ h => h) fun _ u hu => ?_
  have hdu := hR.trans hu (hd u (r.getLsbD 7))
  refine Flow.Keeps.andThen ((pulse_cell hR _).mono fun _ h => hR.trans hdu h) (fun _ h => h) fun _ v hv => ?_
  exact hR.trans hv (hR.sr v _)

theorem repeatCell_keeps (hR : CellClosed R) {cell : State → Flow Unit} (hc : ∀ s, (cell s).Keeps (R s)) (n : Nat)
    (s : State) : (repeatCell cell n s).Keeps (R s) := by
  induction n generalizing s with
  | zero => exact hR.refl s
  | succ n ih => exact (hc s).andThen (fun _ h => h) fun _ t ht => (ih t).mono fun _ h => hR.trans ht h

end

theorem byteRest_closed : CellClosed ByteRest where
  refl := .refl
  trans := .trans
  asked := consulted_byteRest
  event := lineEvent_byteRest
  clk _ _ := ⟨rfl, rfl, rfl, rfl, rfl, rfl, rfl, rfl⟩
  sr _ _ := ⟨rfl, rfl, rfl, rfl, rfl, rfl, rfl, rfl⟩

/-- A byte out leaves everything alone but `SR`, `DOUT`, `CLK`, `SEQ` and the histories. -/
theorem shiftOut_keeps (b : Byte) (s : State) : (shiftOut b s).Keeps (ByteRest s) := by
  have hw := writeCell_cell byteRest_closed (fun _ _ => ⟨rfl, rfl, rfl, rfl, rfl, rfl, rfl, rfl⟩)
  have hr := repeatCell_keeps byteRest_closed hw 8 { s with sr := some b }
  refine Flow.Keeps.andThen (hr.mono fun t h => (byteRest_closed.sr s _).trans h) (fun _ h => h) fun _ t ht => ?_
  exact ht.trans ⟨rfl, rfl, rfl, rfl, rfl, rfl, rfl, rfl⟩

/-- A byte in leaves everything alone but `SR`, `CLK`, `SEQ` and the histories; `DOUT` too. -/
theorem shiftInByte_keeps (s : State) :
    (shiftInByte s).Keeps fun t => ByteRest s t ∧ t.dout = s.dout := by
  have hcl : CellClosed fun s t => ByteRest s t ∧ t.dout = s.dout :=
    { refl := fun s => ⟨.refl s, rfl⟩
      trans := fun h g => ⟨h.1.trans g.1, g.2.trans h.2⟩
      asked := fun s => ⟨consulted_byteRest s, rfl⟩
      event := fun e s => ⟨lineEvent_byteRest e s, rfl⟩
      clk := fun s b => ⟨byteRest_closed.clk s b, rfl⟩
      sr := fun s r => ⟨byteRest_closed.sr s r, rfl⟩ }
  have hr := repeatCell_keeps hcl (readCell_cell hcl) 8 { s with sr := some 0 }
  refine Flow.Keeps.andThen (hr.mono fun t h => hcl.trans (hcl.sr s _) h) (fun _ h => h) fun _ t ht => ?_
  exact (readHeld_keeps ht).andThen (fun _ h => h) fun b u hu =>
    hcl.trans hu ⟨⟨rfl, rfl, rfl, rfl, rfl, rfl, rfl, rfl⟩, rfl⟩

/-- A direction switch leaves everything alone but `DIR`, `SEQ` and the line trace. -/
theorem switchDir_keeps (d : Dir) (s : State) :
    (switchDir d s).Keeps fun t => ByteRest s { t with dir := s.dir } ∧ t.dout = s.dout ∧ t.sr = s.sr ∧ t.clk = s.clk ∧
      t.bt = s.bt := by
  refine (pin_keeps (P := fun t => ByteRest s { t with dir := s.dir } ∧ t.dout = s.dout ∧ t.sr = s.sr ∧
    t.clk = s.clk ∧ t.bt = s.bt) ?_ ?_).andThen (fun _ h => h) fun _ t ht => ht
  all_goals exact ⟨⟨rfl, rfl, rfl, rfl, rfl, rfl, rfl, rfl⟩, rfl, rfl, rfl, rfl⟩

/-- The two bytes in that end `DRAIN` and `RDREG` leave everything alone but `RXW`, `SR`, `CLK`, `SEQ` and the histories. -/
theorem receiveWord_keeps (s : State) :
    (receiveWord s).Keeps fun t => ByteRest s { t with rxw := s.rxw } ∧ t.dout = s.dout := by
  have hx : ∀ {t u : State}, ByteRest s { t with rxw := s.rxw } → ByteRest t { u with rxw := t.rxw } →
      ByteRest s { u with rxw := s.rxw } := fun h g =>
    ⟨g.cs.trans h.cs, g.dir.trans h.dir, rfl, g.res.trans h.res, g.tq.trans h.tq, g.neg.trans h.neg,
      g.fault.trans h.fault, g.cmds.trans h.cmds⟩
  have hb : ∀ {t u : State}, ByteRest t u → ByteRest t { u with rxw := t.rxw } := fun h =>
    ⟨h.cs, h.dir, rfl, h.res, h.tq, h.neg, h.fault, h.cmds⟩
  refine Flow.Keeps.andThen ((shiftInByte_keeps s).mono fun t h => ⟨hb h.1, h.2⟩) (fun _ h => h) fun hi t ht => ?_
  refine Flow.Keeps.andThen ((shiftInByte_keeps { t with rxw := none }).mono fun u h =>
    ⟨hx ht.1 ⟨h.1.cs, h.1.dir, rfl, h.1.res, h.1.tq, h.1.neg, h.1.fault, h.1.cmds⟩, h.2.trans ht.2⟩) (fun _ h => h)
    fun lo u hu => ?_
  exact hu

/-- Opening and closing a window leave everything alone but `CS`, `SEQ` and the histories. -/
theorem window_keeps (e : LineEvent) (v : ByteEvent) (c : Level) (s : State) :
    ((pin e s).andThen fun _ s => .go () (byteEvent v { s with cs := c })).Keeps fun t =>
      ByteRest s { t with cs := s.cs } ∧ t.dout = s.dout ∧ t.sr = s.sr ∧ t.clk = s.clk := by
  refine (pin_keeps (P := fun t => ByteRest s { t with cs := s.cs } ∧ t.dout = s.dout ∧ t.sr = s.sr ∧ t.clk = s.clk)
    ?_ ?_).andThen (fun _ h => h) fun _ t ht => ⟨⟨rfl, ht.1.dir, ht.1.rxw, ht.1.res, ht.1.tq, ht.1.neg, ht.1.fault,
      ht.1.cmds⟩, ht.2⟩
  all_goals exact ⟨⟨rfl, rfl, rfl, rfl, rfl, rfl, rfl, rfl⟩, rfl, rfl, rfl⟩

theorem openWindow_keeps (s : State) : (openWindow s).Keeps fun t =>
    ByteRest s { t with cs := s.cs } ∧ t.dout = s.dout ∧ t.sr = s.sr ∧ t.clk = s.clk := window_keeps _ _ _ s

theorem closeWindow_keeps (s : State) : (closeWindow s).Keeps fun t =>
    ByteRest s { t with cs := s.cs } ∧ t.dout = s.dout ∧ t.sr = s.sr ∧ t.clk = s.clk := window_keeps _ _ _ s

/-- A window operation whose pin action is answered `ok`, and one whose is answered `fail`. -/
theorem openWindow_ok {s : State} (h : EnvOk s 1) :
    openWindow s = .go () (byteEvent .sel { lineEvent .cs0 (consulted s) with cs := false }) := by
  rw [openWindow, pin_ok h, andThen_go]

theorem openWindow_fail {s : State} (h : answerAt s 0 = .fail) :
    openWindow s = .raised (raiseFault .transportFailure (consulted s)) := by rw [openWindow, pin_fail h, andThen_raised]

theorem closeWindow_ok {s : State} (h : EnvOk s 1) :
    closeWindow s = .go () (byteEvent .desel { lineEvent .cs1 (consulted s) with cs := true }) := by
  rw [closeWindow, pin_ok h, andThen_go]

theorem closeWindow_fail {s : State} (h : answerAt s 0 = .fail) :
    closeWindow s = .raised (raiseFault .transportFailure (consulted s)) := by rw [closeWindow, pin_fail h, andThen_raised]

end Sys2Proof.Machine
end

