-- ==== Sys2Proof/Laws/PerInstr.lean ====
section
/-! SUPPORT. The family of statements made of every instruction as syntax: the fields of its word are well formed
(30_encoding R87, R89). -/

namespace Sys2Proof

/-- The fields of an operation's word pass every check. -/
def Laws.FieldsWellFormed.Statement (i : Instr) : Prop := (fieldsOf i).wf = true

/-- Fields that pass the four checks are well formed. -/
theorem wf_of_checks {f : OpFields} (h : knownOpc f.opc = true ∧ f.z = 0 ∧ (takesAddr f.opc = true ∨ f.a = 0) ∧
    f.v.toNat < 2 ^ immediateBits f.opc) : f.wf = true := by rw [OpFields.wf, (error_eq_none f).mpr h]; rfl

theorem Laws.FieldsWellFormed.sel : Laws.FieldsWellFormed.Statement .sel := rfl

theorem Laws.FieldsWellFormed.desel : Laws.FieldsWellFormed.Statement .desel := rfl

theorem Laws.FieldsWellFormed.dirout : Laws.FieldsWellFormed.Statement .dirout := rfl

theorem Laws.FieldsWellFormed.dirin : Laws.FieldsWellFormed.Statement .dirin := rfl

theorem Laws.FieldsWellFormed.shout (b : Byte) : Laws.FieldsWellFormed.Statement (.shout b) := by
  refine wf_of_checks ⟨rfl, rfl, .inr rfl, ?_⟩
  have h : (b.zeroExtend 16).toNat < 2 ^ 8 := by simpa using by omega
  exact h

theorem Laws.FieldsWellFormed.shin : Laws.FieldsWellFormed.Statement .shin := rfl

theorem Laws.FieldsWellFormed.drain : Laws.FieldsWellFormed.Statement .drain := rfl

theorem Laws.FieldsWellFormed.rdreg (a : RegAddr) : Laws.FieldsWellFormed.Statement (.rdreg a) :=
  wf_of_checks ⟨rfl, rfl, .inl rfl, Nat.one_pos⟩

theorem Laws.FieldsWellFormed.wrreg (a : RegAddr) (v : Word) : Laws.FieldsWellFormed.Statement (.wrreg a v) :=
  wf_of_checks ⟨rfl, rfl, .inl rfl, v.isLt⟩

theorem Laws.FieldsWellFormed.decode : Laws.FieldsWellFormed.Statement .decode := rfl

theorem Laws.FieldsWellFormed.setres (r : Word) : Laws.FieldsWellFormed.Statement (.setres r) :=
  wf_of_checks ⟨rfl, rfl, .inr rfl, r.isLt⟩

theorem Laws.FieldsWellFormed.wait (n : Word) : Laws.FieldsWellFormed.Statement (.wait n) :=
  wf_of_checks ⟨rfl, rfl, .inr rfl, n.isLt⟩

end Sys2Proof
end

