-- ==== Sys2Proof/Tests/Slice0.lean ====
section
/-! SUPPORT. The model's own tests. Expected values come from the tables of 95_test_vectors and from 30_encoding R87 to R89;
after them, for each obligation with hypotheses, a named state and operands that meet all of them together. -/

namespace Sys2Proof.Tests

open Sys2Proof Sys2Proof.Machine

/-! ### Small states -/

/-- `n` answers `ok`. -/
def oks (n : Nat) : List EnvAnswer := List.replicate n (.ok false)

/-- `n` answers `ok`, then a `fail`. -/
def failsAt (n : Nat) : List EnvAnswer := oks n ++ [.fail]

/-- The answers a read of these bits gets: two pin actions and a sample for each. -/
def bitAnswers (bs : List Level) : List EnvAnswer := bs.flatMap fun b => [.ok false, .ok false, .ok b]

/-- Right after reset, with these answers to come. -/
def outside (env : List EnvAnswer) : State := { State.reset with env := env }

/-- In a window, the pin in this direction, with these answers to come. -/
def inWindow (d : Dir) (env : List EnvAnswer) : State := { State.reset with cs := false, dir := d, env := env }

/-- Outside a window, with a received word and a resolution code. -/
def holding (raw : Word) (res : BitVec 2) : State := { State.reset with rxw := some raw, res := res }

/-- The fixture of the vectors: Control 0x4A27, every other register 0, the sample 0x0C80. -/
def fixture : RefDev := refDevStart 0x0C80 fun a => if a = 0x1 then 0x4A27 else 0

/-- What the fixture answers to an operation that stands first, or second after a drain, in a window. -/
def fixtureAnswers (before : List Instr) (i : Instr) : List EnvAnswer :=
  let pre := before.flatMap microSteps
  ((refDevScript fixture (pre ++ microSteps i)).getD []).drop pre.length

/-- The next state of an outcome. -/
def ended (o : Host.Outcome State Fault Refusal) : Option State :=
  match o with
  | .next t => some t
  | .fault _ => none
  | .refused _ => none

/-! ### Well-formedness: one ill-formed term for each check (30_encoding R87, R89) -/

theorem test_wf_unknown_opc : (OpFields.error { opc := 0xD, z := 0, a := 0, v := 0 }) = some .unknownOpc ∧
    (OpFields.wf { opc := 0x0, z := 0, a := 0, v := 0 }) = false := by decide

theorem test_wf_z_not_zero : (OpFields.error { opc := 0x8, z := 1, a := 0, v := 0 }) = some .zNotZero := by decide

theorem test_wf_a_not_zero : (OpFields.error { opc := 0x7, z := 0, a := 1, v := 0 }) = some .aNotZero := by decide

theorem test_wf_v_not_zero : (OpFields.error { opc := 0x1, z := 0, a := 0, v := 1 }) = some .vNotZero ∧
    (OpFields.error { opc := 0x5, z := 0, a := 0, v := 0x100 }) = some .vNotZero ∧
    (OpFields.wf { opc := 0x5, z := 0, a := 0, v := 0xFF }) = true := by decide

/-! ### Decoding: each constructor from its word, written bit by bit (30_encoding R87, R88; 95_test_vectors 2.6) -/

theorem test_decode_sel : decode 0b0001_00000_0000000_0000000000000000#32 = .ok .sel := by decide

theorem test_decode_desel : decode 0b0010_00000_0000000_0000000000000000#32 = .ok .desel := by decide

theorem test_decode_dirout : decode 0b0011_00000_0000000_0000000000000000#32 = .ok .dirout := by decide

theorem test_decode_dirin : decode 0b0100_00000_0000000_0000000000000000#32 = .ok .dirin := by decide

theorem test_decode_shout : decode 0b0101_00000_0000000_0000000010000001#32 = .ok (.shout 0x81) := by decide

theorem test_decode_shin : decode 0b0110_00000_0000000_0000000000000000#32 = .ok .shin := by decide

theorem test_decode_drain : decode 0b0111_00000_0000000_0000000000000000#32 = .ok .drain := by decide

theorem test_decode_rdreg : decode 0b1000_00000_1111111_0000000000000000#32 = .ok (.rdreg 0x7F) := by decide

theorem test_decode_wrreg : decode 0b1001_00000_0000010_0001001000110100#32 = .ok (.wrreg 0x2 0x1234) := by decide

theorem test_decode_decode : decode 0b1010_00000_0000000_0000000000000000#32 = .ok .decode := by decide

theorem test_decode_setres : decode 0b1011_00000_0000000_0000000000001110#32 = .ok (.setres 14) := by decide

theorem test_decode_wait : decode 0b1100_00000_0000000_0000000001100100#32 = .ok (.wait 100) := by decide

/-- The illegal words of 95_test_vectors 2.6. -/
theorem test_decode_illegal : decode 0xD0000000 = .error .unknownOpc ∧ decode 0xE0000000 = .error .unknownOpc ∧
    decode 0xF0000000 = .error .unknownOpc ∧ decode 0x10000001 = .error .vNotZero ∧
    decode 0x88010000 = .error .zNotZero := by decide

theorem test_table_word : decodeTableWord 32 0xC0000064 = some (.wait 100) ∧
    decodeTableWord 32 0x110000000 = none := by decide

/-! ### Operations: the vectors of 95_test_vectors, part 2 -/

/-- 2.1, first row. -/
theorem test_sel : (ended (exec .sel (outside (oks 1)))).map (fun t => (t.cs, t.lt, t.bt, t.outcome)) =
    some (false, [.cs0], [.sel], some .done) := by decide

/-- 2.1, the row in which the environment fails the first pin action. -/
theorem test_sel_fails : (ended (exec .sel (outside [.fail]))).map (fun t => (t.cs, t.fault, t.lt, t.bt)) =
    some (true, 1, [], []) := by decide

/-- 2.1, `DESEL` at reset. -/
theorem test_desel : (ended (exec .desel (outside (oks 1)))).map (fun t => (t.cs, t.lt, t.bt, t.fault)) =
    some (true, [.cs1], [.desel], 0) := by decide

/-- 2.1, `DESEL` in a window whose `CS1` fails. -/
theorem test_desel_fails : (ended (exec .desel (inWindow .input [.fail]))).map (fun t => (t.cs, t.fault, t.lt, t.bt)) =
    some (true, 1, [.cs1], [.desel]) := by decide

/-- 2.1, `DIROUT` at reset. -/
theorem test_dirout : (ended (exec .dirout (outside (oks 1)))).map (fun t => (t.dir, t.lt, t.bt)) =
    some (.output, [.dirO], []) := by decide

/-- 2.1, `DIRIN` at reset. -/
theorem test_dirin : (ended (exec .dirin (outside (oks 1)))).map (fun t => (t.dir, t.lt, t.bt)) =
    some (.input, [.dirI], []) := by decide

/-- 2.2, `SHOUT 0x34`. -/
theorem test_shout : (ended (exec (.shout 0x34) (inWindow .output (oks 24)))).map
      (fun t => (t.lt, t.bt, t.sr, t.dout)) =
    some ([.d false, .ckA, .ckI, .d false, .ckA, .ckI, .d true, .ckA, .ckI, .d true, .ckA, .ckI, .d false, .ckA, .ckI,
      .d true, .ckA, .ckI, .d false, .ckA, .ckI, .d false, .ckA, .ckI], [.out 0x34], some 0x00, false) := by
  decide +kernel

/-- 2.2, `SHOUT 0x81` whose ninth pin action fails: the clock stays at its active level. -/
theorem test_shout_fails : (ended (exec (.shout 0x81) (inWindow .output (failsAt 8)))).map
      (fun t => (t.lt, t.bt, t.sr, t.dout, t.fault)) =
    some ([.d true, .ckA, .ckI, .d false, .ckA, .ckI, .d false, .ckA, .cs1], [.desel], some 0x04, false, 1) ∧
    (ended (exec (.shout 0x81) (inWindow .output (failsAt 8)))).map (fun t => t.clk) = some (!Config.clkIdle) :=
  ⟨by decide +kernel, rfl⟩

/-- 2.2, `SHIN` with the samples 0,0,0,0,1,1,0,0. -/
theorem test_shin : (ended (exec .shin (inWindow .input
      (bitAnswers [false, false, false, false, true, true, false, false])))).map (fun t => (t.bt, t.sr, t.lt.length)) =
    some ([.inp 0x0C], some 0x0C, 24) := by decide +kernel

/-- 2.2, `SHIN` with `DIR` = OUT. -/
theorem test_shin_direction : (ended (exec .shin (inWindow .output []))).map (fun t => (t.cs, t.fault, t.lt, t.bt)) =
    some (true, 4, [.cs1], [.desel]) := by decide

/-- 2.3, `DRAIN` first in a window, `SMP = 0x0C80`. -/
theorem test_drain : (ended (exec .drain (inWindow .input (fixtureAnswers [.sel] .drain)))).map
      (fun t => (t.bt, t.rxw, t.sr, t.dir, t.lt.length)) =
    some ([.inp 0x0C, .inp 0x80], some 0x0C80, some 0x80, .input, 49) := by decide +kernel

/-- 2.3, `RDREG 0x1` after a drain, `DREG[1] = 0x4A27`. -/
theorem test_rdreg : (ended (exec (.rdreg 0x1) (inWindow .input (fixtureAnswers [.sel, .drain] (.rdreg 0x1))))).map
      (fun t => (t.bt, t.rxw, t.sr, t.dout, t.lt.length)) =
    some ([.out 0x81, .inp 0x4A, .inp 0x27], some 0x4A27, some 0x27, true, 74) := by decide +kernel

/-- 2.3, `RDREG 0x1` straight after `SEL`: the fixture gives up part-way. -/
theorem test_rdreg_without_drain : refDevScript fixture (microSteps .sel ++ microSteps (.rdreg 0x1)) = none := by
  decide +kernel

/-- 2.3, `WRREG 0x2, 0x1234` after a drain. -/
theorem test_wrreg : (ended (exec (.wrreg 0x2 0x1234) (inWindow .input (oks 73)))).map
      (fun t => (t.bt, t.sr, t.dir, t.dout, t.lt.length)) =
    some ([.out 0x02, .out 0x12, .out 0x34], some 0x00, .output, false, 73) := by decide +kernel

/-- 2.3, the fixture's register after the `WRREG 0x2, 0x1234` that follows a drain. -/
theorem test_wrreg_commits :
    (refDevReplay { fixture with sel := true, n := 16 } ((ended (exec (.wrreg 0x2 0x1234)
      (inWindow .input (oks 73)))).elim [] fun t => t.lt)).map (fun d => d.dreg 0x2) = some 0x1234 := by
  decide +kernel

/-- 2.4, rows of the positive half and of the negative half, at each end of the resolutions. -/
theorem test_decode_rows :
    [(0x0C87, 0), (0x8008, 0), (0xE6F8, 0), (0xFFFF, 0), (0x0C84, 1), (0xFFFF, 2), (0x8000, 3), (0x9C40, 3)].map
      (fun (p : Word × BitVec 2) => (ended (exec .decode (holding p.1 p.2))).map fun t => (t.tq, t.neg)) =
    [some (some 0x0C80, some false), some (some 0xFFF8, some true), some (some 0x9908, some true),
      some (some 0x8008, some true), some (some 0x0C84, some false), some (some 0x8002, some true),
      some (some 0x0000, some true), some (some 0xE3C0, some true)] := by decide +kernel

/-- 2.4, `DECODE` with no word. -/
theorem test_decode_unwritten : (ended (exec .decode (outside []))).map (fun t => (t.fault, t.lt, t.bt, t.tq)) =
    some (5, [], [], none) := by decide

/-- 2.5. -/
theorem test_setres_rows :
    [13, 14, 15, 16, 0, 12, 17, 65535].map
      (fun (r : Word) => (ended (exec (.setres r) (outside []))).map fun t => t.res) =
    [some 0, some 1, some 2, some 3, some 3, some 3, some 3, some 3] := by decide

/-- 43_host_sequences R190: legal in a window too. -/
theorem test_wait : (ended (exec (.wait 100) (inWindow .input []))).map (fun t => (t.lt, t.bt, t.cs, t.asked)) =
    some ([.w 100], [.w 100], false, 0) := by decide

/-- 2.1, last row: a faulted block refuses. -/
theorem test_refused : (ended (issueWord 0x50000081 { inWindow .output (oks 24) with fault := 2 })).map
      (fun t => (t.fault, t.lt, t.bt, t.outcome, t.env.length)) = some (2, [], [], some .refused, 24) := by decide

/-- 2.6, an illegal word. -/
theorem test_illegal_word : (ended (issueWord 0x70010000 (inWindow .input []))).map
      (fun t => (t.fault, t.cs, t.lt, t.bt)) = some (6, true, [.cs1], [.desel]) := by decide

/-! ### Host computations (95_test_vectors 2.7) -/

theorem test_changeres_value : changeResValue 0x4A27 14 = 0x4A10 ∧ changeResValue 0x4A27 99 = 0x4A30 ∧
    changeResValue 0x003F 13 = 0x0000 ∧ changeResValue 0x0040 16 = 0x0070 := by decide

theorem test_tripenc : tripEncode (251 / 10) = some 0x0C80 ∧ tripEncode (24609375 / 100000000) = some 0x0020 ∧
    tripEncode (-(25390625 / 100000000)) = some 0xFFC0 ∧ tripEncode (-40) = some 0xEC00 ∧ tripEncode 256 = none := by
  decide +kernel

theorem test_tripdec : tripDecode 0x0C80 = 400 ∧ tripDecode 0xFFC0 = 8184 := by decide +kernel

theorem test_fahrenheit : fahrenheit 25 = 77 ∧ fahrenheit (-(565 / 10)) = -(697 / 10) := by decide +kernel

/-- The sequences of part 3 keep the host's obligations; P2's `CHANGERES` is derived from the read of 0x4A27. -/
theorem test_sequences_kept : sequencesKept [{ ops := tempReadOps, reads := [] },
    { ops := regReadOps 0x1 ++ regWriteOps 0x1 0x4A10 ++ [.setres 14], reads := [0x4A27] },
    { ops := regReadOps 0x1 ++ regWriteOps 0x1 0x4A20, reads := [0x4A27] }] = true := by decide +kernel

/-- Outside a window the transport's select and direction primitives are legal (40_transport R113, R114, R115), and a shift
is not (R273); inside, only the drain and one exchange are (43_host_sequences R191). -/
theorem test_primitives_between_windows : windowsKept .closed (.desel :: .dirout :: tempReadOps ++ [.dirin]) = true ∧
    windowsKept .closed [.dirout, .shout 0] = false ∧ windowsKept .closed [.dirin, .shin] = false ∧
    windowsKept .closed [.sel, .dirin, .drain, .desel] = false := by decide

/-- Each obligation broken: no drain (R270), a window left open (R276), a write without a read and one from an older read
(R277), a bare `SETRES` and a write that moves bits 5:4 (R274). -/
theorem test_sequences_broken :
    ([⟨[.sel, .rdreg 0x1, .desel], [0]⟩, ⟨[.sel, .drain], []⟩, ⟨regWriteOps 0x1 0, []⟩,
      ⟨regReadOps 0x1 ++ (regWriteOps 0x1 0 ++ regWriteOps 0x1 0), [0]⟩, ⟨[.setres 14], []⟩,
      ⟨regReadOps 0x1 ++ regWriteOps 0x1 0x4A10, [0x4A27]⟩] : List HostSequence).map
      (fun q => windowsKept .closed q.ops && controlKept none q.reads q.ops) =
    [false, false, false, false, false, false] := by decide +kernel

/-- `RESETSENSOR` without its delays (R278). -/
theorem test_reset_without_delays : sequenceKept
    ⟨regReadOps 0x1 ++ (regWriteOps 0x1 (shutdownValue 0x35) ++ regWriteOps 0x1 (wakeValue 0x35)), [0x35]⟩ = false := by
  have h : isResetSensor 0x35
      (regReadOps 0x1 ++ (regWriteOps 0x1 (shutdownValue 0x35) ++ regWriteOps 0x1 (wakeValue 0x35))) = false :=
    beq_eq_false_iff_ne.mpr fun e => absurd (congrArg List.length e : 12 = 14) (by decide)
  simp only [sequenceKept, h, Bool.or_false, Bool.and_eq_false_imp]
  intro _
  generalize shutdownValue 0x35 = v, wakeValue 0x35 = w
  simp [isChangeRes, controlKept, regReadOps, regWriteOps, Config.addrControl]

/-- `TQ` is read as the signed number it is: 95_test_vectors 2.4, the row 0x8008 at 13 bits. -/
theorem test_host_read_signed : (ended (exec .decode (holding 0x8008 0))).bind (hostRead .tq) = some (-8) ∧
    hostRead .rxw (holding 0x8008 0) = some 0x8008 ∧ hostRead .tq (outside []) = none := by decide +kernel

/-- A `TEMPREAD` that fails returns nothing, though an earlier one left `TQ` (43_host_sequences R191). -/
theorem test_no_stale_temperature : (seqTempRead { outside [.fail] with tq := some 0x0C80 }).2 = none ∧
    (seqTempF { outside [.fail] with tq := some 0x0C80 }).2 = none := by decide +kernel

/-! ### Witnesses: a state and operands that meet the hypotheses of each obligation -/

/-- One state for each of the three clauses. -/
theorem test_witness_SelOpensWindow :
    (Ready (outside (oks 1)) ∧ (outside (oks 1)).cs = true ∧ EnvOk (outside (oks 1)) 1) ∧
    (Ready (outside [.fail]) ∧ (outside [.fail]).cs = true ∧ FirstFail (outside [.fail]) 0) ∧
    (Ready (inWindow .input []) ∧ (inWindow .input []).cs = false) := by decide

/-- In and out of a window, answered `ok` and `fail`. -/
theorem test_witness_DeselClosesWindow :
    (Ready (inWindow .input (oks 1)) ∧ EnvOk (inWindow .input (oks 1)) 1) ∧
    (Ready (outside (oks 1)) ∧ EnvOk (outside (oks 1)) 1) ∧
    (Ready (inWindow .input [.fail]) ∧ FirstFail (inWindow .input [.fail]) 0) := by decide

theorem test_witness_DiroutSwitchesToOutput : (Ready (outside (oks 1)) ∧ EnvOk (outside (oks 1)) 1) ∧
    (Ready (outside [.fail]) ∧ FirstFail (outside [.fail]) 0) := by decide

theorem test_witness_DirinSwitchesToInput :
    (Ready (inWindow .output (oks 1)) ∧ EnvOk (inWindow .output (oks 1)) 1) ∧
    (Ready (inWindow .output [.fail]) ∧ FirstFail (inWindow .output [.fail]) 0) := by decide

/-- One state for each clause; the failure at the first and at the last event. -/
theorem test_witness_ShoutShiftsByteOut :
    (Ready (outside []) ∧ (outside []).cs = true) ∧
    (Ready (inWindow .input []) ∧ (inWindow .input []).cs = false ∧ (inWindow .input []).dir = .input) ∧
    (Ready (inWindow .output (oks 24)) ∧ (inWindow .output (oks 24)).cs = false ∧
      (inWindow .output (oks 24)).dir = .output ∧ EnvOk (inWindow .output (oks 24)) 24) ∧
    FirstFail (inWindow .output (failsAt 0)) 0 ∧ FirstFail (inWindow .output (failsAt 23)) 23 := by decide

theorem test_witness_ShinShiftsByteIn :
    (Ready (outside []) ∧ (outside []).cs = true) ∧
    (Ready (inWindow .output []) ∧ (inWindow .output []).cs = false ∧ (inWindow .output []).dir = .output) ∧
    (Ready (inWindow .input (oks 24)) ∧ (inWindow .input (oks 24)).cs = false ∧
      (inWindow .input (oks 24)).dir = .input ∧ EnvOk (inWindow .input (oks 24)) 24) ∧
    FirstFail (inWindow .input (failsAt 0)) 0 ∧ FirstFail (inWindow .input (failsAt 23)) 23 := by decide

/-- One state for each clause; the failure on both sides of the end of the first byte. -/
theorem test_witness_DrainReceivesWord :
    (Ready (outside []) ∧ (outside []).cs = true) ∧
    (Ready (inWindow .output (oks 49)) ∧ (inWindow .output (oks 49)).cs = false ∧
      EnvOk (inWindow .output (oks 49)) 49) ∧
    ∀ k ∈ [0, 24, 25, 48], FirstFail (inWindow .output (failsAt k)) k := by decide +kernel

theorem test_witness_RdregReadsRegister :
    (Ready (outside []) ∧ (outside []).cs = true) ∧
    (Ready (inWindow .input (oks 74)) ∧ (inWindow .input (oks 74)).cs = false ∧ EnvOk (inWindow .input (oks 74)) 74) ∧
    ∀ k ∈ [0, 24, 25, 49, 50, 73], FirstFail (inWindow .input (failsAt k)) k := by decide +kernel

theorem test_witness_WrregWritesRegister :
    (Ready (outside []) ∧ (outside []).cs = true) ∧
    (Ready (inWindow .input (oks 73)) ∧ (inWindow .input (oks 73)).cs = false ∧ EnvOk (inWindow .input (oks 73)) 73) ∧
    ∀ k ∈ [0, 24, 25, 48, 49, 72], FirstFail (inWindow .input (failsAt k)) k := by decide +kernel

theorem test_witness_DecodeStoresTemperature :
    (Ready (holding 0x8008 0) ∧ (holding 0x8008 0).rxw = some 0x8008) ∧
    (Ready (inWindow .input []) ∧ (inWindow .input []).rxw = none) := by decide

theorem test_witness_SetresSelectsResolution : Ready (outside []) := by decide

theorem test_witness_WaitRecordsDelay : Ready (inWindow .input []) := by decide

/-- A state for each of the two clauses. -/
theorem test_witness_FaultEntryDeselects : (inWindow .input []).cs = false ∧ (outside []).cs = true := by decide

/-- A fault of each cause that an operation can raise. -/
theorem test_witness_CausesAsListed :
    (∃ t, exec .desel (outside [.fail]) = .next t ∧ t.outcome = some (.fault .transportFailure)) ∧
    (∃ t, exec .drain (outside []) = .next t ∧ t.outcome = some (.fault .notSelected)) ∧
    (∃ t, exec .sel (inWindow .input []) = .next t ∧ t.outcome = some (.fault .reentry)) ∧
    (∃ t, exec .shin (inWindow .output []) = .next t ∧ t.outcome = some (.fault .dirViolation)) ∧
    ∃ t, exec .decode (outside []) = .next t ∧ t.outcome = some (.fault .unwritten) :=
  ⟨⟨_, rfl, by decide⟩, ⟨_, rfl, by decide⟩, ⟨_, rfl, by decide⟩, ⟨_, rfl, by decide⟩, ⟨_, rfl, by decide⟩⟩

/-- An illegal word of 95_test_vectors 2.6, outside and in a window. -/
theorem test_witness_IllegalWordFaults : (∀ r ∈ opTable, r.selects 0x70010000 = false) ∧
    (cutFields 0x70010000).wf = false ∧ Ready (outside []) ∧ Ready (inWindow .input []) := by decide

theorem test_witness_FaultedBlockRefusesEveryWord :
    let s := { outside [] with fault := 2 }
    s.seq = .idle ∧ s.fault ≠ 0 := by decide

/-- The first and the last micro-step of `RDREG`. -/
theorem test_witness_TransportFailureIsPrecise : ∀ k ∈ [0, 73], Ready (inWindow .input (failsAt k)) ∧
    checksPass (.rdreg 0x1) (inWindow .input (failsAt k)) = true ∧ k < (microSteps (.rdreg 0x1)).length ∧
    FirstFail (inWindow .input (failsAt k)) k := by decide +kernel

/-- Where the clauses on `DOUT` and `CLK` meet: `k` of 0, 1, 2, 3 and 23. -/
theorem test_witness_ShoutFailureLeavesPartialByte : ∀ k ∈ [0, 1, 2, 3, 23], Ready (inWindow .output (failsAt k)) ∧
    (inWindow .output (failsAt k)).cs = false ∧ (inWindow .output (failsAt k)).dir = .output ∧ k < 24 ∧
    FirstFail (inWindow .output (failsAt k)) k := by decide +kernel

/-- Where the clauses on `SR`, `DOUT`, `DIR` and `CLK` meet, for each of the four operations. -/
theorem test_witness_FailureLeavesPartialRegisters :
    ∀ k ∈ [0, 1, 2, 3, 23, 24, 25, 26, 27, 48, 49, 50, 72, 73], Ready (inWindow .input (failsAt k)) ∧
      (inWindow .input (failsAt k)).cs = false ∧ (inWindow .input (failsAt k)).dir = .input ∧
      FirstFail (inWindow .input (failsAt k)) k := by decide +kernel

/-- `DRAIN` and `RDREG`, done, and failed on both sides of the first byte's end and at the last step. -/
theorem test_witness_ReceiveWordIsWholeOrNone :
    (Ready (inWindow .input (oks 74)) ∧ (inWindow .input (oks 74)).cs = false ∧ EnvOk (inWindow .input (oks 74)) (1 + 48) ∧
      EnvOk (inWindow .input (oks 74)) (26 + 48)) ∧
    (∀ k ∈ [0, 24, 25, 48], k < 1 + 48 ∧ FirstFail (inWindow .input (failsAt k)) k) ∧
    ∀ k ∈ [0, 49, 50, 73], k < 26 + 48 ∧ FirstFail (inWindow .input (failsAt k)) k := by decide +kernel

theorem test_witness_EveryFaultEndsDeselected : ∃ t, exec .shin (inWindow .output []) = .next t ∧
    (inWindow .output []).fault = 0 ∧ t.fault ≠ 0 := ⟨_, rfl, by decide⟩

theorem test_witness_BusyBlockHasNoMove : ({ outside [] with seq := .running .shin 0 3 } : State).seq ≠ .idle := by
  decide

/-- Each of the four has a next state, done and faulted. -/
theorem test_witness_LineOperationsFrame : ∀ i ∈ [Instr.sel, .desel, .dirout, .dirin],
    (∃ t, exec i (outside (oks 1)) = .next t ∧ t.fault = (outside (oks 1)).fault) ∧
    (∃ t, exec i (outside [.fail]) = .next t ∧ t.fault ≠ (outside [.fail]).fault) := by
  intro i hi
  fin_cases hi <;> exact ⟨⟨_, rfl, by decide⟩, ⟨_, rfl, by decide⟩⟩

theorem test_witness_ByteOperationsFrame :
    (∃ t, exec (.shout 0x81) (inWindow .output (oks 24)) = .next t ∧ t.fault = (inWindow .output (oks 24)).fault) ∧
    ∃ t, exec .shin (inWindow .input (oks 24)) = .next t ∧ t.fault = (inWindow .input (oks 24)).fault :=
  ⟨⟨_, rfl, by decide +kernel⟩, ⟨_, rfl, by decide +kernel⟩⟩

theorem test_witness_WordOperationsFrame :
    (∃ t, exec .drain (inWindow .input (oks 49)) = .next t ∧ t.fault = (inWindow .input (oks 49)).fault) ∧
    (∃ t, exec (.rdreg 0x1) (inWindow .input (oks 74)) = .next t ∧ t.fault = (inWindow .input (oks 74)).fault) ∧
    ∃ t, exec (.wrreg 0x1 0x1234) (inWindow .input (oks 73)) = .next t ∧ t.fault = (inWindow .input (oks 73)).fault :=
  ⟨⟨_, (exec_eq _ _).trans (operation_ready rfl rfl), by decide +kernel⟩,
    ⟨_, (exec_eq _ _).trans (operation_ready rfl rfl), by decide +kernel⟩,
    ⟨_, (exec_eq _ _).trans (operation_ready rfl rfl), by decide +kernel⟩⟩

/-- `DECODE` with and without a word, `SETRES` and `WAIT`. -/
theorem test_witness_ComputationsFrame :
    (∃ t, exec .decode (holding 0x0C80 0) = .next t ∧ t.fault = (holding 0x0C80 0).fault) ∧
    (∃ t, exec .decode (outside []) = .next t ∧ t.fault ≠ (outside []).fault) ∧
    (∃ t, exec (.setres 14) (outside []) = .next t) ∧ ∃ t, exec (.wait 100) (outside []) = .next t :=
  ⟨⟨_, rfl, by decide⟩, ⟨_, rfl, by decide⟩, ⟨_, rfl⟩, ⟨_, rfl⟩⟩

/-- Each clause has a step that changes its element. -/
theorem test_witness_EachElementHasItsWriters :
    (∃ t, exec (.setres 15) (holding 0 0) = .next t ∧ t.res ≠ (holding 0 0).res) ∧
    (∃ t, exec .decode (holding 0x8008 0) = .next t ∧ t.tq ≠ none ∧ t.neg ≠ none) ∧
    (∃ t, exec .drain (inWindow .output (oks 49)) = .next t ∧ t.rxw ≠ none ∧ t.sr ≠ none ∧ t.dir ≠ .output) ∧
    (∃ t, exec (.shout 0x81) (inWindow .output (oks 24)) = .next t ∧ t.dout ≠ false) ∧
    ∃ t, exec .sel (inWindow .input []) = .next t ∧ t.cs ≠ false ∧ t.fault ≠ 0 :=
  ⟨⟨_, rfl, by decide⟩, ⟨_, rfl, by decide⟩, ⟨_, rfl, by decide +kernel⟩, ⟨_, rfl, by decide +kernel⟩,
    ⟨_, rfl, by decide⟩⟩

/-- A step for each clause: a window opened, one closed, one closed by a fault. -/
theorem test_witness_SelectLineWriters :
    (∃ t, exec .sel (outside (oks 1)) = .next t ∧ (outside (oks 1)).cs = true ∧ t.cs = false) ∧
    (∃ t, exec .desel (inWindow .input (oks 1)) = .next t ∧ (inWindow .input (oks 1)).fault = 0) ∧
    ∃ t, exec .shin (inWindow .output []) = .next t ∧ t.fault ≠ (inWindow .output []).fault :=
  ⟨⟨_, rfl, by decide⟩, ⟨_, rfl, by decide⟩, ⟨_, rfl, by decide⟩⟩

/-- A fault taken; a faulted block given a word, and one given a reset. -/
theorem test_witness_FaultIsSticky :
    (∃ t, step { outside [] with cmds := [.issue 0x60000000] } = .next t ∧ t.fault = 2) ∧
    (∃ t, step { outside [] with fault := 2, cmds := [.issue 0x10000000] } = .next t ∧ t.fault = 2) ∧
    ∃ t, step { outside [] with fault := 2, cmds := [.reset] } = .next t ∧ t.fault = 0 :=
  ⟨⟨_, rfl, by decide⟩, ⟨_, rfl, by decide⟩, ⟨_, rfl, by decide⟩⟩

theorem test_witness_HistoriesOnlyGrow : ∃ t, exec .sel (outside (oks 1)) = .next t ∧ t.lt ≠ [] := ⟨_, rfl, by decide⟩

/-- One state for the operations of each kind. -/
theorem test_witness_EventCountsAsListed :
    (∀ i ∈ [Instr.drain, .rdreg 0x1, .wrreg 0x1 0, .shin, .desel, .dirin, .dirout, .wait 1, .setres 13],
      Ready (inWindow .input (oks 74)) ∧ checksPass i (inWindow .input (oks 74)) = true ∧
      EnvOk (inWindow .input (oks 74)) (microSteps i).length) ∧
    (checksPass (.shout 0x81) (inWindow .output (oks 24)) = true ∧ EnvOk (inWindow .output (oks 24)) 24) ∧
    (checksPass .sel (outside (oks 1)) = true ∧ EnvOk (outside (oks 1)) 1) ∧
    checksPass .decode (holding 0x0C80 0) = true := by decide +kernel

/-- A `SHOUT` cut short after its second `CKA`. -/
theorem test_witness_DataBeforeClock : ∃ t es, exec (.shout 0x81) (inWindow .output (failsAt 5)) = .next t ∧
    t.lt = (inWindow .output (failsAt 5)).lt ++ es ∧ es[1]? = some .ckA ∧ es[2]? = some .ckI ∧ es[4]? = some .ckA :=
  ⟨_, [.d true, .ckA, .ckI, .d false, .ckA, .cs1], rfl, by decide +kernel⟩

/-- The first write cell of a `RDREG`, whose command byte begins with a 1. -/
theorem test_witness_DataBeforeClock_rdreg : ∃ t es, exec (.rdreg 0x1) (inWindow .input (failsAt 4)) = .next t ∧
    t.lt = (inWindow .input (failsAt 4)).lt ++ es ∧ es[2]? = some .ckA ∧ es[3]? = some .ckI :=
  ⟨_, [.dirO, .d true, .ckA, .ckI, .cs1], rfl, by decide +kernel⟩

theorem test_witness_AnyWordMayBeReceived : Ready (inWindow .input []) ∧ (inWindow .input []).cs = false := by decide

/-- The invariant at reset, and a step from there. -/
theorem test_witness_StepKeepsBlockInvariant : BlockInv { outside (oks 1) with cmds := [.issue 0x10000000] } ∧
    ∃ t, step { outside (oks 1) with cmds := [.issue 0x10000000] } = .next t ∧ t.lt = [.cs0] :=
  ⟨⟨rfl, fun _ => rfl, by decide, by decide, rfl, ⟨rfl, rfl, rfl, rfl⟩, rfl⟩, _, rfl, by decide⟩

theorem test_witness_StepRunsIssuedOperation :
    decode 0x60000000 = .ok .shin ∧ decodeTableWord 32 0x60000000 = some .shin ∧
    ({ outside [] with cmds := [.issue 0x60000000] } : State).cmds = .issue 0x60000000 :: [] := by decide

theorem test_witness_ResetCommandResetsBlock :
    let s : State := { inWindow .output [] with fault := 1, cmds := [.reset, .issue 0x10000000] }
    s.cmds = .reset :: [.issue 0x10000000] ∧ s.seq = .idle := by decide

theorem test_witness_IdleHostLeavesBlockAlone : (outside []).cmds = [] := by decide

theorem test_witness_EncodeOfDecode : decode 0x807F0000 = .ok (.rdreg 0x7F) := by decide

/-- A word that a row selects, one row that selects it, and a word for each clause on operands. -/
theorem test_witness_DecoderFollowsTable :
    (∃ r ∈ opTable, r.selects 0x807F0000 = true ∧ r.mnemonic = "RDREG") ∧
    decode 0x500000FF = .ok (.shout 0xFF) ∧ decode 0x80000000 = .ok (.rdreg 0x0) ∧
    decode 0x907FFFFF = .ok (.wrreg 0x7F 0xFFFF) ∧ decode 0xB0000000 = .ok (.setres 0) ∧
    decode 0xC000FFFF = .ok (.wait 0xFFFF) :=
  ⟨⟨⟨"RDREG", 0x80000000, 0xFF80FFFF⟩, by decide, by decide, rfl⟩, by decide⟩

/-- Two words that differ below 13 bits alone. -/
theorem test_witness_DecodeRange :
    (0x0C87 : Word).toNat / 2 ^ (16 - resBits .r13) = (0x0C80 : Word).toNat / 2 ^ (16 - resBits .r13) := by decide

theorem test_witness_DecodeUsesSelectedResolution : Ready (holding 0x1234 0) ∧ (holding 0x1234 0).rxw = some 0x1234 := by
  decide

/-- The bits where the clauses meet. -/
theorem test_witness_ChangeResMaskQuirk : ∀ k ∈ [0, 3, 4, 5, 6, 15], k < 16 := by decide

theorem test_witness_OneShotMovesTwoBits : ∀ k ∈ [0, 3, 4, 5, 6, 15], k < 16 := by decide

theorem test_witness_TripCodecScalesBySixteen : ∀ n ∈ [0, 100, 1023], n < 1024 := by decide

/-- Done, and failed at the first and the last event. -/
theorem test_witness_TempReadDecodesSample : Ready (outside (oks 51)) ∧ (outside (oks 51)).cs = true ∧
    EnvOk (outside (oks 51)) 51 ∧ FirstFail (outside (failsAt 0)) 0 ∧ FirstFail (outside (failsAt 50)) 50 := by
  decide +kernel

theorem test_witness_TempFConvertsReading : Ready (outside (oks 51)) ∧ (outside (oks 51)).cs = true ∧
    EnvOk (outside (oks 51)) 51 ∧ FirstFail (outside (failsAt 0)) 0 ∧ FirstFail (outside (failsAt 50)) 50 := by
  decide +kernel

theorem test_witness_RegReadReturnsWord : Ready (outside (oks 125)) ∧ (outside (oks 125)).cs = true ∧
    EnvOk (outside (oks 125)) 125 := by decide +kernel

theorem test_witness_RegWriteSendsWord : Ready (outside (oks 124)) ∧ (outside (oks 124)).cs = true ∧
    EnvOk (outside (oks 124)) 124 := by decide +kernel

/-- Done, and failed at the first event, in the write and at the last event. -/
theorem test_witness_ChangeResWritesThenSelects : Ready (outside (oks 249)) ∧ (outside (oks 249)).cs = true ∧
    EnvOk (outside (oks 249)) 249 ∧ ∀ k ∈ [0, 200, 248], FirstFail (outside (failsAt k)) k := by decide +kernel

theorem test_witness_ResetSensorSequence : Ready (outside (oks 373)) ∧ (outside (oks 373)).cs = true ∧
    EnvOk (outside (oks 373)) 373 := by decide +kernel

theorem test_witness_OneShotReadsThenWrites : Ready (outside (oks 249)) ∧ (outside (oks 249)).cs = true ∧
    EnvOk (outside (oks 249)) 249 := by decide +kernel

/-- Thresholds with encodings, and one without (95_test_vectors 2.7). -/
theorem test_witness_SetTripWritesLowThenHigh : tripEncode 25 = some 0x0C80 ∧ tripEncode 100 = some 0x3200 ∧
    tripEncode 256 = none ∧ Ready (outside (oks 248)) ∧ (outside (oks 248)).cs = true ∧
    EnvOk (outside (oks 248)) 248 := by decide +kernel

theorem test_witness_GetTripReadsLowThenHigh : Ready (outside (oks 250)) ∧ (outside (oks 250)).cs = true ∧
    EnvOk (outside (oks 250)) 250 := by decide +kernel

/-- `DECODE` alone, which faults, and a `DESEL` and a `DIROUT` outside a window, whose pin fails. -/
theorem test_witness_KeptWindowsEndDeselected :
    (windowsKept .closed tempReadOps = true ∧ windowsKept .closed [.decode] = true ∧
      windowsKept .closed [.desel, .dirout] = true) ∧ (Ready (outside []) ∧ (outside []).cs = true) ∧
    (∃ t, runOps [.decode] (outside []) = .next t ∧ t.fault = 5) ∧
    ∀ k < 2, (ended (runOps [.desel, .dirout] (outside (failsAt k)))).map (fun t => (t.cs, t.fault)) = some (true, 1) :=
  ⟨by decide, by decide, ⟨_, rfl, by decide⟩, by decide +kernel⟩

/-- 30_encoding R92, the spelling of 95_test_vectors part 3. -/
theorem test_assembly : assembly (.wait 100) = "WAIT 100" ∧ assembly (.wrreg 2 255) = "WRREG 2, 255" := by decide +kernel

end Sys2Proof.Tests
end

section
/-! SUPPORT. Where the shutdown and the one-shot bit of the Control register can lie (00_scope R6), and what the value
`ONESHOT` writes does with them (43_host_sequences R201). -/

namespace Sys2Proof

/-! ### The legal bits of the Control register (00_scope R6) -/

theorem Config.legalBit_lt {k : Nat} (h : k < 14) : Config.legalBit k < 16 := by
  unfold Config.legalBit
  split <;> omega

theorem Config.legalBit_ne_four (k : Nat) : Config.legalBit k ≠ 4 := by
  unfold Config.legalBit
  split <;> omega

theorem Config.legalBit_ne_five (k : Nat) : Config.legalBit k ≠ 5 := by
  unfold Config.legalBit
  split <;> omega

theorem Config.legalBit_injective : Function.Injective Config.legalBit := by
  intro j k h
  unfold Config.legalBit at h
  split at h <;> split at h <;> omega

/-! ### The two chosen bits, whatever the free indexes are (assumption 9) -/

theorem Config.sdBit_lt : Config.sdBit < 16 := Config.legalBit_lt Config.sdIndex.isLt

theorem Config.osBit_lt : Config.osBit < 16 := by
  apply Config.legalBit_lt
  split <;> omega

/-- The one-shot bit's index counts past the shutdown bit's, so the two legal bits differ. -/
theorem Config.sdBit_ne_osBit : Config.sdBit ≠ Config.osBit := by
  apply Config.legalBit_injective.ne
  split <;> omega

theorem Config.masks_getLsbD {k : Nat} (hk : k < 16) :
    (Config.sdMask ||| Config.osMask).getLsbD k = decide (k = Config.sdBit ∨ k = Config.osBit) := by
  simp [Config.sdMask, Config.osMask, hk]

end Sys2Proof

namespace Sys2Proof.Machine

/-! ### The value `ONESHOT` writes (43_host_sequences R201) -/

theorem oneShotValue_true (c : Word) : oneShotValue true c = c ||| (Config.sdMask ||| Config.osMask) :=
  BitVec.or_assoc ..

theorem oneShotValue_false (c : Word) : oneShotValue false c = c &&& ~~~ (Config.sdMask ||| Config.osMask) := rfl

theorem oneShotValue_getLsbD (e : Bool) (c : Word) {k : Nat} (hk : k < 16) :
    (oneShotValue e c).getLsbD k = if k = Config.sdBit ∨ k = Config.osBit then e else c.getLsbD k := by
  cases e with
  | true =>
    rw [oneShotValue_true, BitVec.getLsbD_or, Config.masks_getLsbD hk]
    split <;> simp [*]
  | false =>
    rw [oneShotValue_false, BitVec.getLsbD_and, BitVec.getLsbD_not, Config.masks_getLsbD hk]
    split <;> simp [*]

/-- Settles O49: the two positions are those the free indexes choose, and `ONESHOT` is read bit by bit. -/
theorem oneShotMovesTwoBits : Obligations.OneShotMovesTwoBits :=
  ⟨Config.sdBit, Config.osBit, Config.sdBit_lt, Config.osBit_lt, Config.sdBit_ne_osBit,
    Config.legalBit_ne_four _, Config.legalBit_ne_five _, Config.legalBit_ne_four _, Config.legalBit_ne_five _,
    rfl, rfl, fun e c _ hk => oneShotValue_getLsbD e c hk⟩

end Sys2Proof.Machine
end

section
/-! SUPPORT. What a step is: the host's next command, taken off its list (70_reset_and_hazards R283, R285), and the
order in which an issued word is checked (60_exceptions R239); the values after reset (10_state R36). -/

namespace Sys2Proof.Machine

/-! ### The host's commands -/

theorem step_issue {s : State} {w : OpBits} {rest : List HostCmd} (h : s.cmds = .issue w :: rest) :
    step s = issueWord w { s with cmds := rest } := by simp only [step, nextCommand, h, runCommand]

/-- All a step's next state can come from: nothing issued, a word, or a reset between operations. -/
theorem step_next {s t : State} (h : step s = .next t) :
    t = s ∨ (∃ w rest, s.cmds = .issue w :: rest ∧ issueWord w { s with cmds := rest } = .next t) ∨
      ∃ rest, s.cmds = .reset :: rest ∧ t = resetBlock { s with cmds := rest } := by
  cases hc : s.cmds with
  | nil => exact .inl (by simpa [step, nextCommand, hc] using h.symm)
  | cons c rest =>
    cases c with
    | issue w => exact .inr (.inl ⟨w, rest, rfl, step_issue hc ▸ h⟩)
    | reset =>
      simp only [step, nextCommand, hc, runCommand, resetCommand] at h
      split at h
      · cases h
      · exact .inr (.inr ⟨rest, rfl, by simpa using h.symm⟩)

/-! ### Issued words -/

theorem issueWord_decoded {w : OpBits} {i : Instr} (h : decode w = .ok i) (s : State) : issueWord w s = exec i s := by
  simp only [issueWord, h]

/-- All an issued word's next state can be: refused, the end of an operation's pseudocode, or the fault `IllegalOp`. -/
theorem issueWord_next {w : OpBits} {s t : State} (h : issueWord w s = .next t) :
    s.seq = .idle ∧ ((s.fault ≠ 0 ∧ t = refuseOp s) ∨ (s.fault = 0 ∧
      ((∃ i, exec i s = .next t) ∨ t = raiseFault .illegalOp s))) := by
  unfold issueWord at h
  split at h
  · next i hi =>
    obtain ⟨hseq, ⟨hf, -⟩ | ⟨hf, rfl⟩⟩ := exec_next h
    · exact ⟨hseq, .inr ⟨hf, .inl ⟨i, h⟩⟩⟩
    · exact ⟨hseq, .inl ⟨hf, rfl⟩⟩
  · obtain ⟨hseq, ⟨hf, rfl⟩ | ⟨hf, rfl⟩⟩ := guarded_next h
    · exact ⟨hseq, .inr ⟨hf, .inr rfl⟩⟩
    · exact ⟨hseq, .inl ⟨hf, rfl⟩⟩

/-- A faulted block refuses every word, legal or not (60_exceptions R242). -/
theorem issueWord_faulted {s : State} (hs : s.seq = .idle) (hf : s.fault ≠ 0) (w : OpBits) :
    issueWord w s = .next (refuseOp s) := by
  unfold issueWord
  split
  · rw [exec_eq]; exact guarded_faulted hs hf
  · exact guarded_faulted hs hf

/-! ### A word of the opcode table -/

theorem decodeTableWord_some {nbits w : Nat} {i : Instr} (h : decodeTableWord nbits w = some i) :
    w < 2 ^ nbits ∧ decode (BitVec.ofNat 32 w) = .ok i := by
  unfold decodeTableWord at h
  split at h
  · next hw => split at h <;> simp_all
  · cases h

theorem step_placeWord (s : State) (w : OpBits) : step (placeWord s w) = issueWord w s := rfl

/-- Settles O37: a step issues the host's next word, and a word placed leaves the rest of the state as it was. -/
theorem stepRunsIssuedOperation : Obligations.StepRunsIssuedOperation := by
  refine ⟨fun s w rest i hc hw => ?_, fun s nbits w i h => ?_⟩
  · rw [step_issue hc, issueWord_decoded hw]
  · obtain ⟨hlt, hw⟩ := decodeTableWord_some h
    rw [State.withFetchWord, Nat.mod_eq_of_lt hlt, step_placeWord, issueWord_decoded hw]

/-! ### Reset -/

theorem resCode_resBits (r : Resolution) :
    resCode (resBits r) = match r with | .r13 => 0 | .r14 => 1 | .r15 => 2 | .r16 => 3 := by cases r <;> rfl

/-- Settles O36: every element but `RES` is given its value outright; `RES` is the code of the default resolution. -/
theorem resetValuesAsListed : Obligations.ResetValuesAsListed :=
  ⟨rfl, rfl, rfl, rfl, rfl, rfl, rfl, rfl, resCode_resBits Config.resDefault, rfl, rfl, rfl, rfl⟩

end Sys2Proof.Machine
end

section
/-! SUPPORT. The invariant of the block. Inside an operation it holds in two strengths: `InStep` where the next
micro-step may fail and fault entry is taken, `AtRest` where the clock is back at its idle level and the operation may
end. -/

namespace Sys2Proof.Machine

/-! ### A stretch with one condition on fault entry and another on going on -/

/-- A stretch goes on in a state with `Q`, or fault entry was taken in a state with `P`; `Keeps` is the case of one
condition for both. -/
def Flow.Ends {α : Type} (P Q : State → Prop) (f : Flow α) : Prop :=
  match f with
  | .go _ t => Q t
  | .raised t => ∃ c u, t = raiseFault c u ∧ P u

section
variable {α β : Type} {P Q R : State → Prop}

theorem Flow.Keeps.ends {f : Flow α} (h : f.Keeps Q) (hpq : ∀ t, Q t → P t) : f.Ends P Q := by
  cases f with
  | go a t => exact h
  | raised t => exact Flow.Keeps.mono (f := (Flow.raised t : Flow α)) h hpq

theorem Flow.Ends.andThen {f : Flow α} {k : α → State → Flow β} (hf : f.Ends P Q)
    (hk : ∀ a t, Q t → (k a t).Ends P R) : (f.andThen k).Ends P R := by
  cases f with
  | go a t => exact hk a t hf
  | raised t => exact hf

/-- The end of an operation: done in a state with `Q`, or faulted in one with `P`. -/
theorem Flow.Ends.final {f : Flow Unit} (h : f.Ends P Q) :
    (∃ u, Q u ∧ f.final = { u with seq := .idle, outcome := some .done }) ∨ ∃ c u, P u ∧ f.final = raiseFault c u := by
  cases f with
  | go a t => exact .inl ⟨t, h, rfl⟩
  | raised t => obtain ⟨c, u, rfl, hu⟩ := h; exact .inr ⟨c, u, hu, rfl⟩

theorem pin_ends {e : LineEvent} {s : State} (h : P (consulted s)) :
    (pin e s).Ends P (· = lineEvent e (consulted s)) := by
  unfold pin; split
  · exact rfl
  · exact ⟨_, _, rfl, h⟩

theorem repeatCell_ends {cell : State → Flow Unit} (hc : ∀ s, Q s → (cell s).Ends P Q) (n : Nat) {s : State} (h : Q s) :
    (repeatCell cell n s).Ends P Q := by
  induction n generalizing s with
  | zero => exact h
  | succ n ih => exact (hc s h).andThen fun _ _ ht => ih ht

end

/-! ### The histories and the lines -/

/-- What the invariant says whatever the fault: `TQ` and `NEG` hold values together, the lines and the windows are where
`LT` says. -/
abbrev Recorded (s : State) : Prop :=
  s.tq.isSome = s.neg.isSome ∧ LinesFollowTrace s ∧ withoutBytes s.bt = windowEvents s.lt

/-- Where fault entry may be taken: no fault recorded yet, and the histories agree with the lines. -/
abbrev InStep (s : State) : Prop := s.fault = 0 ∧ Recorded s

/-- Where an operation may begin and end: the clock rests as well (10_state R23). -/
abbrev AtRest (s : State) : Prop := s.clk = Config.clkIdle ∧ InStep s

theorem withoutBytes_append (bs cs : List ByteEvent) :
    withoutBytes (bs ++ cs) = withoutBytes bs ++ withoutBytes cs := List.filter_append ..

theorem windowEvents_append (es fs : List LineEvent) :
    windowEvents (es ++ fs) = windowEvents es ++ windowEvents fs := List.filterMap_append ..

/-- From `s` to `t` the event `e` was recorded, and lines and windows moved as it says. -/
structure Moves (e : LineEvent) (s t : State) : Prop where
  lt : t.lt = s.lt ++ [e]
  cs : t.cs = csAfter e s.cs
  clk : t.clk = clkAfter e s.clk
  dir : t.dir = dirAfter e s.dir
  dout : t.dout = doutAfter e s.dout
  windows : withoutBytes t.bt = withoutBytes s.bt ++ windowEvents [e]
  tq : t.tq = s.tq
  neg : t.neg = s.neg

theorem Moves.linesFollowTrace {e : LineEvent} {s t : State} (m : Moves e s t) (h : LinesFollowTrace s) :
    LinesFollowTrace t := by
  obtain ⟨hcs, hclk, hdir, hdout⟩ := h
  simp only [LinesFollowTrace, m.lt, m.cs, m.clk, m.dir, m.dout, List.foldl_append, List.foldl_cons, List.foldl_nil,
    ← hcs, ← hclk, ← hdir, ← hdout, and_self]

theorem Moves.recorded {e : LineEvent} {s t : State} (m : Moves e s t) (h : Recorded s) : Recorded t := by
  obtain ⟨hread, hlines, hwin⟩ := h
  refine ⟨by rw [m.tq, m.neg, hread], m.linesFollowTrace hlines, ?_⟩
  rw [m.windows, m.lt, windowEvents_append, hwin]

theorem recorded_byteEvent {s : State} (h : Recorded s) {e : ByteEvent} (he : withoutBytes [e] = []) :
    Recorded (byteEvent e s) := by
  obtain ⟨hread, hlines, hwin⟩ := h
  refine ⟨hread, hlines, ?_⟩
  rw [byteEvent_bt, byteEvent_lt, withoutBytes_append, he, List.append_nil, hwin]

theorem raiseFault_outside {s : State} (h : s.cs = true) (c : Cause) :
    raiseFault c s = { s with fault := causeCode c, seq := .idle, outcome := some (.fault c) } := by
  simp [raiseFault, forceDeassert, h]

theorem raiseFault_inside {s : State} (h : s.cs = false) (c : Cause) :
    raiseFault c s = { s with
      cs := true, lt := s.lt ++ [.cs1], bt := s.bt ++ [.desel], fault := causeCode c, seq := .idle
      outcome := some (.fault c) } := by
  simp [raiseFault, forceDeassert, h]

/-- Fault entry outside a window appends nothing; in one it records the `CS1` that its deassert is (60_exceptions
R240). -/
theorem recorded_raiseFault {s : State} (h : Recorded s) (c : Cause) : Recorded (raiseFault c s) := by
  cases hcs : s.cs with
  | true => rw [raiseFault_outside hcs]; exact h
  | false =>
    rw [raiseFault_inside hcs]
    exact Moves.recorded (e := .cs1) ⟨rfl, rfl, rfl, rfl, rfl, withoutBytes_append .., rfl, rfl⟩ h

theorem InStep.blockInv_raiseFault {s : State} (h : InStep s) (c : Cause) : BlockInv (raiseFault c s) :=
  ⟨rfl, fun hf => absurd hf (causeCode_ne_zero c), fun _ => raiseFault_cs c s, causeCode_ne_seven c,
    recorded_raiseFault h.2 c⟩

/-! ### The shared stretches -/

/-- A pin action with the writes that follow it, `t` the state after them. -/
theorem pin_move_ends {β : Type} {e : LineEvent} {s : State} {k : Unit → State → Flow β} {Q : State → Prop}
    (h : InStep s) (hk : (k () (lineEvent e (consulted s))).Ends InStep Q) : ((pin e s).andThen k).Ends InStep Q :=
  (pin_ends h).andThen fun _ _ ht => ht ▸ hk

theorem Moves.inStep {e : LineEvent} {s t : State} (m : Moves e s t) (h : InStep s) (hf : t.fault = s.fault) :
    InStep t := ⟨hf.trans h.1, m.recorded h.2⟩

theorem openWindow_ends {s : State} (h : AtRest s) : (openWindow s).Ends InStep AtRest :=
  pin_move_ends h.2 ⟨h.1, Moves.inStep (e := .cs0) ⟨rfl, rfl, rfl, rfl, rfl, withoutBytes_append .., rfl, rfl⟩ h.2 rfl⟩

theorem closeWindow_ends {s : State} (h : AtRest s) : (closeWindow s).Ends InStep AtRest :=
  pin_move_ends h.2 ⟨h.1, Moves.inStep (e := .cs1) ⟨rfl, rfl, rfl, rfl, rfl, withoutBytes_append .., rfl, rfl⟩ h.2 rfl⟩

theorem switchDir_ends (d : Dir) {s : State} (h : AtRest s) : (switchDir d s).Ends InStep AtRest := by
  refine pin_move_ends h.2 ⟨h.1, Moves.inStep (e := dirEvent d) ?_ h.2 rfl⟩
  cases d <;> exact ⟨rfl, rfl, rfl, rfl, rfl, (List.append_nil _).symm, rfl, rfl⟩

/-- The clock leaves its idle level only between the two actions of a pulse. -/
theorem pulse_ends {s : State} (h : InStep s) : (pulse s).Ends InStep AtRest := by
  have hA : InStep { lineEvent .ckA (consulted s) with clk := !Config.clkIdle } :=
    Moves.inStep (e := .ckA) ⟨rfl, rfl, rfl, rfl, rfl, (List.append_nil _).symm, rfl, rfl⟩ h rfl
  refine pin_move_ends h (pin_move_ends hA ⟨rfl, ?_⟩)
  exact Moves.inStep (e := .ckI) ⟨rfl, rfl, rfl, rfl, rfl, (List.append_nil _).symm, rfl, rfl⟩ hA rfl

theorem readHeld_ends {α : Type} (r : Option α) {s : State} (h : AtRest s) : (readHeld r s).Ends InStep AtRest :=
  (readHeld_keeps h).ends fun _ ht => ht.2

theorem sample_ends {s : State} (h : AtRest s) : (sample s).Ends InStep AtRest := by
  refine (sample_keeps (P := AtRest) h fun b => ⟨h.1, ?_⟩).ends fun _ ht => ht.2
  exact Moves.inStep (e := .s b) ⟨rfl, rfl, rfl, rfl, rfl, (List.append_nil _).symm, rfl, rfl⟩ h.2 rfl

theorem writeCell_ends {s : State} (h : AtRest s) : (writeCell s).Ends InStep AtRest := by
  refine (readHeld_ends s.sr h).andThen fun r t ht => pin_move_ends ht.2 ?_
  refine Flow.Ends.andThen (pulse_ends (Moves.inStep (e := .d (r.getLsbD 7)) ?_ ht.2 rfl)) fun _ _ hu => hu
  exact ⟨rfl, rfl, rfl, rfl, rfl, (List.append_nil _).symm, rfl, rfl⟩

theorem readCell_ends {s : State} (h : AtRest s) : (readCell s).Ends InStep AtRest :=
  (pulse_ends h.2).andThen fun _ _ ht => (sample_ends ht).andThen fun _ _ hu =>
    (readHeld_ends _ hu).andThen fun _ _ hv => hv

theorem shiftOut_ends (b : Byte) {s : State} (h : AtRest s) : (shiftOut b s).Ends InStep AtRest :=
  (repeatCell_ends (fun _ => writeCell_ends) 8 (s := { s with sr := some b }) h).andThen fun _ _ ht =>
    ⟨ht.1, ht.2.1, recorded_byteEvent ht.2.2 rfl⟩

theorem shiftInByte_ends {s : State} (h : AtRest s) : (shiftInByte s).Ends InStep AtRest :=
  (repeatCell_ends (fun _ => readCell_ends) 8 (s := { s with sr := some 0 }) h).andThen fun _ _ ht =>
    (readHeld_ends _ ht).andThen fun _ _ hu => ⟨hu.1, hu.2.1, recorded_byteEvent hu.2.2 rfl⟩

theorem receiveWord_ends {s : State} (h : AtRest s) : (receiveWord s).Ends InStep AtRest :=
  (shiftInByte_ends h).andThen fun _ t ht =>
    (shiftInByte_ends (s := { t with rxw := none }) ht).andThen fun _ _ hu => hu

theorem requireWindow_ends {s : State} (h : AtRest s) : (requireWindow s).Ends InStep AtRest :=
  (requireWindow_keeps h).ends fun _ ht => ht.2

theorem requireNoWindow_ends {s : State} (h : AtRest s) : (requireNoWindow s).Ends InStep AtRest :=
  (requireNoWindow_keeps h).ends fun _ ht => ht.2

theorem requireDir_ends (d : Dir) {s : State} (h : AtRest s) : (requireDir d s).Ends InStep AtRest :=
  (requireDir_keeps h).ends fun _ ht => ht.2

/-! ### The operations -/

theorem decodeBody_ends {s : State} (h : AtRest s) : (decodeBody s).Ends InStep AtRest :=
  (readHeld_ends s.rxw h).andThen fun _ _ ht =>
    have ⟨hclk, hfault, _, hlines, hwin⟩ := ht
    ⟨hclk, hfault, rfl, hlines, hwin⟩

/-- A delay stands in both histories. -/
theorem waitBody_ends (n : Word) {s : State} (h : AtRest s) : (waitBody n s).Ends InStep AtRest :=
  ⟨h.1, Moves.inStep (e := .w n) ⟨rfl, rfl, rfl, rfl, rfl, withoutBytes_append .., rfl, rfl⟩ h.2 rfl⟩

theorem bodyOf_ends (i : Instr) {s : State} (h : AtRest s) : (bodyOf i s).Ends InStep AtRest := by
  cases i with
  | sel => exact (requireNoWindow_ends h).andThen fun _ _ => openWindow_ends
  | desel => exact closeWindow_ends h
  | dirout => exact switchDir_ends .output h
  | dirin => exact switchDir_ends .input h
  | shout b =>
    exact (requireWindow_ends h).andThen fun _ _ ht => (requireDir_ends _ ht).andThen fun _ _ => shiftOut_ends b
  | shin =>
    exact (requireWindow_ends h).andThen fun _ _ ht => (requireDir_ends _ ht).andThen fun _ _ hu =>
      (shiftInByte_ends hu).andThen fun _ _ hv => hv
  | drain =>
    exact (requireWindow_ends h).andThen fun _ _ ht => (switchDir_ends _ ht).andThen fun _ _ => receiveWord_ends
  | rdreg a =>
    exact (requireWindow_ends h).andThen fun _ _ ht => (switchDir_ends _ ht).andThen fun _ _ hu =>
      (shiftOut_ends _ hu).andThen fun _ _ hv => (switchDir_ends _ hv).andThen fun _ _ => receiveWord_ends
  | wrreg a v =>
    exact (requireWindow_ends h).andThen fun _ _ ht => (switchDir_ends _ ht).andThen fun _ _ hu =>
      (shiftOut_ends _ hu).andThen fun _ _ hv => (shiftOut_ends _ hv).andThen fun _ _ => shiftOut_ends _
  | decode => exact decodeBody_ends h
  | setres r => exact h
  | wait n => exact waitBody_ends n h

/-- An operation that is carried out ends at rest, or with a fault recorded where one could be taken. -/
theorem exec_keeps_blockInv {i : Instr} {s t : State} (hinv : BlockInv s) (h : exec i s = .next t) : BlockInv t := by
  have ⟨_, hclk, _, _, hrec⟩ := hinv
  obtain ⟨-, ⟨hf, rfl⟩ | ⟨-, rfl⟩⟩ := exec_next h
  · obtain ⟨u, ⟨huclk, hufault, hurec⟩, hend⟩ | ⟨c, u, hu, hend⟩ :=
      (bodyOf_ends i (s := { s with seq := .running i 0 0 }) ⟨hclk hf, hf, hrec⟩).final
    · rw [hend]
      exact ⟨rfl, fun _ => huclk, fun hne => absurd hufault hne, by simp [hufault], hurec⟩
    · rw [hend]
      exact hu.blockInv_raiseFault c
  · exact hinv

theorem issueWord_keeps_blockInv {w : OpBits} {s t : State} (hinv : BlockInv s) (h : issueWord w s = .next t) :
    BlockInv t := by
  obtain ⟨-, ⟨-, rfl⟩ | ⟨hf, ⟨i, hi⟩ | rfl⟩⟩ := issueWord_next h
  · exact hinv
  · exact exec_keeps_blockInv hinv hi
  · obtain ⟨-, -, -, -, hrec⟩ := hinv
    exact InStep.blockInv_raiseFault ⟨hf, hrec⟩ .illegalOp

theorem reset_blockInv : BlockInv State.reset :=
  ⟨rfl, fun _ => rfl, fun _ => rfl, by decide, rfl, ⟨rfl, rfl, rfl, rfl⟩, rfl⟩

/-- Settles O34: the invariant holds through every command of the host, and it does not read the host's list. -/
theorem stepKeepsBlockInvariant : Obligations.StepKeepsBlockInvariant := by
  intro s t hinv h
  obtain rfl | ⟨w, rest, -, hw⟩ | ⟨rest, -, rfl⟩ := step_next h
  · exact hinv
  · exact issueWord_keeps_blockInv (s := { s with cmds := rest }) hinv hw
  · exact reset_blockInv

/-- Settles O35: outright, element by element. -/
theorem resetMeetsBlockInvariant : Obligations.ResetMeetsBlockInvariant := reset_blockInv

end Sys2Proof.Machine
end

section
/-! SUPPORT. Which operations write which element (10_state R20, the column "written by"), and what that says of the
select line (R22) and of `FAULT` (R32). -/

namespace Sys2Proof.Machine

/-! ### The writers -/

/-- The operations that send a byte. -/
abbrev SendsByte (i : Instr) : Prop := (∃ b, i = .shout b) ∨ (∃ a, i = .rdreg a) ∨ ∃ a v, i = .wrreg a v

/-- The operations that receive a word. -/
abbrev ReceivesWord (i : Instr) : Prop := i = .drain ∨ ∃ a, i = .rdreg a

/-- The operations that shift, in or out. -/
abbrev Shifts (i : Instr) : Prop :=
  (∃ b, i = .shout b) ∨ i = .shin ∨ i = .drain ∨ (∃ a, i = .rdreg a) ∨ ∃ a v, i = .wrreg a v

/-- The operations that switch the direction of the data pin. -/
abbrev SwitchesDir (i : Instr) : Prop :=
  i = .dirout ∨ i = .dirin ∨ i = .drain ∨ (∃ a, i = .rdreg a) ∨ ∃ a v, i = .wrreg a v

theorem SendsByte.shifts {i : Instr} (h : SendsByte i) : Shifts i := by
  obtain h | h | h := h
  · exact .inl h
  · exact .inr (.inr (.inr (.inl h)))
  · exact .inr (.inr (.inr (.inr h)))

theorem ReceivesWord.shifts {i : Instr} (h : ReceivesWord i) : Shifts i := by
  obtain h | h := h
  · exact .inr (.inr (.inl h))
  · exact .inr (.inr (.inr (.inl h)))

/-- From `s` to `t` each element but `CS` and `FAULT` is as it was, or the operation is one of its writers. -/
structure RegistersKept (i : Instr) (s t : State) : Prop where
  res : t.res = s.res ∨ ∃ r, i = .setres r
  tq : t.tq = s.tq ∨ i = .decode
  neg : t.neg = s.neg ∨ i = .decode
  rxw : t.rxw = s.rxw ∨ ReceivesWord i
  dir : t.dir = s.dir ∨ SwitchesDir i
  dout : t.dout = s.dout ∨ SendsByte i
  sr : t.sr = s.sr ∨ Shifts i
  clk : t.clk = s.clk ∨ Shifts i

/-- The same of `CS`; and the code in `FAULT` is as it was: only fault entry writes it. -/
structure OnlyWrites (i : Instr) (s t : State) : Prop extends RegistersKept i s t where
  cs : t.cs = s.cs ∨ i = .sel ∨ i = .desel
  fault : t.fault = s.fault

/-- `SEQ` and the outcome given back are no elements of the block that an operation is a writer of. -/
theorem sequencer_onlyWrites (i : Instr) (s : State) (p : SeqPos) (o : Option OpOutcome) :
    OnlyWrites i s { s with seq := p, outcome := o } :=
  ⟨⟨.inl rfl, .inl rfl, .inl rfl, .inl rfl, .inl rfl, .inl rfl, .inl rfl, .inl rfl⟩, .inl rfl, rfl⟩

theorem OnlyWrites.refl (i : Instr) (s : State) : OnlyWrites i s s := sequencer_onlyWrites i s s.seq s.outcome

theorem kept_or_trans {α : Type} {a b c : α} {p : Prop} (h : b = a ∨ p) (g : c = b ∨ p) : c = a ∨ p := by
  obtain rfl | hp := h
  · exact g
  · exact .inr hp

theorem RegistersKept.trans {i : Instr} {s t u : State} (h : RegistersKept i s t) (g : RegistersKept i t u) :
    RegistersKept i s u :=
  ⟨kept_or_trans h.res g.res, kept_or_trans h.tq g.tq, kept_or_trans h.neg g.neg, kept_or_trans h.rxw g.rxw,
    kept_or_trans h.dir g.dir, kept_or_trans h.dout g.dout, kept_or_trans h.sr g.sr, kept_or_trans h.clk g.clk⟩

theorem OnlyWrites.trans {i : Instr} {s t u : State} (h : OnlyWrites i s t) (g : OnlyWrites i t u) :
    OnlyWrites i s u :=
  ⟨h.toRegistersKept.trans g.toRegistersKept, kept_or_trans h.cs g.cs, g.fault.trans h.fault⟩

/-- One stretch of an operation after another. -/
theorem Flow.Keeps.thenWrites {α β : Type} {i : Instr} {s : State} {f : Flow α} {k : α → State → Flow β}
    (hf : f.Keeps (OnlyWrites i s)) (hk : ∀ a t, (k a t).Keeps (OnlyWrites i t)) :
    (f.andThen k).Keeps (OnlyWrites i s) :=
  hf.andThen (fun _ h => h) fun a t ht => (hk a t).mono fun _ hu => ht.trans hu

/-! ### What each stretch writes, in an operation that has it -/

section
variable {i : Instr}

theorem shiftOut_onlyWrites (hi : SendsByte i) (b : Byte) (s : State) : (shiftOut b s).Keeps (OnlyWrites i s) :=
  (shiftOut_keeps b s).mono fun _ h =>
    ⟨⟨.inl h.res, .inl h.tq, .inl h.neg, .inl h.rxw, .inl h.dir, .inr hi, .inr hi.shifts, .inr hi.shifts⟩,
      .inl h.cs, h.fault⟩

theorem shiftInByte_onlyWrites (hi : Shifts i) (s : State) : (shiftInByte s).Keeps (OnlyWrites i s) :=
  (shiftInByte_keeps s).mono fun _ ⟨h, hdout⟩ =>
    ⟨⟨.inl h.res, .inl h.tq, .inl h.neg, .inl h.rxw, .inl h.dir, .inl hdout, .inr hi, .inr hi⟩, .inl h.cs, h.fault⟩

theorem receiveWord_onlyWrites (hi : ReceivesWord i) (s : State) : (receiveWord s).Keeps (OnlyWrites i s) :=
  (receiveWord_keeps s).mono fun _ ⟨h, hdout⟩ =>
    ⟨⟨.inl h.res, .inl h.tq, .inl h.neg, .inr hi, .inl h.dir, .inl hdout, .inr hi.shifts, .inr hi.shifts⟩,
      .inl h.cs, h.fault⟩

theorem switchDir_onlyWrites (hi : SwitchesDir i) (d : Dir) (s : State) : (switchDir d s).Keeps (OnlyWrites i s) :=
  (switchDir_keeps d s).mono fun _ ⟨h, hdout, hsr, hclk, _⟩ =>
    ⟨⟨.inl h.res, .inl h.tq, .inl h.neg, .inl h.rxw, .inr hi, .inl hdout, .inl hsr, .inl hclk⟩, .inl h.cs, h.fault⟩

theorem window_onlyWrites (hi : i = .sel ∨ i = .desel) (e : LineEvent) (v : ByteEvent) (c : Level) (s : State) :
    ((pin e s).andThen fun _ s => .go () (byteEvent v { s with cs := c })).Keeps (OnlyWrites i s) :=
  (window_keeps e v c s).mono fun _ ⟨h, hdout, hsr, hclk⟩ =>
    ⟨⟨.inl h.res, .inl h.tq, .inl h.neg, .inl h.rxw, .inl h.dir, .inl hdout, .inl hsr, .inl hclk⟩, .inr hi, h.fault⟩

theorem requireWindow_onlyWrites (s : State) : (requireWindow s).Keeps (OnlyWrites i s) :=
  requireWindow_keeps (.refl i s)

theorem requireDir_onlyWrites (d : Dir) (s : State) : (requireDir d s).Keeps (OnlyWrites i s) :=
  requireDir_keeps (.refl i s)

end

/-! ### What an operation writes -/

theorem decodeBody_onlyWrites (s : State) : (decodeBody s).Keeps (OnlyWrites .decode s) :=
  (readHeld_keeps (.refl .decode s)).thenWrites fun _ _ =>
    ⟨⟨.inl rfl, .inr rfl, .inr rfl, .inl rfl, .inl rfl, .inl rfl, .inl rfl, .inl rfl⟩, .inl rfl, rfl⟩

theorem setresBody_onlyWrites (r : Word) (s : State) : (setresBody r s).Keeps (OnlyWrites (.setres r) s) :=
  ⟨⟨.inr ⟨r, rfl⟩, .inl rfl, .inl rfl, .inl rfl, .inl rfl, .inl rfl, .inl rfl, .inl rfl⟩, .inl rfl, rfl⟩

theorem waitBody_onlyWrites (n : Word) (s : State) : (waitBody n s).Keeps (OnlyWrites (.wait n) s) :=
  ⟨⟨.inl rfl, .inl rfl, .inl rfl, .inl rfl, .inl rfl, .inl rfl, .inl rfl, .inl rfl⟩, .inl rfl, rfl⟩

theorem bodyOf_onlyWrites (i : Instr) (s : State) : (bodyOf i s).Keeps (OnlyWrites i s) := by
  cases i with
  | sel => exact (requireNoWindow_keeps (.refl .sel s)).thenWrites fun _ => window_onlyWrites (.inl rfl) _ _ _
  | desel => exact window_onlyWrites (.inr rfl) _ _ _ s
  | dirout => exact switchDir_onlyWrites (.inl rfl) _ s
  | dirin => exact switchDir_onlyWrites (.inr (.inl rfl)) _ s
  | shout b =>
    exact (requireWindow_onlyWrites s).thenWrites fun _ t => (requireDir_onlyWrites _ t).thenWrites fun _ =>
      shiftOut_onlyWrites (.inl ⟨b, rfl⟩) b
  | shin =>
    exact (requireWindow_onlyWrites s).thenWrites fun _ t => (requireDir_onlyWrites _ t).thenWrites fun _ u =>
      (shiftInByte_onlyWrites (.inr (.inl rfl)) u).thenWrites fun _ => .refl .shin
  | drain =>
    have hdir : SwitchesDir .drain := .inr (.inr (.inl rfl))
    exact (requireWindow_onlyWrites s).thenWrites fun _ t => (switchDir_onlyWrites hdir _ t).thenWrites fun _ =>
      receiveWord_onlyWrites (.inl rfl)
  | rdreg a =>
    have hdir : SwitchesDir (.rdreg a) := .inr (.inr (.inr (.inl ⟨a, rfl⟩)))
    have hsend : SendsByte (.rdreg a) := .inr (.inl ⟨a, rfl⟩)
    exact (requireWindow_onlyWrites s).thenWrites fun _ t => (switchDir_onlyWrites hdir _ t).thenWrites fun _ u =>
      (shiftOut_onlyWrites hsend _ u).thenWrites fun _ v => (switchDir_onlyWrites hdir _ v).thenWrites fun _ =>
        receiveWord_onlyWrites (.inr ⟨a, rfl⟩)
  | wrreg a v =>
    have hdir : SwitchesDir (.wrreg a v) := .inr (.inr (.inr (.inr ⟨a, v, rfl⟩)))
    have hsend : SendsByte (.wrreg a v) := .inr (.inr ⟨a, v, rfl⟩)
    exact (requireWindow_onlyWrites s).thenWrites fun _ t => (switchDir_onlyWrites hdir _ t).thenWrites fun _ u =>
      (shiftOut_onlyWrites hsend _ u).thenWrites fun _ v => (shiftOut_onlyWrites hsend _ v).thenWrites fun _ =>
        shiftOut_onlyWrites hsend _
  | decode => exact decodeBody_onlyWrites s
  | setres r => exact setresBody_onlyWrites r s
  | wait n => exact waitBody_onlyWrites n s

theorem raiseFault_registersKept (i : Instr) (c : Cause) (s : State) : RegistersKept i s (raiseFault c s) :=
  ⟨.inl (raiseFault_res c s), .inl (raiseFault_tq c s), .inl (raiseFault_neg c s), .inl (raiseFault_rxw c s),
    .inl (raiseFault_dir c s), .inl (raiseFault_dout c s), .inl (raiseFault_sr c s), .inl (raiseFault_clk c s)⟩

/-- All an operation can do: it wrote what it writes and `FAULT` is as it was, or from `FAULT = 0` fault entry was taken
after it wrote some of that. -/
theorem exec_writes {i : Instr} {s t : State} (h : exec i s = .next t) :
    OnlyWrites i s t ∨ s.fault = 0 ∧ RegistersKept i s t ∧ ∃ c u, t = raiseFault c u := by
  obtain ⟨-, ⟨-, rfl⟩ | ⟨hf, u, hu, ht⟩⟩ := exec_of_keeps h (bodyOf_onlyWrites i _)
  · exact .inl (sequencer_onlyWrites i s s.seq (some .refused))
  · have hsu : OnlyWrites i s u := (sequencer_onlyWrites i s (.running i 0 0) s.outcome).trans hu
    obtain rfl | ⟨c, rfl⟩ := ht
    · exact .inl (hsu.trans (sequencer_onlyWrites i u .idle (some .done)))
    · exact .inr ⟨hf, hsu.toRegistersKept.trans (raiseFault_registersKept i c u), c, u, rfl⟩

theorem exec_registersKept {i : Instr} {s t : State} (h : exec i s = .next t) : RegistersKept i s t := by
  obtain hw | ⟨-, hr, -⟩ := exec_writes h
  · exact hw.toRegistersKept
  · exact hr

/-- `FAULT` is as it was and `CS` is its writers', or from `FAULT = 0` fault entry was taken. -/
theorem exec_fault {i : Instr} {s t : State} (h : exec i s = .next t) :
    t.fault = s.fault ∧ (t.cs = s.cs ∨ i = .sel ∨ i = .desel) ∨ s.fault = 0 ∧ ∃ c u, t = raiseFault c u := by
  obtain hw | ⟨hf, -, hraise⟩ := exec_writes h
  · exact .inl ⟨hw.fault, hw.cs⟩
  · exact .inr ⟨hf, hraise⟩

/-- Settles O27: no stretch of an operation writes an element that is not the operation's to write. -/
theorem eachElementHasItsWriters : Obligations.EachElementHasItsWriters := by
  intro i s t h
  have hr := exec_registersKept h
  refine ⟨hr.res.resolve_left, fun hne => ?_, hr.rxw.resolve_left, hr.dir.resolve_left, hr.dout.resolve_left,
    fun hne => ?_, fun hne => ?_, fun hne => ?_⟩
  · exact hne.elim hr.tq.resolve_left hr.neg.resolve_left
  · exact hne.elim hr.sr.resolve_left hr.clk.resolve_left
  · obtain ⟨-, hcs⟩ | ⟨hf, c, u, rfl⟩ := exec_fault h
    · exact (hcs.resolve_left hne).imp_right .inl
    · exact .inr (.inr (hf ▸ causeCode_ne_zero c))
  · obtain ⟨heq, -⟩ | ⟨hf, c, u, rfl⟩ := exec_fault h
    · exact absurd heq hne
    · exact ⟨hf, c, raiseFault_fault c u⟩

/-! ### The select line (10_state R22) -/

theorem closeWindow_ends_high (s : State) : (closeWindow s).Ends (fun _ => True) (·.cs = true) :=
  (pin_ends trivial).andThen fun _ _ _ => rfl

theorem exec_desel_cs {s t : State} (h : exec .desel s = .next t) (hf : s.fault = 0) : t.cs = true := by
  obtain ⟨-, ⟨-, rfl⟩ | ⟨hne, -⟩⟩ := exec_next h
  · obtain ⟨u, hu, hend⟩ | ⟨c, u, -, hend⟩ := (closeWindow_ends_high { s with seq := .running .desel 0 0 }).final
    · exact hend ▸ hu
    · exact hend ▸ raiseFault_cs c u
  · exact absurd hf hne

/-- Settles O28: besides `SEL` the only writers of `CS` are `DESEL` and fault entry, and both leave it high. -/
theorem selectLineWriters : Obligations.SelectLineWriters := by
  intro i s t h
  refine ⟨fun hhigh hlow => ?_, fun hi => exec_desel_cs (hi ▸ h), fun hne => ?_⟩
  · obtain ⟨-, hcs | hsel | rfl⟩ | ⟨-, c, u, rfl⟩ := exec_fault h
    · simp [hcs, hhigh] at hlow
    · exact hsel
    · obtain ⟨-, ⟨hf, -⟩ | ⟨-, rfl⟩⟩ := exec_next h
      · simp [exec_desel_cs h hf] at hlow
      · simp [hhigh] at hlow
    · simp at hlow
  · obtain ⟨heq, -⟩ | ⟨-, c, u, rfl⟩ := exec_fault h
    · exact absurd heq hne
    · exact raiseFault_cs c u

/-! ### The fault code (10_state R32) -/

/-- What a step does to `FAULT`, but for a reset: kept, or written from 0 by fault entry. -/
theorem step_fault {s t : State} (h : step s = .next t) :
    t.fault = s.fault ∨ (s.fault = 0 ∧ ∃ c, t.fault = causeCode c ∧ t.outcome = some (.fault c)) ∨
      (t.fault = 0 ∧ ∃ rest, s.cmds = .reset :: rest) := by
  obtain rfl | ⟨w, rest, -, hw⟩ | ⟨rest, hc, rfl⟩ := step_next h
  · exact .inl rfl
  · obtain ⟨-, ⟨-, rfl⟩ | ⟨hf, ⟨i, hi⟩ | rfl⟩⟩ := issueWord_next hw
    · exact .inl rfl
    · obtain ⟨heq, -⟩ | ⟨-, c, u, rfl⟩ := exec_fault hi
      · exact .inl heq
      · exact .inr (.inl ⟨hf, c, rfl, rfl⟩)
    · exact .inr (.inl ⟨hf, .illegalOp, rfl, rfl⟩)
  · exact .inr (.inr ⟨rfl, rest, hc⟩)

/-- Settles O29: a step's three ways with `FAULT`, and the refusal of every word by a faulted block. -/
theorem faultIsSticky : Obligations.FaultIsSticky := by
  refine ⟨rfl, fun s t h hf => ?_, fun s t h hf => ?_, fun s w rest hf hseq hc => ?_⟩
  · obtain heq | ⟨-, hfault⟩ | ⟨hzero, -⟩ := step_fault h
    · exact .inl (heq.trans hf)
    · exact .inr hfault
    · exact .inl hzero
  · obtain heq | ⟨hzero, -⟩ | ⟨-, hreset⟩ := step_fault h
    · exact .inl heq
    · exact absurd hzero hf
    · exact .inr hreset
  · rw [step_issue hc]
    exact issueWord_faulted (s := { s with cmds := rest }) hseq hf w

end Sys2Proof.Machine
end

section
/-! SUPPORT. What an operation does to the histories, whatever the environment answers: they only grow (00_scope R8,
20_memory R59), and the environment is asked at most once for each micro-step (60_exceptions R245). -/

namespace Sys2Proof.Machine

/-! ### Growth -/

/-- From `s` to `t` the histories have only grown, and the environment has been asked at most `n` more times. -/
def Grows (n : Nat) (s t : State) : Prop :=
  s.lt <+: t.lt ∧ s.bt <+: t.bt ∧ s.asked ≤ t.asked ∧ t.asked ≤ s.asked + n

theorem Grows.refl (s : State) : Grows 0 s s := ⟨List.prefix_rfl, List.prefix_rfl, le_rfl, le_rfl⟩

theorem Grows.trans {m n : Nat} {s t u : State} (h : Grows m s t) (g : Grows n t u) : Grows (m + n) s u := by
  obtain ⟨hlt, hbt, hle, hbound⟩ := h
  obtain ⟨glt, gbt, gle, gbound⟩ := g
  exact ⟨hlt.trans glt, hbt.trans gbt, hle.trans gle, by omega⟩

theorem Grows.mono {m n : Nat} {s t : State} (h : Grows m s t) (hmn : m ≤ n) : Grows n s t := by
  obtain ⟨hlt, hbt, hle, hbound⟩ := h
  exact ⟨hlt, hbt, hle, by omega⟩

theorem consulted_grows (s : State) : Grows 1 s (consulted s) :=
  ⟨List.prefix_rfl, List.prefix_rfl, Nat.le_succ _, le_rfl⟩

theorem lineEvent_grows (e : LineEvent) (s : State) : Grows 0 s (lineEvent e s) :=
  ⟨List.prefix_append .., List.prefix_rfl, le_rfl, le_rfl⟩

theorem byteEvent_grows (e : ByteEvent) (s : State) : Grows 0 s (byteEvent e s) :=
  ⟨List.prefix_rfl, List.prefix_append .., le_rfl, le_rfl⟩

/-- The forced deassert of fault entry appends too, and it asks nothing (60_exceptions R240). -/
theorem raiseFault_grows (c : Cause) (s : State) : Grows 0 s (raiseFault c s) := by
  cases hcs : s.cs with
  | true => rw [raiseFault_outside hcs]; exact .refl s
  | false =>
    rw [raiseFault_inside hcs]
    exact ⟨List.prefix_append .., List.prefix_append .., le_rfl, le_rfl⟩

/-- One stretch after another: the consultations add up. -/
theorem Flow.Keeps.thenGrows {α β : Type} {m n p : Nat} {s : State} {f : Flow α} {k : α → State → Flow β}
    (hf : f.Keeps (Grows m s)) (hk : ∀ a t, (k a t).Keeps (Grows n t)) (hp : m + n = p := by rfl) :
    (f.andThen k).Keeps (Grows p s) :=
  hf.andThen (fun _ h => h.mono (by omega)) fun a t ht => (hk a t).mono fun _ hu => hp ▸ ht.trans hu

/-! ### The shared stretches -/

theorem pin_grows (e : LineEvent) (s : State) : (pin e s).Keeps (Grows 1 s) :=
  pin_keeps (consulted_grows s) ((consulted_grows s).trans (lineEvent_grows e _))

theorem sample_grows (s : State) : (sample s).Keeps (Grows 1 s) :=
  sample_keeps (consulted_grows s) fun b => (consulted_grows s).trans (lineEvent_grows (.s b) _)

theorem readHeld_grows {α : Type} (r : Option α) (s : State) : (readHeld r s).Keeps (Grows 0 s) :=
  readHeld_keeps (.refl s)

theorem requireWindow_grows (s : State) : (requireWindow s).Keeps (Grows 0 s) := requireWindow_keeps (.refl s)

theorem requireDir_grows (d : Dir) (s : State) : (requireDir d s).Keeps (Grows 0 s) := requireDir_keeps (.refl s)

theorem window_grows (e : LineEvent) (v : ByteEvent) (c : Level) (s : State) :
    ((pin e s).andThen fun _ s => .go () (byteEvent v { s with cs := c })).Keeps (Grows 1 s) :=
  (pin_grows e s).thenGrows fun _ => byteEvent_grows v

theorem switchDir_grows (d : Dir) (s : State) : (switchDir d s).Keeps (Grows 1 s) :=
  (pin_grows _ s).thenGrows fun _ => Grows.refl

theorem pulse_grows (s : State) : (pulse s).Keeps (Grows 2 s) :=
  (pin_grows .ckA s).thenGrows fun _ t =>
    (pin_grows .ckI { t with clk := !Config.clkIdle }).thenGrows fun _ => Grows.refl

theorem writeCell_grows (s : State) : (writeCell s).Keeps (Grows 3 s) :=
  (readHeld_grows s.sr s).thenGrows fun r t => (pin_grows (.d (r.getLsbD 7)) t).thenGrows fun _ u =>
    (pulse_grows { u with dout := r.getLsbD 7 }).thenGrows fun _ => Grows.refl

theorem readCell_grows (s : State) : (readCell s).Keeps (Grows 3 s) :=
  (pulse_grows s).thenGrows fun _ t => (sample_grows t).thenGrows fun _ u =>
    (readHeld_grows u.sr u).thenGrows fun _ => Grows.refl

theorem repeatCell_grows {cell : State → Flow Unit} {m : Nat} (hc : ∀ s, (cell s).Keeps (Grows m s)) (n : Nat)
    (s : State) : (repeatCell cell n s).Keeps (Grows (n * m) s) := by
  induction n generalizing s with
  | zero => exact (Grows.refl s).mono (Nat.zero_le _)
  | succ n ih =>
    rw [Nat.succ_mul, Nat.add_comm]
    exact (hc s).thenGrows fun _ => ih

theorem shiftOut_grows (b : Byte) (s : State) : (shiftOut b s).Keeps (Grows 24 s) :=
  (repeatCell_grows writeCell_grows 8 { s with sr := some b }).thenGrows fun _ => byteEvent_grows (.out b)

theorem shiftInByte_grows (s : State) : (shiftInByte s).Keeps (Grows 24 s) :=
  (repeatCell_grows readCell_grows 8 { s with sr := some 0 }).thenGrows fun _ t =>
    (readHeld_grows t.sr t).thenGrows fun b => byteEvent_grows (.inp b)

theorem receiveWord_grows (s : State) : (receiveWord s).Keeps (Grows 48 s) :=
  (shiftInByte_grows s).thenGrows fun _ t =>
    (shiftInByte_grows { t with rxw := none }).thenGrows fun _ => Grows.refl

theorem waitBody_grows (n : Word) (s : State) : (waitBody n s).Keeps (Grows 0 s) :=
  ⟨List.prefix_append .., List.prefix_append .., le_rfl, le_rfl⟩

/-! ### The operations -/

/-- An operation asks the environment at most once for each of its micro-steps. -/
theorem bodyOf_grows (i : Instr) (s : State) : (bodyOf i s).Keeps (Grows (microSteps i).length s) := by
  cases i with
  | sel => exact Flow.Keeps.thenGrows (requireNoWindow_keeps (.refl s)) fun _ => window_grows _ _ _
  | desel => exact window_grows _ _ _ s
  | dirout => exact switchDir_grows .output s
  | dirin => exact switchDir_grows .input s
  | shout b =>
    exact (requireWindow_grows s).thenGrows fun _ t => (requireDir_grows _ t).thenGrows fun _ => shiftOut_grows b
  | shin =>
    exact (requireWindow_grows s).thenGrows fun _ t => (requireDir_grows _ t).thenGrows fun _ u =>
      (shiftInByte_grows u).thenGrows fun _ => Grows.refl
  | drain =>
    exact (requireWindow_grows s).thenGrows fun _ t => (switchDir_grows _ t).thenGrows fun _ => receiveWord_grows
  | rdreg a =>
    exact (requireWindow_grows s).thenGrows fun _ t => (switchDir_grows _ t).thenGrows fun _ u =>
      (shiftOut_grows _ u).thenGrows fun _ v => (switchDir_grows _ v).thenGrows fun _ => receiveWord_grows
  | wrreg a v =>
    exact (requireWindow_grows s).thenGrows fun _ t => (switchDir_grows _ t).thenGrows fun _ u =>
      (shiftOut_grows _ u).thenGrows fun _ w => (shiftOut_grows _ w).thenGrows fun _ => shiftOut_grows _
  | decode => exact (readHeld_grows s.rxw s).thenGrows fun _ => Grows.refl
  | setres r => exact Grows.refl s
  | wait n => exact waitBody_grows n s

theorem exec_grows {i : Instr} {s t : State} (h : exec i s = .next t) : Grows (microSteps i).length s t := by
  obtain ⟨-, ⟨-, rfl⟩ | ⟨-, u, hu, rfl | ⟨c, rfl⟩⟩⟩ := exec_of_keeps h (bodyOf_grows i _)
  · exact (Grows.refl s).mono (Nat.zero_le _)
  · exact hu
  · exact Grows.trans hu (raiseFault_grows c u)

/-- The longest operation is `RDREG` (70_reset_and_hazards R282). -/
theorem microSteps_length_le (i : Instr) : (microSteps i).length ≤ 74 := by cases i <;> simp [microSteps]

/-- Settles O30: every stretch only appends, and no operation has more than 74 micro-steps. -/
theorem historiesOnlyGrow : Obligations.HistoriesOnlyGrow :=
  fun i _ _ h => (exec_grows h).mono (microSteps_length_le i)

end Sys2Proof.Machine
end

section
/-! SUPPORT. Answers of the environment under which a given word is received: it is the sampled levels and nothing else
(20_memory R63, R65). -/

namespace Sys2Proof.Machine

/-! ### The answers that carry a word -/

/-- The answers to the eight read cells of a byte that is to be sampled as `b`: the third of each cell is the level. -/
def byteAnswers (b : Byte) : List EnvAnswer := (wireBits b).flatMap fun d => [.ok false, .ok false, .ok d]

/-- The answers to a `DRAIN` that is to receive `w`: the direction switch, the high byte, the low byte. -/
def drainAnswers (w : Word) : List EnvAnswer := .ok false :: (byteAnswers (highByte w) ++ byteAnswers (lowByte w))

theorem composeWord_bytes (w : Word) : composeWord (highByte w) (lowByte w) = w :=
  (BitVec.extractLsb'_append_extractLsb'_eq_extractLsb' rfl).trans BitVec.extractLsb'_eq_self

theorem ofBool_bits_append (b : Byte) :
    BitVec.ofBool (b.getLsbD 7) ++ BitVec.ofBool (b.getLsbD 6) ++ BitVec.ofBool (b.getLsbD 5) ++
      BitVec.ofBool (b.getLsbD 4) ++ BitVec.ofBool (b.getLsbD 3) ++ BitVec.ofBool (b.getLsbD 2) ++
      BitVec.ofBool (b.getLsbD 1) ++ BitVec.ofBool (b.getLsbD 0) = b := by revert b; decide

/-- While the list lasts it is the environment's answers. -/
theorem envOk_of_answers {s : State} (h : ∀ a ∈ s.env, a ≠ .fail) : EnvOk s s.env.length := fun k hk => by
  have hget : answerAt s k = s.env[k] := by simp [answerAt, hk]
  exact hget ▸ h _ (List.getElem_mem hk)

theorem byteAt_of_answers {s : State} {k : Nat} {b : Byte} {rest : List EnvAnswer}
    (h : s.env.drop k = byteAnswers b ++ rest) : byteAt s k = b := by
  have hlater : byteAt { s with env := byteAnswers b ++ rest, asked := s.asked + k } 0 = byteAt s k :=
    byteAt_later h.symm rfl 0
  calc byteAt s k
      = byteAt { s with env := byteAnswers b ++ rest, asked := s.asked + k } 0 := hlater.symm
    _ = b := ofBool_bits_append b -- the third answer of each cell, read off the list

theorem wordAt_drainAnswers (w : Word) (s : State) : wordAt { s with env := drainAnswers w } 1 = w := by
  have hhigh : byteAt { s with env := drainAnswers w } 1 = highByte w := byteAt_of_answers rfl
  have hlow : byteAt { s with env := drainAnswers w } 25 = lowByte w :=
    byteAt_of_answers (rest := []) (List.append_nil _).symm
  rw [wordAt, hhigh, hlow, composeWord_bytes]

theorem drainAnswers_ok (w : Word) : ∀ a ∈ drainAnswers w, a ≠ .fail := by
  simp [drainAnswers, byteAnswers, wireBits]

/-! ### DRAIN -/

/-- The law of `DRAIN` in a window (41_protocol R141). -/
theorem drainBody_precise {s : State} (hcs : s.cs = false) :
    ∃ t, Precise (.act .dirI :: (byteInSteps ++ byteInSteps)) s (drainBody s) () t ∧
      t = { s with
        dir := .input, sr := some (byteAt s 25), rxw := some (wordAt s 1), clk := Config.clkIdle
        bt := s.bt ++ [.inp (byteAt s 1), .inp (byteAt s 25)]
        lt := t.lt, env := t.env, asked := t.asked, seq := nextByte (nextByte s.seq) } := by
  have hdir := switchDir_precise .input s
  obtain ⟨t, ht, heq⟩ := receiveWord_precise { lineEvent (dirEvent .input) (consulted s) with dir := .input }
  refine ⟨t, ?_, ?_⟩
  · rw [drainBody, requireWindow_open hcs, andThen_go]
    exact hdir.andThen (k := fun _ s => receiveWord s) ht
  · rw [heq, wordAt_later hdir.after.env hdir.after.asked, byteAt_later hdir.after.env hdir.after.asked,
      byteAt_later hdir.after.env hdir.after.asked]
    simp

/-- A `DRAIN` in a window that no answer cuts short leaves in `RXW` the word sampled after the direction switch. -/
theorem exec_drain_receives {s : State} (hs : Ready s) (hcs : s.cs = false) (hok : EnvOk s 49) :
    ∃ t, exec .drain s = .next t ∧ t.fault = 0 ∧ t.rxw = some (wordAt s 1) := by
  obtain ⟨hseq, hf⟩ := hs
  obtain ⟨t, ht, heq⟩ := drainBody_precise (s := { s with seq := .running .drain 0 0 }) hcs
  obtain ⟨hdone, -⟩ := exec_of_precise hseq hf ht
  refine ⟨_, hdone hok, ?_, ?_⟩
  · rw [heq]; exact hf
  · rw [heq]; rfl

/-- Settles O33: the environment that answers the read cells with the word's bits, high byte first. -/
theorem anyWordMayBeReceived : Obligations.AnyWordMayBeReceived := by
  intro w s hs hcs
  have hok : EnvOk { s with env := drainAnswers w } 49 := envOk_of_answers (drainAnswers_ok w)
  obtain ⟨t, ht, hf, hrxw⟩ := exec_drain_receives (s := { s with env := drainAnswers w }) hs hcs hok
  exact ⟨drainAnswers w, t, ht, hf, wordAt_drainAnswers w s ▸ hrxw⟩

end Sys2Proof.Machine
end

section
/-! SUPPORT. The decoder is the inverse of the encoder (30_encoding R87, R88, R89): a word decodes to an operation
exactly when its fields are the operation's. A row of the opcode table selects a word exactly when the word's fields
have no error and the row's operation code. -/

namespace Sys2Proof

/-! ### The fields of an operation -/

theorem fieldsOf_wf (i : Instr) : (fieldsOf i).wf = true := by
  cases i with
  | sel => exact Laws.FieldsWellFormed.sel
  | desel => exact Laws.FieldsWellFormed.desel
  | dirout => exact Laws.FieldsWellFormed.dirout
  | dirin => exact Laws.FieldsWellFormed.dirin
  | shout b => exact Laws.FieldsWellFormed.shout b
  | shin => exact Laws.FieldsWellFormed.shin
  | drain => exact Laws.FieldsWellFormed.drain
  | rdreg a => exact Laws.FieldsWellFormed.rdreg a
  | wrreg a v => exact Laws.FieldsWellFormed.wrreg a v
  | decode => exact Laws.FieldsWellFormed.decode
  | setres r => exact Laws.FieldsWellFormed.setres r
  | wait n => exact Laws.FieldsWellFormed.wait n

theorem fieldsOf_error (i : Instr) : (fieldsOf i).error = none := Option.isNone_iff_eq_none.mp (fieldsOf_wf i)

/-- The eight bits `SHOUT` takes from the low end of `V` are the byte that was put there. -/
theorem lowByte_zeroExtend (b : Byte) : (b.zeroExtend 16).extractLsb' 0 8 = b := by
  apply BitVec.eq_of_getLsbD_eq
  intro k hk
  simp [hk, show k < 16 by omega]

/-- An immediate below 256 is its low byte, widened. -/
theorem zeroExtend_lowByte {v : Word} (h : v.toNat < 2 ^ 8) : (v.extractLsb' 0 8).zeroExtend 16 = v := by
  apply BitVec.eq_of_toNat_eq
  have hlow : v.toNat % 256 = v.toNat := Nat.mod_eq_of_lt h
  simpa [hlow] using v.isLt

theorem instrOfFields_fieldsOf (i : Instr) : instrOfFields (fieldsOf i) = .ok i := by
  cases i with
  | shout b => exact congrArg (fun b => Except.ok (Instr.shout b)) (lowByte_zeroExtend b)
  | _ => rfl

theorem knownOpc_cases : ∀ {opc : BitVec 4}, knownOpc opc = true → opc = 1 ∨ opc = 2 ∨ opc = 3 ∨ opc = 4 ∨ opc = 5 ∨
    opc = 6 ∨ opc = 7 ∨ opc = 8 ∨ opc = 9 ∨ opc = 10 ∨ opc = 11 ∨ opc = 12 := by decide

/-- Fields without an error are those of an operation: none of their bits is ignored. -/
theorem exists_fieldsOf_eq {f : OpFields} (h : f.error = none) : ∃ i, fieldsOf i = f := by
  obtain ⟨opc, z, a, v⟩ := f
  obtain ⟨hopc, rfl : z = 0, ha, hv⟩ := (error_eq_none _).mp h
  have noAddr (hn : takesAddr opc = false) : 0 = a := (ha.resolve_left (by simp [hn])).symm
  have noImm (hn : immediateBits opc = 0) : 0 = v := by
    rw [hn] at hv
    exact BitVec.eq_of_toNat_eq (Nat.lt_one_iff.mp hv).symm
  have noOperand (ha : takesAddr opc = false) (hv : immediateBits opc = 0) :
      ({ opc, z := 0, a := 0, v := 0 } : OpFields) = { opc, z := 0, a, v } := by rw [← noAddr ha, ← noImm hv]
  obtain rfl | rfl | rfl | rfl | rfl | rfl | rfl | rfl | rfl | rfl | rfl | rfl := knownOpc_cases hopc
  · exact ⟨.sel, noOperand rfl rfl⟩
  · exact ⟨.desel, noOperand rfl rfl⟩
  · exact ⟨.dirout, noOperand rfl rfl⟩
  · exact ⟨.dirin, noOperand rfl rfl⟩
  · exact ⟨.shout (v.extractLsb' 0 8), by rw [← noAddr rfl, fieldsOf, zeroExtend_lowByte hv]⟩
  · exact ⟨.shin, noOperand rfl rfl⟩
  · exact ⟨.drain, noOperand rfl rfl⟩
  · exact ⟨.rdreg a, by rw [← noImm rfl]; rfl⟩
  · exact ⟨.wrreg a v, rfl⟩
  · exact ⟨.decode, noOperand rfl rfl⟩
  · exact ⟨.setres v, by rw [← noAddr rfl]; rfl⟩
  · exact ⟨.wait v, by rw [← noAddr rfl]; rfl⟩

/-! ### The decoder -/

theorem decode_of_error_none {w : OpBits} (h : (cutFields w).error = none) :
    decode w = instrOfFields (cutFields w) := by
  simp only [decode, h]

theorem error_none_of_decode {w : OpBits} {i : Instr} (h : decode w = .ok i) : (cutFields w).error = none := by
  cases herr : (cutFields w).error with
  | none => rfl
  | some e => simp [decode, herr] at h

/-- The decoder inverts the encoder on the fields; every claim about operation words rests on this. -/
theorem decode_eq_ok_iff {w : OpBits} {i : Instr} : decode w = .ok i ↔ fieldsOf i = cutFields w := by
  constructor
  · intro h
    have herr := error_none_of_decode h
    obtain ⟨j, hj⟩ := exists_fieldsOf_eq herr
    rw [decode_of_error_none herr, ← hj, instrOfFields_fieldsOf] at h
    cases h
    exact hj
  · intro h
    rw [decode_of_error_none (h ▸ fieldsOf_error i), ← h, instrOfFields_fieldsOf]

theorem exists_decode_of_error_none {w : OpBits} (h : (cutFields w).error = none) : ∃ i, decode w = .ok i :=
  (exists_fieldsOf_eq h).imp fun _ => decode_eq_ok_iff.mpr

/-- Settles O40: the encoder joins the operation's fields, and cutting gives them back. -/
theorem decodeOfEncode : Obligations.DecodeOfEncode := fun i => decode_eq_ok_iff.mpr (cut_join (fieldsOf i)).symm

/-- Settles O41: the operation's fields are the word's, and joining them gives the word back. -/
theorem encodeOfDecode : Obligations.EncodeOfDecode := fun w i h => by
  rw [encode, decode_eq_ok_iff.mp h, join_cut]

/-! ### The rows of the opcode table -/

/-- The operation code a row selects. -/
def OpRow.opc (r : OpRow) : BitVec 4 := (cutFields r.pattern).opc

/-- The fields of an operation code's mask: every bit but those of the operands it takes (30_encoding R87, R88). -/
def maskFields (opc : BitVec 4) : OpFields :=
  { opc := .allOnes 4, z := .allOnes 5, a := if takesAddr opc then 0 else .allOnes 7
    v := BitVec.allOnes 16 <<< immediateBits opc }

theorem opTable_opc_known : ∀ r ∈ opTable, knownOpc r.opc = true := by decide

theorem opTable_pattern_fields : ∀ r ∈ opTable, cutFields r.pattern = { opc := r.opc, z := 0, a := 0, v := 0 } := by
  decide

theorem opTable_mask_fields : ∀ r ∈ opTable, cutFields r.mask = maskFields r.opc := by decide

theorem opTable_opc_injective : ∀ r ∈ opTable, ∀ q ∈ opTable, r.opc = q.opc → r = q := by decide

theorem mnemonicOf_eq_iff_opc (i : Instr) :
    ∀ r ∈ opTable, mnemonicOf i = r.mnemonic ↔ (fieldsOf i).opc = r.opc := by
  cases i <;> simp only [mnemonicOf, fieldsOf] <;> decide

/-- The bits from the `k`th on are zero exactly in the numbers below `2 ^ k`. -/
theorem and_allOnes_shiftLeft_eq_zero_iff {n : Nat} (v : BitVec n) (k : Nat) :
    v &&& (BitVec.allOnes n <<< k) = 0 ↔ v.toNat < 2 ^ k := by
  constructor
  · intro h
    refine Nat.lt_pow_two_of_testBit _ fun j hj => ?_
    change v.getLsbD j = false
    by_cases hn : j < n
    · have hbit := congrArg (·.getLsbD j) h
      simpa [hn, Nat.not_lt.mpr hj, show j - k < n by omega] using hbit
    · exact v.getLsbD_of_ge j (Nat.not_lt.mp hn)
  · intro h
    apply BitVec.eq_of_getLsbD_eq
    intro j hn
    by_cases hj : j < k
    · simp [hj]
    · have hbit : v.getLsbD j = false :=
        Nat.testBit_eq_false_of_lt (h.trans_le (Nat.pow_le_pow_right two_pos (Nat.not_lt.mp hj)))
      simp [hbit]

/-- An address mask leaves out the address where the operation takes one. -/
theorem and_addrMask_eq_zero_iff (a : RegAddr) (takes : Bool) :
    a &&& (if takes then 0 else .allOnes 7) = 0 ↔ takes = true ∨ a = 0 := by
  cases takes with
  | true => simp
  | false => simp only [Bool.false_eq_true, if_false, BitVec.and_allOnes, false_or]

/-- Masking a word masks each of its fields. -/
theorem and_eq_iff_fields (w m p : OpBits) : w &&& m = p ↔
    (cutFields w).opc &&& (cutFields m).opc = (cutFields p).opc ∧
      (cutFields w).z &&& (cutFields m).z = (cutFields p).z ∧
      (cutFields w).a &&& (cutFields m).a = (cutFields p).a ∧
      (cutFields w).v &&& (cutFields m).v = (cutFields p).v := by
  have hinj : Function.Injective cutFields := Function.LeftInverse.injective join_cut
  rw [← hinj.eq_iff]
  simp only [cutFields, BitVec.extractLsb'_and, OpFields.mk.injEq]

/-- A row selects the words without an error that have its operation code (30_encoding R88, R89). -/
theorem selects_iff {r : OpRow} (hr : r ∈ opTable) (w : OpBits) :
    r.selects w = true ↔ (cutFields w).error = none ∧ (cutFields w).opc = r.opc := by
  rw [OpRow.selects, beq_iff_eq, and_eq_iff_fields, opTable_pattern_fields r hr, opTable_mask_fields r hr]
  simp only [maskFields, BitVec.and_allOnes, and_addrMask_eq_zero_iff, and_allOnes_shiftLeft_eq_zero_iff, error_eq_none]
  constructor
  · rintro ⟨hopc, hz, haddr, himm⟩
    rw [hopc]
    exact ⟨⟨opTable_opc_known r hr, hz, haddr, himm⟩, rfl⟩
  · rintro ⟨⟨-, hz, haddr, himm⟩, hopc⟩
    rw [hopc] at haddr himm
    exact ⟨hopc, hz, haddr, himm⟩

theorem selects_iff_decode {r : OpRow} (hr : r ∈ opTable) (w : OpBits) :
    r.selects w = true ↔ ∃ i, decode w = .ok i ∧ mnemonicOf i = r.mnemonic := by
  rw [selects_iff hr]
  constructor
  · rintro ⟨herr, hopc⟩
    obtain ⟨i, hi⟩ := exists_decode_of_error_none herr
    exact ⟨i, hi, (mnemonicOf_eq_iff_opc i r hr).mpr (decode_eq_ok_iff.mp hi ▸ hopc)⟩
  · rintro ⟨i, hi, hm⟩
    exact ⟨error_none_of_decode hi, decode_eq_ok_iff.mp hi ▸ (mnemonicOf_eq_iff_opc i r hr).mp hm⟩

theorem selects_unique {r q : OpRow} (hr : r ∈ opTable) (hq : q ∈ opTable) {w : OpBits} (hrw : r.selects w = true)
    (hqw : q.selects w = true) : r = q := by
  obtain ⟨-, hopcr⟩ := (selects_iff hr w).mp hrw
  obtain ⟨-, hopcq⟩ := (selects_iff hq w).mp hqw
  exact opTable_opc_injective r hr q hq (hopcr.symm.trans hopcq)

theorem shout_operand {w : OpBits} {b : Byte} (h : decode w = .ok (.shout b)) : b = w.extractLsb' 0 8 := by
  have hv : b.zeroExtend 16 = w.extractLsb' 0 16 := congrArg OpFields.v (decode_eq_ok_iff.mp h)
  calc b = (b.zeroExtend 16).extractLsb' 0 8 := (lowByte_zeroExtend b).symm
    _ = (w.extractLsb' 0 16).extractLsb' 0 8 := by rw [hv]
    _ = w.extractLsb' 0 8 := by
      apply BitVec.eq_of_getLsbD_eq
      intro k hk
      simp [hk]

/-- Settles O42: the row by its operation code, the operands by the fields of the decoded operation. -/
theorem decoderFollowsTable : Obligations.DecoderFollowsTable := by
  refine fun w => ⟨fun r hr => selects_iff_decode hr w, fun r hr q hq => selects_unique hr hq, fun b => shout_operand,
    fun a h => ?_, fun a v h => ?_, fun v h => ?_⟩
  · exact congrArg OpFields.a (decode_eq_ok_iff.mp h)
  · have hf := decode_eq_ok_iff.mp h
    exact ⟨congrArg OpFields.a hf, congrArg OpFields.v hf⟩
  · obtain h | h := h <;> exact congrArg OpFields.v (decode_eq_ok_iff.mp h)

/-- Settles O43: a legal word is the encoder's, so it decodes to its operation; the illegal ones are evaluated. -/
theorem listedWordsDecode : Obligations.ListedWordsDecode :=
  ⟨decodeOfEncode .sel, decodeOfEncode (.shout 0x81), decodeOfEncode (.rdreg 0x7F), decodeOfEncode (.wrreg 0x2 0x1234),
    decodeOfEncode .decode, decodeOfEncode (.setres 65535), decodeOfEncode (.wait 100), by decide⟩

end Sys2Proof
end

section
/-! SUPPORT. What every operation leaves of `SEQ` and of the host's list; the operations on the lines: `SEL`, `DESEL`,
`DIROUT`, `DIRIN` (40_transport R112 to R115). -/

namespace Sys2Proof.Machine

/-! ### How an operation that is taken ends -/

/-- The state in which an operation's pseudocode begins: `SEQ` at its first micro-step (10_state R34). -/
abbrev started (i : Instr) (s : State) : State := { s with seq := .running i 0 0 }

theorem exec_of_go {i : Instr} {s t : State} (hs : Ready s) (h : bodyOf i (started i s) = .go () t) :
    exec i s = .next { t with seq := s.seq, outcome := some .done } := by
  obtain ⟨hseq, hf⟩ := hs
  rw [exec_eq, operation_ready hseq hf, h, final_go, hseq]

theorem exec_of_raised {i : Instr} {s t : State} (hs : Ready s) (h : bodyOf i (started i s) = .raised t) :
    exec i s = .next t := by
  obtain ⟨hseq, hf⟩ := hs
  rw [exec_eq, operation_ready hseq hf, h, final_raised]

/-- Fault entry does not look at the sequencer position, which it resets. -/
theorem raiseFault_started (c : Cause) (i : Instr) (s : State) : raiseFault c (started i s) = raiseFault c s := by
  cases hcs : s.cs with
  | true => rw [raiseFault_outside (s := started i s) hcs, raiseFault_outside hcs]
  | false => rw [raiseFault_inside (s := started i s) hcs, raiseFault_inside hcs]

/-- A check that fails before any event. -/
theorem exec_of_check {i : Instr} {c : Cause} {s : State} (hs : Ready s)
    (h : bodyOf i (started i s) = .raised (raiseFault c (started i s))) : exec i s = .next (raiseFault c s) := by
  rw [exec_of_raised hs h, raiseFault_started]

/-- An operation of one pin action, `f` the writes that follow it. -/
theorem exec_of_pin {i : Instr} {e : LineEvent} {f : State → State} {s : State} (hs : Ready s)
    (h : bodyOf i (started i s) = (pin e (started i s)).andThen fun _ t => .go () (f t)) :
    (EnvOk s 1 → exec i s =
      .next { f (lineEvent e (consulted (started i s))) with seq := s.seq, outcome := some .done }) ∧
    (FirstFail s 0 → exec i s = .next (raiseFault .transportFailure (cutSteps [.act e] 0 s))) := by
  refine ⟨fun hok => exec_of_go hs ?_, fun ⟨_, hfail⟩ => ?_⟩
  · rw [h, pin_ok (s := started i s) hok, andThen_go]
  · have hcut : cutSteps [.act e] 0 s = consulted s := by simp [cutSteps, consulted]
    have hbody : bodyOf i (started i s) = .raised (raiseFault .transportFailure (started i (consulted s))) := by
      rw [h, pin_fail (s := started i s) hfail, andThen_raised]
      rfl
    rw [exec_of_raised hs hbody, raiseFault_started, hcut]

/-! ### What no operation changes -/

theorem Flow.Keeps.thenCmds {α β : Type} {s : State} {f : Flow α} {k : α → State → Flow β}
    (hf : f.Keeps (·.cmds = s.cmds)) (hk : ∀ a t, (k a t).Keeps (·.cmds = t.cmds)) :
    (f.andThen k).Keeps (·.cmds = s.cmds) :=
  hf.andThen (fun _ h => h) fun a t ht => (hk a t).mono fun _ hu => hu.trans ht

theorem requireWindow_cmds (s : State) : (requireWindow s).Keeps (·.cmds = s.cmds) := requireWindow_keeps rfl

theorem requireDir_cmds (d : Dir) (s : State) : (requireDir d s).Keeps (·.cmds = s.cmds) := requireDir_keeps rfl

theorem window_cmds (e : LineEvent) (v : ByteEvent) (c : Level) (s : State) :
    ((pin e s).andThen fun _ s => .go () (byteEvent v { s with cs := c })).Keeps (·.cmds = s.cmds) :=
  (window_keeps e v c s).mono fun _ ⟨h, _⟩ => h.cmds

theorem switchDir_cmds (d : Dir) (s : State) : (switchDir d s).Keeps (·.cmds = s.cmds) :=
  (switchDir_keeps d s).mono fun _ ⟨h, _⟩ => h.cmds

theorem shiftOut_cmds (b : Byte) (s : State) : (shiftOut b s).Keeps (·.cmds = s.cmds) :=
  (shiftOut_keeps b s).mono fun _ h => h.cmds

theorem shiftInByte_cmds (s : State) : (shiftInByte s).Keeps (·.cmds = s.cmds) :=
  (shiftInByte_keeps s).mono fun _ ⟨h, _⟩ => h.cmds

theorem receiveWord_cmds (s : State) : (receiveWord s).Keeps (·.cmds = s.cmds) :=
  (receiveWord_keeps s).mono fun _ ⟨h, _⟩ => h.cmds

theorem bodyOf_cmds (i : Instr) (s : State) : (bodyOf i s).Keeps (·.cmds = s.cmds) := by
  cases i with
  | sel => exact Flow.Keeps.thenCmds (requireNoWindow_keeps rfl) fun _ => window_cmds _ _ _
  | desel => exact window_cmds _ _ _ s
  | dirout => exact switchDir_cmds .output s
  | dirin => exact switchDir_cmds .input s
  | shout b => exact (requireWindow_cmds s).thenCmds fun _ t => (requireDir_cmds _ t).thenCmds fun _ => shiftOut_cmds b
  | shin =>
    exact (requireWindow_cmds s).thenCmds fun _ t => (requireDir_cmds _ t).thenCmds fun _ u =>
      (shiftInByte_cmds u).thenCmds fun _ _ => rfl
  | drain =>
    exact (requireWindow_cmds s).thenCmds fun _ t => (switchDir_cmds _ t).thenCmds fun _ => receiveWord_cmds
  | rdreg a =>
    exact (requireWindow_cmds s).thenCmds fun _ t => (switchDir_cmds _ t).thenCmds fun _ u =>
      (shiftOut_cmds _ u).thenCmds fun _ v => (switchDir_cmds _ v).thenCmds fun _ => receiveWord_cmds
  | wrreg a v =>
    exact (requireWindow_cmds s).thenCmds fun _ t => (switchDir_cmds _ t).thenCmds fun _ u =>
      (shiftOut_cmds _ u).thenCmds fun _ w => (shiftOut_cmds _ w).thenCmds fun _ => shiftOut_cmds _
  | decode => exact Flow.Keeps.thenCmds (readHeld_keeps rfl) fun _ _ => rfl
  | setres r => exact rfl
  | wait n => exact rfl

/-- No operation touches what the host does next. -/
theorem exec_cmds {i : Instr} {s t : State} (h : exec i s = .next t) : t.cmds = s.cmds := by
  obtain ⟨-, ⟨-, rfl⟩ | ⟨-, u, hu, rfl | ⟨c, rfl⟩⟩⟩ := exec_of_keeps h (bodyOf_cmds i _)
  · rfl
  · exact hu
  · exact (raiseFault_cmds c u).trans hu

/-- `SEQ` is idle before an operation and after it (10_state R34). -/
theorem exec_seq {i : Instr} {s t : State} (h : exec i s = .next t) : t.seq = s.seq := by
  obtain ⟨hseq, ⟨-, rfl⟩ | ⟨-, u, -, rfl | ⟨c, rfl⟩⟩⟩ := exec_of_keeps h (bodyOf_cmds i _)
  · rfl
  · exact hseq.symm
  · exact hseq.symm

/-- The select line of an operation without a fault, but for the two that drive it. -/
theorem exec_cs {i : Instr} {s t : State} (h : exec i s = .next t) (hi : ¬ (i = .sel ∨ i = .desel))
    (hf : t.fault = s.fault) : t.cs = s.cs := by
  obtain ⟨-, hcs⟩ | ⟨hzero, c, u, rfl⟩ := exec_fault h
  · exact hcs.resolve_right hi
  · exact absurd (hf.trans hzero) (causeCode_ne_zero c)

/-! ### What each line operation does -/

/-- Settles O1: the check of the window, then one pin action. -/
theorem selOpensWindow : Obligations.SelOpensWindow := by
  intro s hs
  have hopen (hcs : s.cs = true) : bodyOf .sel (started .sel s) = openWindow (started .sel s) := by
    rw [bodyOf, selBody, requireNoWindow_closed (s := started .sel s) hcs, andThen_go]
  refine ⟨fun hcs => (exec_of_pin hs (hopen hcs)).1, fun hcs => (exec_of_pin hs (hopen hcs)).2, fun hcs => ?_⟩
  apply exec_of_check hs
  rw [bodyOf, selBody, requireNoWindow_open (s := started .sel s) hcs, andThen_raised]

/-- Settles O2: one pin action, with no check before it. -/
theorem deselClosesWindow : Obligations.DeselClosesWindow := fun _ hs => exec_of_pin (i := .desel) hs rfl

/-- Settles O3: one pin action, with no check before it. -/
theorem diroutSwitchesToOutput : Obligations.DiroutSwitchesToOutput := fun _ hs => exec_of_pin (i := .dirout) hs rfl

/-- Settles O4: one pin action, with no check before it. -/
theorem dirinSwitchesToInput : Obligations.DirinSwitchesToInput := fun _ hs => exec_of_pin (i := .dirin) hs rfl

/-! ### The frame -/

/-- A direction switch whose pin action does not fail appends nothing to `BT`. -/
theorem exec_bt_of_switchDir {i : Instr} {d : Dir} {s t : State} (hi : bodyOf i = switchDir d)
    (h : exec i s = .next t) (hf : t.fault = s.fault) : t.bt = s.bt := by
  have hkeeps : (bodyOf i { s with seq := .running i 0 0 }).Keeps (·.bt = s.bt) := by
    rw [hi]
    exact (switchDir_keeps d _).mono fun _ ⟨_, _, _, _, hbt⟩ => hbt
  obtain ⟨-, ⟨-, rfl⟩ | ⟨hzero, u, hu, rfl | ⟨c, rfl⟩⟩⟩ := exec_of_keeps h hkeeps
  · rfl
  · exact hu
  · exact absurd (hf.trans hzero) (causeCode_ne_zero c)

/-- Settles O23: a line operation is a writer of no register; its own line is the only one it writes. -/
theorem lineOperationsFrame : Obligations.LineOperationsFrame := by
  intro i s t hi h
  have hr := exec_registersKept h
  have hshift : ¬ Shifts i := by obtain rfl | rfl | rfl | rfl := hi <;> simp
  have hdecode : i ≠ .decode := by obtain rfl | rfl | rfl | rfl := hi <;> simp
  have hsetres : ¬ ∃ r, i = .setres r := by obtain rfl | rfl | rfl | rfl := hi <;> simp
  refine ⟨hr.clk.resolve_right hshift, hr.dout.resolve_right fun hs => hshift hs.shifts, hr.sr.resolve_right hshift,
    hr.rxw.resolve_right fun hw => hshift hw.shifts, hr.res.resolve_right hsetres, hr.tq.resolve_right hdecode,
    hr.neg.resolve_right hdecode, exec_seq h, exec_cmds h, fun hw => hr.dir.resolve_right ?_, fun hd hf => ?_⟩
  · obtain rfl | rfl := hw <;> simp
  · obtain rfl | rfl := hd
    · exact ⟨exec_cs h (by simp) hf, exec_bt_of_switchDir (d := .output) rfl h hf⟩
    · exact ⟨exec_cs h (by simp) hf, exec_bt_of_switchDir (d := .input) rfl h hf⟩

end Sys2Proof.Machine
end

section
/-! SUPPORT. A byte out and a byte in as operations of their own: `SHOUT` and `SHIN` (40_transport R118, R119). -/

namespace Sys2Proof.Machine

/-! ### An operation that passes its checks -/

section
variable {i : Instr} {ms : List MicroStep} {s t : State}

/-- The end under answers that are all `ok`: the histories and the environment as `doneSteps` has them, the registers as
the pseudocode left them. -/
theorem exec_done_of_precise (hs : Ready s) (hp : Precise ms (started i s) (bodyOf i (started i s)) () t)
    (hok : EnvOk s ms.length) :
    exec i s = .next { t with
      lt := (doneSteps ms s).lt, env := (doneSteps ms s).env, asked := (doneSteps ms s).asked, seq := s.seq
      outcome := some .done } := by
  obtain ⟨hseq, hf⟩ := hs
  obtain ⟨hdone, -, ⟨hlt, henv, hasked, -⟩⟩ := exec_of_precise hseq hf hp
  rw [hdone hok, hlt, henv, hasked, hseq]
  rfl

/-- What holds up to the end of a byte: nothing more stands in `BT`, and `CS` is as it was. -/
abbrev WithinByte (s t : State) : Prop := t.bt = s.bt ∧ t.cs = s.cs

/-- A failure within the first byte of an operation in a window: `BT` gains nothing but the forced `DESEL`
(60_exceptions R240). -/
theorem exec_fails_within_byte {Q : State → Prop} (hs : Ready s) (hcs : s.cs = false)
    (hp : Precise ms (started i s) (bodyOf i (started i s)) () t)
    (hends : (bodyOf i (started i s)).Ends (WithinByte s) Q) {k : Nat} (hk : k < ms.length) (hfail : FirstFail s k) :
    ∃ t, exec i s = .next t ∧ t.fault = 1 ∧ t.bt = s.bt ++ [.desel] := by
  obtain ⟨u, hu, -⟩ := hp.failed k hk hfail
  refine ⟨raiseFault .transportFailure u, exec_of_raised hs hu, rfl, ?_⟩
  rw [hu] at hends
  obtain ⟨c, v, heq, hbt, hvcs⟩ := hends
  rw [heq, raiseFault_bt, hvcs, hcs, hbt]
  rfl

end

/-! ### Within a byte -/

theorem withinByte_closed : CellClosed WithinByte where
  refl _ := ⟨rfl, rfl⟩
  trans := fun ⟨hbt, hcs⟩ ⟨gbt, gcs⟩ => ⟨gbt.trans hbt, gcs.trans hcs⟩
  asked _ := ⟨rfl, rfl⟩
  event _ _ := ⟨rfl, rfl⟩
  clk _ _ := ⟨rfl, rfl⟩
  sr _ _ := ⟨rfl, rfl⟩

/-- `OUT` is recorded after the last event of the byte (40_transport R118). -/
theorem shiftOut_ends_bt (b : Byte) (s : State) :
    (shiftOut b s).Ends (WithinByte s) fun t => t.bt = s.bt ++ [.out b] ∧ t.cs = s.cs := by
  have hcells : (repeatCell writeCell 8 { s with sr := some b }).Keeps (WithinByte s) :=
    have hcell := writeCell_cell withinByte_closed fun _ _ => ⟨rfl, rfl⟩
    repeatCell_keeps withinByte_closed hcell 8 { s with sr := some b }
  exact (hcells.ends fun _ h => h).andThen fun _ _ ⟨hbt, hcs⟩ => ⟨by rw [byteEvent_bt, hbt], hcs⟩

/-- `IN` is recorded after the last event of the byte (40_transport R119). -/
theorem shiftInByte_ends_bt (s : State) :
    (shiftInByte s).Ends (WithinByte s) fun t => (∃ b, t.bt = s.bt ++ [.inp b]) ∧ t.cs = s.cs := by
  have hcells : (repeatCell readCell 8 { s with sr := some 0 }).Keeps (WithinByte s) :=
    repeatCell_keeps withinByte_closed (readCell_cell withinByte_closed) 8 { s with sr := some 0 }
  refine (hcells.ends (Q := WithinByte s) fun _ h => h).andThen fun _ t ht => ?_
  refine ((readHeld_keeps ht).ends fun _ h => h).andThen fun b u ⟨hbt, hcs⟩ => ?_
  exact ⟨⟨b, by rw [byteEvent_bt, hbt]⟩, hcs⟩

/-! ### The two checks -/

/-- A stretch after the checks of the window and of the direction, in the order of 60_exceptions R239. -/
abbrev afterByteChecks (d : Dir) (k : State → Flow Unit) (s : State) : Flow Unit :=
  (requireWindow s).andThen fun _ s => (requireDir d s).andThen fun _ s => k s

section
variable {i : Instr} {d : Dir} {k : State → Flow Unit} {s : State}

theorem bodyOf_byte_outside_window (hi : bodyOf i = afterByteChecks d k) (hcs : s.cs = true) :
    bodyOf i (started i s) = .raised (raiseFault .notSelected (started i s)) := by
  rw [hi, afterByteChecks, requireWindow_closed (s := started i s) hcs, andThen_raised]

theorem bodyOf_byte_other_dir (hi : bodyOf i = afterByteChecks d k) (hcs : s.cs = false) (hdir : s.dir ≠ d) :
    bodyOf i (started i s) = .raised (raiseFault .dirViolation (started i s)) := by
  rw [hi, afterByteChecks, requireWindow_open (s := started i s) hcs, andThen_go,
    requireDir_other (s := started i s) hdir, andThen_raised]

theorem bodyOf_byte_checked (hi : bodyOf i = afterByteChecks d k) (hcs : s.cs = false) (hdir : s.dir = d) :
    bodyOf i (started i s) = k (started i s) := by
  rw [hi, afterByteChecks, requireWindow_open (s := started i s) hcs, andThen_go,
    requireDir_same (s := started i s) hdir, andThen_go]

end

/-! ### The two operations -/

theorem bodyOf_shout (b : Byte) : bodyOf (.shout b) = afterByteChecks .output (shiftOut b) := rfl

theorem bodyOf_shin :
    bodyOf .shin = afterByteChecks .input fun s => (shiftInByte s).andThen fun _ s => .go () s := rfl

/-- Settles O5: the two checks, then the law of a byte out. -/
theorem shoutShiftsByteOut : Obligations.ShoutShiftsByteOut := by
  intro b s hs
  obtain ⟨t, hp, ht⟩ := shiftOut_precise b (started (.shout b) s)
  have hends := shiftOut_ends_bt b (started (.shout b) s)
  refine ⟨fun hcs => ?_, fun hcs hdir => ?_, fun hcs hdir hok => ?_, fun hcs hdir k hk hfail => ?_⟩
  · exact exec_of_check hs (bodyOf_byte_outside_window (bodyOf_shout b) hcs)
  · exact exec_of_check hs (bodyOf_byte_other_dir (bodyOf_shout b) hcs (by simp [hdir]))
  · rw [← bodyOf_byte_checked (bodyOf_shout b) hcs hdir] at hp
    rw [exec_done_of_precise hs hp hok, ht]
    rfl
  · rw [← bodyOf_byte_checked (bodyOf_shout b) hcs hdir] at hp hends
    exact exec_fails_within_byte hs hcs hp hends hk hfail

/-- Settles O6: the two checks, then the law of a byte in, whose value stays in `SR`. -/
theorem shinShiftsByteIn : Obligations.ShinShiftsByteIn := by
  intro s hs
  obtain ⟨t, hbyte, ht⟩ := shiftInByte_precise (started .shin s)
  have hp := hbyte.map (k := fun _ s => .go () s) rfl hbyte.after
  have hends := (shiftInByte_ends_bt (started .shin s)).andThen (k := fun _ s => .go () s) fun _ _ h => h
  refine ⟨fun hcs => ?_, fun hcs hdir => ?_, fun hcs hdir hok => ?_, fun hcs hdir k hk hfail => ?_⟩
  · exact exec_of_check hs (bodyOf_byte_outside_window bodyOf_shin hcs)
  · exact exec_of_check hs (bodyOf_byte_other_dir bodyOf_shin hcs (by simp [hdir]))
  · rw [← bodyOf_byte_checked bodyOf_shin hcs hdir] at hp
    rw [exec_done_of_precise hs hp hok, ht]
    rfl
  · rw [← bodyOf_byte_checked bodyOf_shin hcs hdir] at hp hends
    exact exec_fails_within_byte hs hcs hp hends hk hfail

/-! ### The frame -/

/-- Settles O24: a byte operation shifts and drives the data line, and is a writer of nothing else. -/
theorem byteOperationsFrame : Obligations.ByteOperationsFrame := by
  intro i s t hi h
  have hr := exec_registersKept h
  have hreceive : ¬ ReceivesWord i := by obtain ⟨b, rfl⟩ | rfl := hi <;> simp
  have hswitch : ¬ SwitchesDir i := by obtain ⟨b, rfl⟩ | rfl := hi <;> simp
  have hdecode : i ≠ .decode := by obtain ⟨b, rfl⟩ | rfl := hi <;> simp
  have hsetres : ¬ ∃ r, i = .setres r := by obtain ⟨b, rfl⟩ | rfl := hi <;> simp
  have hselect : ¬ (i = .sel ∨ i = .desel) := by obtain ⟨b, rfl⟩ | rfl := hi <;> simp
  refine ⟨hr.rxw.resolve_right hreceive, hr.res.resolve_right hsetres, hr.tq.resolve_right hdecode,
    hr.neg.resolve_right hdecode, hr.dir.resolve_right hswitch, exec_seq h, exec_cmds h, exec_cs h hselect,
    fun hshin => hr.dout.resolve_right ?_⟩
  subst hshin
  simp

end Sys2Proof.Machine
end

section
/-! SUPPORT. Data before clock (40_transport R121), read off the micro-steps of the operations that send bytes: whatever
the environment answers, the line trace gains a first part of their events, and at most the forced `CS1` after it. -/

namespace Sys2Proof.Machine

/-! ### What an operation that sends bytes records -/

/-- What an operation with the events `es` may have recorded when it ends, completed or cut short (60_exceptions R240,
R241). -/
def RecordedPart (es : List LineEvent) (s t : State) : Prop :=
  ∃ k tail, t.lt = s.lt ++ (es.take k ++ tail) ∧ (tail = [] ∨ tail = [.cs1])

theorem recordedPart_raiseFault {es : List LineEvent} {k : Nat} {s u : State} (h : u.lt = s.lt ++ es.take k)
    (c : Cause) : RecordedPart es s (raiseFault c u) := by
  cases hcs : u.cs with
  | true => exact ⟨k, [], by rw [raiseFault_outside hcs, h, List.append_nil], .inl rfl⟩
  | false => exact ⟨k, [.cs1], by rw [raiseFault_inside hcs, h, List.append_assoc], .inr rfl⟩

/-- Either the environment does not fail in the next `n` answers, or there is a first time that it does. -/
theorem envOk_or_firstFail (s : State) (n : Nat) : EnvOk s n ∨ ∃ k < n, FirstFail s k := by
  induction n with
  | zero => exact .inl fun k hk => absurd hk (Nat.not_lt_zero k)
  | succ n ih =>
    obtain hok | ⟨k, hk, hfail⟩ := ih
    · by_cases hn : answerAt s n = .fail
      · exact .inr ⟨n, Nat.lt_succ_self n, hok, hn⟩
      · refine .inl fun k hk => ?_
        obtain hlt | rfl := Nat.lt_succ_iff_lt_or_eq.mp hk
        · exact hok k hlt
        · exact hn
    · exact .inr ⟨k, Nat.lt_succ_of_lt hk, hfail⟩

theorem recordedPart_of_precise {i : Instr} {ms : List MicroStep} {s t v : State} (hs : Ready s)
    (hp : Precise ms (started i s) (bodyOf i (started i s)) () v) (h : exec i s = .next t) :
    RecordedPart (eventsFrom s 0 ms) s t := by
  obtain ⟨hseq, hf⟩ := hs
  obtain ⟨hdone, hfailed, hafter⟩ := exec_of_precise hseq hf hp
  obtain hok | ⟨k, hk, hfail⟩ := envOk_or_firstFail s ms.length
  · obtain rfl : _ = t := Host.Outcome.next.inj ((hdone hok).symm.trans h)
    exact ⟨ms.length, [], by simpa [List.take_of_length_le] using hafter.lt, .inl rfl⟩
  · obtain ⟨u, hu, hat⟩ := hfailed k hk hfail
    obtain rfl : _ = t := Host.Outcome.next.inj (hu.symm.trans h)
    exact recordedPart_raiseFault hat.lt _

/-! ### The laws of RDREG and WRREG in a window -/

/-- The law of `RDREG` in a window (41_protocol R142). -/
theorem rdregBody_precise (a : RegAddr) {s : State} (hcs : s.cs = false) :
    ∃ t, Precise (microSteps (.rdreg a)) s (rdregBody a s) () t ∧
      t = { s with
        dir := .input, dout := (commandByte true a).getLsbD 0, sr := some (byteAt s 50), rxw := some (wordAt s 26)
        clk := Config.clkIdle
        bt := s.bt ++ [.out (commandByte true a), .inp (byteAt s 26), .inp (byteAt s 50)]
        lt := t.lt, env := t.env, asked := t.asked, seq := nextByte (nextByte (nextByte s.seq)) } := by
  have hout := switchDir_precise .output s
  obtain ⟨t, hcmd, ht⟩ := shiftOut_precise (commandByte true a)
    { lineEvent (dirEvent .output) (consulted s) with dir := .output }
  have hin := switchDir_precise .input t
  obtain ⟨v, hword, hv⟩ := receiveWord_precise { lineEvent (dirEvent .input) (consulted t) with dir := .input }
  have hsent := hout.andThen (k := fun _ s => shiftOut (commandByte true a) s) hcmd
  have hturned := hsent.andThen (k := fun _ s => switchDir .input s) hin
  have hall := hturned.andThen (k := fun _ s => receiveWord s) hword
  refine ⟨v, ?_, ?_⟩
  · rw [rdregBody, requireWindow_open hcs, andThen_go]
    simp only [andThen_assoc] at hall
    exact hall
  · rw [hv, byteAt_later hturned.after.env hturned.after.asked, byteAt_later hturned.after.env hturned.after.asked,
      wordAt_later hturned.after.env hturned.after.asked, ht]
    simp

/-- The law of `WRREG` in a window (41_protocol R143). -/
theorem wrregBody_precise (a : RegAddr) (v : Word) {s : State} (hcs : s.cs = false) :
    ∃ t, Precise (microSteps (.wrreg a v)) s (wrregBody a v s) () t ∧
      t = { s with
        dir := .output, dout := (lowByte v).getLsbD 0, sr := some 0, clk := Config.clkIdle
        bt := s.bt ++ [.out (commandByte false a), .out (highByte v), .out (lowByte v)]
        lt := t.lt, env := t.env, asked := t.asked, seq := nextByte (nextByte (nextByte s.seq)) } := by
  have hout := switchDir_precise .output s
  obtain ⟨t, hcmd, ht⟩ := shiftOut_precise (commandByte false a)
    { lineEvent (dirEvent .output) (consulted s) with dir := .output }
  obtain ⟨u, hhigh, hu⟩ := shiftOut_precise (highByte v) t
  obtain ⟨w, hlow, hw⟩ := shiftOut_precise (lowByte v) u
  have hsent := hout.andThen (k := fun _ s => shiftOut (commandByte false a) s) hcmd
  have hall := (hsent.andThen (k := fun _ s => shiftOut (highByte v) s) hhigh).andThen
    (k := fun _ s => shiftOut (lowByte v) s) hlow
  refine ⟨w, ?_, ?_⟩
  · rw [wrregBody, requireWindow_open hcs, andThen_go]
    simp only [andThen_assoc] at hall
    exact hall
  · rw [hw, hu, ht]
    simp

/-! ### The operations that send bytes -/

/-- An operation that sends bytes fails a check before any event, or follows its list of micro-steps. -/
theorem bodyOf_sendsByte {i : Instr} (hi : SendsByte i) (s : State) :
    (∃ c, bodyOf i (started i s) = .raised (raiseFault c (started i s))) ∨
      ∃ t, Precise (microSteps i) (started i s) (bodyOf i (started i s)) () t := by
  have outside (k : Unit → State → Flow Unit) (h : s.cs = true) :
      (requireWindow (started i s)).andThen k = .raised (raiseFault .notSelected (started i s)) := by
    rw [requireWindow_closed (s := started i s) h, andThen_raised]
  cases hcs : s.cs with
  | true =>
    refine .inl ⟨.notSelected, ?_⟩
    obtain ⟨b, rfl⟩ | ⟨a, rfl⟩ | ⟨a, v, rfl⟩ := hi
    · exact outside _ hcs
    · exact outside _ hcs
    · exact outside _ hcs
  | false =>
    obtain ⟨b, rfl⟩ | ⟨a, rfl⟩ | ⟨a, v, rfl⟩ := hi
    · cases hdir : s.dir with
      | input => exact .inl ⟨_, bodyOf_byte_other_dir (bodyOf_shout b) hcs (by simp [hdir])⟩
      | output =>
        obtain ⟨t, ht, -⟩ := shiftOut_precise b (started (.shout b) s)
        exact .inr ⟨t, bodyOf_byte_checked (bodyOf_shout b) hcs hdir ▸ ht⟩
    · obtain ⟨t, ht, -⟩ := rdregBody_precise a (s := started (.rdreg a) s) hcs
      exact .inr ⟨t, ht⟩
    · obtain ⟨t, ht, -⟩ := wrregBody_precise a v (s := started (.wrreg a v) s) hcs
      exact .inr ⟨t, ht⟩

theorem exec_recordedPart {i : Instr} {s t : State} (hi : SendsByte i) (h : exec i s = .next t) :
    RecordedPart (eventsFrom s 0 (microSteps i)) s t := by
  obtain ⟨hseq, ⟨hf, -⟩ | ⟨-, rfl⟩⟩ := exec_next h
  · obtain ⟨c, hraised⟩ | ⟨v, hp⟩ := bodyOf_sendsByte hi s
    · obtain rfl : _ = t := Host.Outcome.next.inj ((exec_of_check ⟨hseq, hf⟩ hraised).symm.trans h)
      exact recordedPart_raiseFault (k := 0) (List.append_nil _).symm c
    · exact recordedPart_of_precise ⟨hseq, hf⟩ hp h
  · exact ⟨0, [], (List.append_nil _).symm, .inl rfl⟩

/-! ### Data before clock -/

/-- At index `j` of the events `es`: a `CKA` comes directly after a data event, a `CKI` directly after such a `CKA`
(40_transport R121). -/
def DataFirst (es : List LineEvent) (j : Nat) : Prop :=
  (es[j]? = some .ckA → 1 ≤ j ∧ ∃ d, es[j - 1]? = some (.d d)) ∧
  (es[j]? = some .ckI → 2 ≤ j ∧ es[j - 1]? = some .ckA ∧ ∃ d, es[j - 2]? = some (.d d))

/-- It looks back only. -/
theorem DataFirst.of_agree {es fs : List LineEvent} {j : Nat} (h : DataFirst es j)
    (heq : ∀ m ≤ j, fs[m]? = es[m]?) : DataFirst fs j := by
  simpa only [DataFirst, heq j le_rfl, heq (j - 1) (Nat.sub_le ..), heq (j - 2) (Nat.sub_le ..)] using h

theorem DataFirst.append_left {es : List LineEvent} {j : Nat} (h : DataFirst es j) (hj : j < es.length)
    (fs : List LineEvent) : DataFirst (es ++ fs) j :=
  h.of_agree fun _ hm => List.getElem?_append_left (hm.trans_lt hj)

theorem DataFirst.append_right {fs : List LineEvent} {j : Nat} (es : List LineEvent) (h : DataFirst fs j) :
    DataFirst (es ++ fs) (es.length + j) := by
  have hback {m : Nat} (hm : m ≤ j) : (es ++ fs)[es.length + j - m]? = fs[j - m]? := by
    rw [Nat.add_sub_assoc hm, List.getElem?_append_right (Nat.le_add_right ..), Nat.add_sub_cancel_left]
  obtain ⟨hactive, hidle⟩ := h
  refine ⟨fun he => ?_, fun he => ?_⟩
  · obtain ⟨hj, d, hd⟩ := hactive (hback (Nat.zero_le j) ▸ he)
    exact ⟨by omega, d, (hback hj).trans hd⟩
  · obtain ⟨hj, hckA, d, hd⟩ := hidle (hback (Nat.zero_le j) ▸ he)
    exact ⟨by omega, (hback (by omega)).trans hckA, d, (hback hj).trans hd⟩

theorem dataFirst_append {es fs : List LineEvent} (hes : ∀ j, DataFirst es j) (hfs : ∀ j, DataFirst fs j) :
    ∀ j, DataFirst (es ++ fs) j := by
  intro j
  by_cases hj : j < es.length
  · exact (hes j).append_left hj fs
  · obtain ⟨m, rfl⟩ := Nat.exists_eq_add_of_le (Nat.not_lt.mp hj)
    exact (hfs m).append_right es

/-- Events cut short, and then the forced `CS1`, which is no clock event. -/
theorem DataFirst.cut {es tail : List LineEvent} {j : Nat} (h : DataFirst es j) (htail : tail = [] ∨ tail = [.cs1])
    (k : Nat) : DataFirst (es.take k ++ tail) j := by
  by_cases hj : j < (es.take k).length
  · refine DataFirst.append_left (h.of_agree fun m hm => List.getElem?_take_of_lt ?_) hj tail
    rw [List.length_take] at hj
    omega
  · rw [DataFirst, List.getElem?_append_right (Nat.not_lt.mp hj)]
    obtain rfl | rfl := htail
    · simp
    · simp [List.getElem?_singleton]

theorem dataFirst_writeCell (d : Level) : ∀ j, DataFirst [.d d, .ckA, .ckI] j
  | 0 => by simp [DataFirst]
  | 1 => by simp [DataFirst]
  | 2 => by simp [DataFirst]
  | j + 3 => by simp [DataFirst]

theorem dataFirst_writeCells (ds : List Level) (s : State) (k : Nat) :
    ∀ j, DataFirst (eventsFrom s k (ds.flatMap writeCellSteps)) j := by
  induction ds generalizing k with
  | nil => simp [eventsFrom, DataFirst]
  | cons d ds ih =>
    rw [List.flatMap_cons, eventsFrom_append]
    exact dataFirst_append (dataFirst_writeCell d) (ih _)

theorem dataFirst_byteOut (b : Byte) (s : State) (k : Nat) : ∀ j, DataFirst (eventsFrom s k (byteOutSteps b)) j :=
  dataFirst_writeCells (wireBits b) s k

theorem dataFirst_dirO : ∀ j, DataFirst [.dirO] j
  | 0 => by simp [DataFirst]
  | j + 1 => by simp [DataFirst]

theorem dataFirst_command (c : Byte) (s : State) (k : Nat) :
    ∀ j, DataFirst (eventsFrom s k (.act .dirO :: byteOutSteps c)) j :=
  dataFirst_append dataFirst_dirO (dataFirst_byteOut c s (k + 1))

/-- Settles O32: the events of the write cells in order, of which an operation records a first part. -/
theorem dataBeforeClock : Obligations.DataBeforeClock := by
  intro i s t es j hi h hlt
  have hsend : SendsByte i := hi.imp_right fun hi => hi.symm.imp_left And.left
  obtain ⟨k, tail, hrec, htail⟩ := exec_recordedPart hsend h
  obtain rfl : es = _ := List.append_cancel_left (hlt.symm.trans hrec)
  suffices hall : DataFirst (eventsFrom s 0 (microSteps i)) j from hall.cut htail k
  obtain ⟨b, rfl⟩ | ⟨a, v, rfl⟩ | ⟨⟨a, rfl⟩, hj⟩ := hi
  · exact dataFirst_byteOut b s 0 j
  · rw [microSteps, eventsFrom_append, eventsFrom_append]
    exact dataFirst_append (dataFirst_append (dataFirst_command _ s 0) (dataFirst_byteOut _ s _))
      (dataFirst_byteOut _ s _) j
  · rw [microSteps, eventsFrom_append]
    exact (dataFirst_command _ s 0 j).append_left (by simpa using hj) _

end Sys2Proof.Machine
end

section
/-! SUPPORT. The register protocol operations `DRAIN`, `RDREG`, `WRREG` (41_protocol R141 to R143): where a failure cuts
them, what the byte transcript and `RXW` hold there (R145), and their end when nothing fails. -/

namespace Sys2Proof.Machine

/-! ### A stretch cut short -/

/-- Where the stretch `f`, with the micro-steps `ms` from `s` on, is cut: at a first `fail`, that of index `k`, fault entry
is taken in a state with `P k`. -/
def Cut {α : Type} (ms : List MicroStep) (s : State) (f : Flow α) (P : Nat → State → Prop) : Prop :=
  ∀ k < ms.length, FirstFail s k → ∃ u, f = .raised (raiseFault .transportFailure u) ∧ P k u

section
variable {α β : Type} {ms ns : List MicroStep} {s t : State} {f : Flow α} {a : α} {k : α → State → Flow β}

/-- A stretch that takes fault entry only where `P` holds is cut there. -/
theorem Precise.cut {P Q : State → Prop} (hp : Precise ms s f a t) (hf : f.Ends P Q) : Cut ms s f fun _ => P := by
  intro j hj hfail
  obtain ⟨u, rfl, -⟩ := hp.failed j hj hfail
  obtain ⟨c, v, heq, hv⟩ := hf
  have hc : Cause.transportFailure = c := by simpa using congrArg State.outcome heq
  exact ⟨v, by rw [heq, hc], hv⟩

/-- What follows a stretch that was cut does not happen. -/
theorem Cut.before {P : Nat → State → Prop} (hf : Cut ms s f P) (k : α → State → Flow β) :
    Cut ms s (f.andThen k) P := by
  intro j hj hfail
  obtain ⟨u, rfl, hu⟩ := hf j hj hfail
  exact ⟨u, andThen_raised .., hu⟩

/-- One stretch after another: the failure is in the first, or as much later in the second. -/
theorem Cut.andThen {P Q R : Nat → State → Prop} (hf : Cut ms s f P) (hp : Precise ms s f a t)
    (hk : Cut ns t (k a t) Q) (hfirst : ∀ j < ms.length, ∀ u, P j u → R j u) (hsecond : ∀ j u, Q j u → R (ms.length + j) u) :
    Cut (ms ++ ns) s (f.andThen k) R := by
  intro j hj ⟨hok, hfail⟩
  obtain hlt | hge := Nat.lt_or_ge j ms.length
  · obtain ⟨u, hu, hP⟩ := hf.before k j hlt ⟨hok, hfail⟩
    exact ⟨u, hu, hfirst j hlt u hP⟩
  · obtain ⟨i, rfl⟩ := Nat.exists_eq_add_of_le hge
    obtain ⟨-, henv, hasked, -⟩ := hp.after
    rw [← answerAt_later henv hasked] at hfail
    obtain ⟨u, hu, hQ⟩ := hk i (by simpa using hj) ⟨hok.later henv hasked, hfail⟩
    exact ⟨u, by rw [hp.done (hok.mono hge), andThen_go, hu], hsecond i u hQ⟩

end

/-- How a cut operation ends: fault entry in the state it was cut in. -/
theorem exec_of_cut {i : Instr} {ms : List MicroStep} {s : State} {P : Nat → State → Prop} (hs : Ready s)
    (hc : Cut ms (started i s) (bodyOf i (started i s)) P) {k : Nat} (hk : k < ms.length) (hfail : FirstFail s k) :
    ∃ u, exec i s = .next (raiseFault .transportFailure u) ∧ P k u := by
  obtain ⟨u, hu, hP⟩ := hc k hk hfail
  exact ⟨u, exec_of_raised hs hu, hP⟩

/-! ### What a cut leaves in the transcript and in `RXW` -/

/-- In an open window, with `bt` in the byte transcript and `rxw` in `RXW`. -/
abbrev Holds (bt : List ByteEvent) (rxw : Option Word) (u : State) : Prop := u.bt = bt ∧ u.rxw = rxw ∧ u.cs = false

theorem raiseFault_of_holds {bt : List ByteEvent} {rxw : Option Word} {u : State} (h : Holds bt rxw u) (c : Cause) :
    (raiseFault c u).bt = bt ++ [.desel] ∧ (raiseFault c u).rxw = rxw := by
  obtain ⟨hbt, hrxw, hcs⟩ := h
  simp [hbt, hrxw, hcs]

/-- No cell writes a byte event, `RXW` or `CS`. -/
theorem holds_closed (bt : List ByteEvent) (rxw : Option Word) :
    CellClosed fun s t => Holds bt rxw s → Holds bt rxw t where
  refl _ h := h
  trans h g hs := g (h hs)
  asked _ h := h
  event _ _ h := h
  clk _ _ h := h
  sr _ _ h := h

theorem repeatCell_holds {bt : List ByteEvent} {rxw : Option Word} {cell : State → Flow Unit}
    (hcell : ∀ s, (cell s).Keeps fun t => Holds bt rxw s → Holds bt rxw t) (n : Nat) {s : State} (h : Holds bt rxw s) :
    (repeatCell cell n s).Keeps (Holds bt rxw) :=
  (repeatCell_keeps (holds_closed bt rxw) hcell n s).mono fun _ ht => ht h

section
variable {s : State}

theorem switchDir_cut (d : Dir) (hcs : s.cs = false) :
    Cut [.act (dirEvent d)] s (switchDir d s) fun _ => Holds s.bt s.rxw :=
  have hends : (switchDir d s).Ends (Holds s.bt s.rxw) fun _ => True :=
    (pin_ends (P := Holds s.bt s.rxw) ⟨rfl, rfl, hcs⟩).andThen fun _ _ _ => trivial
  (switchDir_precise d s).cut hends

/-- Until a byte is out whole, nothing of it is in the transcript (40_transport R118). -/
theorem shiftOut_cut (b : Byte) (hcs : s.cs = false) :
    Cut (byteOutSteps b) s (shiftOut b s) fun _ => Holds s.bt s.rxw := by
  obtain ⟨t, ht, -⟩ := shiftOut_precise b s
  have hcells : (repeatCell writeCell 8 { s with sr := some b }).Keeps (Holds s.bt s.rxw) :=
    repeatCell_holds (writeCell_cell (holds_closed _ _) fun _ _ h => h) 8 ⟨rfl, rfl, hcs⟩
  exact ht.cut ((hcells.ends fun _ h => h).andThen (R := fun _ => True) fun _ _ _ => trivial)

/-- Until a byte is in whole, nothing of it is in the transcript or in `RXW` (40_transport R119, 41_protocol R145). -/
theorem shiftInByte_cut (hcs : s.cs = false) : Cut byteInSteps s (shiftInByte s) fun _ => Holds s.bt s.rxw := by
  obtain ⟨t, ht, -⟩ := shiftInByte_precise s
  have hcells : (repeatCell readCell 8 { s with sr := some 0 }).Keeps (Holds s.bt s.rxw) :=
    repeatCell_holds (readCell_cell (holds_closed _ _)) 8 ⟨rfl, rfl, hcs⟩
  refine ht.cut (Q := fun _ => True) ((hcells.ends fun _ h => h).andThen fun _ u hu => ?_)
  exact ((readHeld_keeps hu).ends fun _ h => h).andThen fun _ _ _ => trivial

/-- Between its two bytes a receive has the first in the transcript and none in `RXW` (41_protocol R145). -/
theorem receiveWord_cut (hcs : s.cs = false) : Cut (byteInSteps ++ byteInSteps) s (receiveWord s) fun k =>
    Holds (s.bt ++ if k < 24 then [] else [.inp (byteAt s 0)]) (if k < 24 then s.rxw else none) := by
  obtain ⟨t, hp, ht⟩ := shiftInByte_precise s
  have hlow : Cut byteInSteps { t with rxw := none } (shiftInByte { t with rxw := none }) fun _ => Holds t.bt none :=
    shiftInByte_cut (by rw [ht]; exact hcs)
  refine (shiftInByte_cut hcs).andThen hp (hlow.before _) (fun j hj u hu => ?_) fun j u hu => ?_
  · rw [byteInSteps_length] at hj
    simpa [hj] using hu
  · rw [ht] at hu
    simpa using hu

/-- The end of `DRAIN` and `RDREG`: the switch to input, then the two bytes. -/
theorem turnAndReceive_cut (hcs : s.cs = false) :
    Cut (.act .dirI :: (byteInSteps ++ byteInSteps)) s ((switchDir .input s).andThen fun _ s => receiveWord s) fun k =>
      Holds (s.bt ++ if k < 25 then [] else [.inp (byteAt s 1)]) (if k < 25 then s.rxw else none) := by
  have hp := switchDir_precise .input s
  have hreceive := receiveWord_cut (s := { lineEvent (dirEvent .input) (consulted s) with dir := .input }) hcs
  refine (switchDir_cut .input hcs).andThen hp hreceive (fun j hj u hu => ?_) fun j u hu => ?_
  · have hj' : j < 25 := Nat.lt_of_lt_of_le hj (by decide)
    simpa [hj'] using hu
  · rw [byteAt_later hp.after.env hp.after.asked] at hu
    simpa [show 1 + j < 25 ↔ j < 24 by omega] using hu

/-- The end of `WRREG`: the two bytes of its value. -/
theorem twoBytesOut_cut (hi lo : Byte) (hcs : s.cs = false) :
    Cut (byteOutSteps hi ++ byteOutSteps lo) s ((shiftOut hi s).andThen fun _ s => shiftOut lo s) fun k =>
      Holds (s.bt ++ if k < 24 then [] else [.out hi]) s.rxw := by
  obtain ⟨t, hp, ht⟩ := shiftOut_precise hi s
  have hlow : Cut (byteOutSteps lo) t (shiftOut lo t) fun _ => Holds t.bt t.rxw :=
    shiftOut_cut lo (by rw [ht]; exact hcs)
  refine (shiftOut_cut hi hcs).andThen hp hlow (fun j hj u hu => ?_) fun j u hu => ?_
  · rw [byteOutSteps_length] at hj
    simpa [hj] using hu
  · rw [ht] at hu
    simpa using hu

/-! ### The command byte (30_encoding R80) -/

theorem commandByte_read (a : RegAddr) : commandByte true a = 0x80 ||| a.zeroExtend 8 := by revert a; decide

theorem commandByte_write (a : RegAddr) : commandByte false a = a.zeroExtend 8 := by revert a; decide

theorem commandByte_bit_zero (read : Bool) (a : RegAddr) : (commandByte read a).getLsbD 0 = a.getLsbD 0 := by
  rw [commandByte, BitVec.getLsbD_append, if_pos (by decide)]

theorem lowByte_bit_zero (v : Word) : (lowByte v).getLsbD 0 = v.getLsbD 0 := by simp [lowByte]

/-- The start of `RDREG` and `WRREG`: the switch to output, then the command byte. -/
abbrev sendCommand (c : Byte) (s : State) : Flow Unit := (switchDir .output s).andThen fun _ s => shiftOut c s

theorem sendCommand_precise (c : Byte) (s : State) :
    ∃ t, Precise (.act .dirO :: byteOutSteps c) s (sendCommand c s) () t ∧ t.cs = s.cs ∧ t.rxw = s.rxw ∧
      t.bt = s.bt ++ [.out c] := by
  obtain ⟨t, ht, heq⟩ := shiftOut_precise c { lineEvent (dirEvent .output) (consulted s) with dir := .output }
  exact ⟨t, (switchDir_precise .output s).andThen (k := fun _ s => shiftOut c s) ht, by rw [heq]; simp⟩

theorem sendCommand_cut (c : Byte) (hcs : s.cs = false) :
    Cut (.act .dirO :: byteOutSteps c) s (sendCommand c s) fun _ => Holds s.bt s.rxw :=
  have hbyte := shiftOut_cut c (s := { lineEvent (dirEvent .output) (consulted s) with dir := .output }) hcs
  (switchDir_cut .output hcs).andThen (switchDir_precise .output s) hbyte (fun _ _ _ h => h) fun _ _ h => h

/-! ### The three operations in a window -/

theorem drainBody_cut (hcs : s.cs = false) : Cut (microSteps .drain) s (drainBody s) fun k =>
    Holds (s.bt ++ if k < 25 then [] else [.inp (byteAt s 1)]) (if k < 25 then s.rxw else none) := by
  rw [drainBody, requireWindow_open hcs, andThen_go]
  exact turnAndReceive_cut hcs

theorem rdregBody_cut (a : RegAddr) (hcs : s.cs = false) : Cut (microSteps (.rdreg a)) s (rdregBody a s) fun k =>
    Holds (s.bt ++ (if k < 25 then [] else [.out (commandByte true a)]) ++
      if k < 50 then [] else [.inp (byteAt s 26)]) (if k < 50 then s.rxw else none) := by
  obtain ⟨t, hp, htcs, htrxw, htbt⟩ := sendCommand_precise (commandByte true a) s
  rw [rdregBody, requireWindow_open hcs, andThen_go, ← andThen_assoc]
  refine (sendCommand_cut _ hcs).andThen hp (turnAndReceive_cut (htcs.trans hcs)) (fun j hj u hu => ?_) fun j u hu => ?_
  · have hj' : j < 25 := hj
    simpa [hj', show j < 50 by omega] using hu
  · rw [byteAt_later hp.after.env hp.after.asked, htbt, htrxw] at hu
    simpa [show 25 + j < 50 ↔ j < 25 by omega] using hu

theorem wrregBody_cut (a : RegAddr) (v : Word) (hcs : s.cs = false) :
    Cut (microSteps (.wrreg a v)) s (wrregBody a v s) fun k =>
      Holds (s.bt ++ (if k < 25 then [] else [.out (commandByte false a)]) ++
        if k < 49 then [] else [.out (highByte v)]) s.rxw := by
  obtain ⟨t, hp, htcs, htrxw, htbt⟩ := sendCommand_precise (commandByte false a) s
  rw [wrregBody, requireWindow_open hcs, andThen_go, ← andThen_assoc, microSteps, List.append_assoc]
  refine (sendCommand_cut _ hcs).andThen hp (twoBytesOut_cut _ _ (htcs.trans hcs)) (fun j hj u hu => ?_)
    fun j u hu => ?_
  · have hj' : j < 25 := hj
    simpa [hj', show j < 49 by omega] using hu
  · rw [htbt, htrxw] at hu
    simpa [show 25 + j < 49 ↔ j < 24 by omega] using hu

end

/-! ### The operations -/

/-- The one check of the three operations (60_exceptions R232). -/
theorem exec_outside_window {i : Instr} {k : Unit → State → Flow Unit} {s : State}
    (hi : ∀ s, bodyOf i s = (requireWindow s).andThen k) (hs : Ready s) (hcs : s.cs = true) :
    exec i s = .next (raiseFault .notSelected s) := by
  apply exec_of_check hs
  rw [hi, requireWindow_closed (s := started i s) hcs, andThen_raised]

/-- The end of an operation that was cut where `Holds` says what stands in the transcript and in `RXW`. -/
theorem exec_of_cut_holds {i : Instr} {ms : List MicroStep} {s : State} {bt : Nat → List ByteEvent}
    {rxw : Nat → Option Word} (hs : Ready s)
    (hc : Cut ms (started i s) (bodyOf i (started i s)) fun k => Holds (bt k) (rxw k)) {k : Nat} (hk : k < ms.length)
    (hfail : FirstFail s k) :
    ∃ t, exec i s = .next t ∧ t.fault = 1 ∧ t.bt = bt k ++ [.desel] ∧ t.rxw = rxw k := by
  obtain ⟨u, hu, hholds⟩ := exec_of_cut hs hc hk hfail
  obtain ⟨hbt, hrxw⟩ := raiseFault_of_holds hholds .transportFailure
  exact ⟨_, hu, rfl, hbt, hrxw⟩

/-- Settles O7: the check, then the law of the two bytes in. -/
theorem drainReceivesWord : Obligations.DrainReceivesWord := by
  intro s hs
  refine ⟨fun hcs => exec_outside_window (i := .drain) (fun _ => rfl) hs hcs, fun hcs hok => ?_,
    fun hcs k hk hfail => ?_⟩
  · obtain ⟨t, hp, ht⟩ := drainBody_precise (s := started .drain s) hcs
    rw [exec_done_of_precise hs hp hok, ht]
    rfl
  · obtain ⟨t, ht, hfault, hbt, -⟩ := exec_of_cut_holds hs (drainBody_cut (s := started .drain s) hcs) hk hfail
    exact ⟨t, ht, hfault, hbt⟩

/-- Settles O8: the check, then the command byte out and the two bytes in. -/
theorem rdregReadsRegister : Obligations.RdregReadsRegister := by
  intro a s hs
  rw [← commandByte_read]
  refine ⟨fun hcs => exec_outside_window (i := .rdreg a) (fun _ => rfl) hs hcs, fun hcs hok => ?_,
    fun hcs k hk hfail => ?_⟩
  · obtain ⟨t, hp, ht⟩ := rdregBody_precise a (s := started (.rdreg a) s) hcs
    rw [exec_done_of_precise hs hp hok, ht, commandByte_bit_zero]
    rfl
  · obtain ⟨t, ht, hfault, hbt, -⟩ := exec_of_cut_holds hs (rdregBody_cut a (s := started (.rdreg a) s) hcs) hk hfail
    exact ⟨t, ht, hfault, hbt⟩

/-- Settles O9: the check, then the three bytes out. -/
theorem wrregWritesRegister : Obligations.WrregWritesRegister := by
  intro a v s hs
  rw [← commandByte_write]
  refine ⟨fun hcs => exec_outside_window (i := .wrreg a v) (fun _ => rfl) hs hcs, fun hcs hok => ?_,
    fun hcs k hk hfail => ?_⟩
  · obtain ⟨t, hp, ht⟩ := wrregBody_precise a v (s := started (.wrreg a v) s) hcs
    rw [exec_done_of_precise hs hp hok, ht, lowByte_bit_zero]
    rfl
  · obtain ⟨t, ht, hfault, hbt, -⟩ :=
      exec_of_cut_holds hs (wrregBody_cut a v (s := started (.wrreg a v) s) hcs) hk hfail
    exact ⟨t, ht, hfault, hbt⟩

/-- Settles O20: both bytes in, or the cut before and after the first byte's end. -/
theorem receiveWordIsWholeOrNone : Obligations.ReceiveWordIsWholeOrNone := by
  rintro i first s (⟨rfl, rfl⟩ | ⟨⟨a, rfl⟩, rfl⟩) hs hcs
  · refine ⟨fun hok => ?_, fun k hk hfail => ?_⟩
    · obtain ⟨t, ht, -, hrxw⟩ := exec_drain_receives hs hcs hok
      exact ⟨t, ht, hrxw⟩
    · obtain ⟨t, ht, -, -, hrxw⟩ := exec_of_cut_holds hs (drainBody_cut (s := started .drain s) hcs) hk hfail
      exact ⟨t, ht, hrxw⟩
  · refine ⟨fun hok => ?_, fun k hk hfail => ?_⟩
    · obtain ⟨-, hdone, -⟩ := rdregReadsRegister a s hs
      exact ⟨_, hdone hcs hok, rfl⟩
    · obtain ⟨t, ht, -, -, hrxw⟩ := exec_of_cut_holds hs (rdregBody_cut a (s := started (.rdreg a) s) hcs) hk hfail
      exact ⟨t, ht, hrxw⟩

/-! ### The frame -/

/-- Settles O25: a compound operation is a writer of the lines, `SR` and what it shifts, and of nothing else. -/
theorem wordOperationsFrame : Obligations.WordOperationsFrame := by
  intro i s t hi h
  have hr := exec_registersKept h
  have hdecode : i ≠ .decode := by obtain rfl | ⟨a, rfl⟩ | ⟨a, v, rfl⟩ := hi <;> simp
  have hsetres : ¬ ∃ r, i = .setres r := by obtain rfl | ⟨a, rfl⟩ | ⟨a, v, rfl⟩ := hi <;> simp
  have hselect : ¬ (i = .sel ∨ i = .desel) := by obtain rfl | ⟨a, rfl⟩ | ⟨a, v, rfl⟩ := hi <;> simp
  refine ⟨hr.res.resolve_right hsetres, hr.tq.resolve_right hdecode, hr.neg.resolve_right hdecode, exec_seq h,
    exec_cmds h, exec_cs h hselect, fun hw => hr.rxw.resolve_right ?_, fun hd => hr.dout.resolve_right ?_⟩
  · obtain ⟨a, v, rfl⟩ := hw
    simp
  · subst hd
    simp

end Sys2Proof.Machine
end

section
/-! SUPPORT. The temperature decoder (42_decoder): the constants of a resolution (R161, R162), the word as a sign and a
count of steps (R164), its range (R165); and `DECODE`, `SETRES` and `WAIT` with their frames (R168, R170, R171;
43_host_sequences R190). -/

namespace Sys2Proof.Machine

/-! ### The constants of a resolution -/

theorem decoderShift_eq (r : Resolution) : decoderShift r = 16 - resBits r := by cases r <;> rfl

theorem fullScale_eq (r : Resolution) : fullScale r = 2 ^ (resBits r - 1) := by cases r <;> rfl

theorem stepCelsius_eq (r : Resolution) : stepCelsius r = 1 / 2 ^ (resBits r - 9) := by
  cases r <;> norm_num [stepCelsius, resBits]

theorem stepCelsius_pos (r : Resolution) : 0 < stepCelsius r := by
  rw [stepCelsius_eq]
  positivity

/-- The shift leaves a step of `2 ^ (16 - r)` units of 1/128 °C (R164). -/
theorem stepCelsius_eq_units (r : Resolution) : stepCelsius r = 2 ^ (16 - resBits r) / 128 := by
  cases r <;> norm_num [stepCelsius, resBits]

theorem fullScale_mul_stepCelsius (r : Resolution) : (fullScale r : Rat) * stepCelsius r = 256 := by
  cases r <;> norm_num [fullScale, stepCelsius]

/-- `fullScale` is bit 15 of the word, moved by the decoder's shift. -/
theorem fullScale_mul_shift (r : Resolution) : fullScale r * 2 ^ (16 - resBits r) = 2 ^ 15 := by cases r <;> rfl

theorem resolutionOf_resCode_resBits (r : Resolution) : resolutionOf (resCode (resBits r)) = r := by cases r <;> rfl

/-- Settles O44: each conjunct is the law of one constant. -/
theorem decoderConstantsAsListed : Obligations.DecoderConstantsAsListed := fun r =>
  ⟨by cases r <;> rfl, resolutionOf_resCode_resBits r, decoderShift_eq r, fullScale_eq r, stepCelsius_eq r,
    fullScale_mul_stepCelsius r⟩

/-! ### The word as a sign bit and a count of steps -/

/-- The steps that the low 15 bits of a word count: its bits `14` to `16 - r` as a number. -/
def stepCount (raw : Word) (r : Resolution) : Nat := raw.toNat % 2 ^ 15 / 2 ^ (16 - resBits r)

theorem signBit_iff (raw : Word) : raw.getLsbD 15 = true ↔ 2 ^ 15 ≤ raw.toNat := by
  rw [← decide_eq_true_iff (p := 2 ^ 15 ≤ raw.toNat), ← BitVec.msb_eq_decide raw, BitVec.msb_eq_getLsbD_last]

theorem stepCount_lt (raw : Word) (r : Resolution) : stepCount raw r < fullScale r := by
  rw [stepCount, Nat.div_lt_iff_lt_mul (by positivity), fullScale_mul_shift]
  exact Nat.mod_lt _ (by positivity)

/-- The shifted word: the sign bit now weighs `fullScale`, above the count of the low 15 bits. -/
theorem shifted_eq (raw : Word) (r : Resolution) :
    raw.toNat / 2 ^ (16 - resBits r) = (if raw.getLsbD 15 then fullScale r else 0) + stepCount raw r := by
  have hlt := raw.isLt
  by_cases hsign : raw.getLsbD 15 = true
  · have hge := (signBit_iff raw).mp hsign
    have hsplit : raw.toNat = 2 ^ (16 - resBits r) * fullScale r + raw.toNat % 2 ^ 15 := by
      rw [Nat.mul_comm, fullScale_mul_shift]
      omega
    rw [if_pos hsign, stepCount, ← Nat.mul_add_div (by positivity), ← hsplit]
  · have hlow : raw.toNat < 2 ^ 15 := Nat.lt_of_not_le fun h => hsign ((signBit_iff raw).mpr h)
    rw [if_neg hsign, stepCount, Nat.mod_eq_of_lt hlow, Nat.zero_add]

theorem fullScale_le_shifted_iff (raw : Word) (r : Resolution) :
    fullScale r ≤ raw.toNat / 2 ^ (16 - resBits r) ↔ raw.getLsbD 15 = true := by
  have hlt := stepCount_lt raw r
  rw [shifted_eq]
  split <;> simp_all

/-- The decoder looks at the shifted word alone, and the shift is a division. -/
theorem decodeCount_of_shifted (raw : Word) (r : Resolution) :
    decodeCount raw r =
      if fullScale r ≤ raw.toNat / 2 ^ (16 - resBits r) then
        (fullScale r : Int) - (raw.toNat / 2 ^ (16 - resBits r) : Nat)
      else (raw.toNat / 2 ^ (16 - resBits r) : Nat) := by
  rw [decodeCount, decoderShift_eq, Nat.shiftRight_eq_div_pow]

/-- The count of the negative branch is the low bits' count, negated: `fullScale` cancels. -/
theorem decodeCount_eq (raw : Word) (r : Resolution) :
    decodeCount raw r = if raw.getLsbD 15 then -(stepCount raw r : Int) else stepCount raw r := by
  simp only [decodeCount_of_shifted, fullScale_le_shifted_iff]
  rw [shifted_eq]
  split <;> push_cast <;> omega

/-- Settles O45: bit 15 is the threshold test, and a step is `2 ^ (16 - r)` units of 1/128 °C. -/
theorem decodeIsSignAndMagnitude : Obligations.DecodeIsSignAndMagnitude := by
  refine fun raw r => ⟨fullScale_le_shifted_iff raw r, ?_⟩
  rw [decCelsius, decodeCount_eq, stepCelsius_eq_units, ← stepCount]
  split <;> push_cast <;> ring

/-! ### The range -/

theorem abs_decodeCount_le (raw : Word) (r : Resolution) : |decodeCount raw r| ≤ (fullScale r : Int) - 1 := by
  have hlt := stepCount_lt raw r
  rw [decodeCount_eq]
  split <;> simp only [abs_neg, Nat.abs_cast] <;> omega

/-- `fullScale - 1` steps are one step less than 256 °C (R165). -/
theorem fullScale_sub_one_mul_step (r : Resolution) :
    ((fullScale r : Rat) - 1) * stepCelsius r = 256 - stepCelsius r := by
  rw [sub_mul, fullScale_mul_stepCelsius, one_mul]

theorem abs_decCelsius_le (raw : Word) (r : Resolution) : |decCelsius raw r| ≤ 256 - stepCelsius r := by
  have hcount : |(decodeCount raw r : Rat)| ≤ (fullScale r : Rat) - 1 := by exact_mod_cast abs_decodeCount_le raw r
  rw [decCelsius, abs_mul, abs_of_pos (stepCelsius_pos r), ← fullScale_sub_one_mul_step]
  exact mul_le_mul_of_nonneg_right hcount (stepCelsius_pos r).le

theorem decCelsius_of_count_zero {raw : Word} {r : Resolution} (h : decodeCount raw r = 0) : decCelsius raw r = 0 := by
  rw [decCelsius, h, Int.cast_zero, zero_mul]

/-- The words with every low bit set: 0x7FFF and 0xFFFF. -/
theorem decodeCount_7FFF (r : Resolution) : decodeCount 0x7FFF r = (fullScale r : Int) - 1 := by cases r <;> rfl

theorem decodeCount_FFFF (r : Resolution) : decodeCount 0xFFFF r = -((fullScale r : Int) - 1) := by cases r <;> rfl

theorem decCelsius_of_shifted_eq {raw other : Word} {r : Resolution}
    (h : other.toNat / 2 ^ (16 - resBits r) = raw.toNat / 2 ^ (16 - resBits r)) :
    decCelsius other r = decCelsius raw r := by
  rw [decCelsius, decCelsius, decodeCount_of_shifted, decodeCount_of_shifted, h]

/-- Settles O46: at most `fullScale - 1` steps are counted, both ways, and the two extremes count them all. -/
theorem decodeRange : Obligations.DecodeRange := by
  intro raw r
  obtain ⟨hlow, hhigh⟩ := abs_le.mp (abs_decCelsius_le raw r)
  refine ⟨hlow, hhigh, decCelsius_of_count_zero (by cases r <;> rfl), decCelsius_of_count_zero (by cases r <;> rfl),
    rfl, ?_, ?_, fun _ => decCelsius_of_shifted_eq⟩
  · rw [decCelsius, decodeCount_7FFF, ← fullScale_sub_one_mul_step]
    push_cast
    rfl
  · rw [decCelsius, decodeCount_FFFF, ← fullScale_sub_one_mul_step, ← neg_mul]
    push_cast
    rfl

/-- Every decoded temperature, in units of 1/128 °C, is a signed 16-bit number (10_state R28). -/
theorem toInt_decUnits (raw : Word) (r : Resolution) : (BitVec.ofInt 16 (decUnits raw r)).toInt = decUnits raw r := by
  have hrange : |(decUnits raw r : Rat)| < 2 ^ 15 := by
    rw [decUnits_eq, abs_mul, abs_of_pos (by norm_num : (0 : Rat) < 128)]
    linarith [abs_decCelsius_le raw r, stepCelsius_pos r]
  have habs : |decUnits raw r| < 2 ^ 15 := by exact_mod_cast hrange
  obtain ⟨hlow, hhigh⟩ := abs_lt.mp habs
  exact BitVec.toInt_ofInt_eq_self (by decide) hlow.le hhigh

/-! ### The operations -/

section
variable {s : State}

theorem exec_decode_held (hs : Ready s) {raw : Word} (h : s.rxw = some raw) : exec .decode s = .next { s with
    tq := some (BitVec.ofInt 16 (decUnits raw (resolutionOf s.res))), neg := some (negFlag raw)
    outcome := some .done } := by
  refine exec_of_go hs (t := { started .decode s with
    tq := some (BitVec.ofInt 16 (decUnits raw (resolutionOf s.res))), neg := some (negFlag raw) }) ?_
  rw [bodyOf, decodeBody, h, readHeld_some, andThen_go]

theorem exec_decode_unwritten (hs : Ready s) (h : s.rxw = none) : exec .decode s = .next (raiseFault .unwritten s) := by
  apply exec_of_check hs
  rw [bodyOf, decodeBody, h, readHeld_none, andThen_raised]

theorem exec_setres (hs : Ready s) (r : Word) :
    exec (.setres r) s = .next { s with res := resCode r.toNat, outcome := some .done } :=
  exec_of_go (i := .setres r) hs rfl

theorem exec_wait (hs : Ready s) (n : Word) : exec (.wait n) s = .next { s with
    lt := s.lt ++ [.w n], bt := s.bt ++ [.w n], outcome := some .done } :=
  exec_of_go (i := .wait n) hs rfl

end

/-- A 16-bit operand is compared as a word or as the integer it holds. -/
theorem resCode_toNat (r : Word) :
    resCode r.toNat = if r = 13 then 0 else if r = 14 then 1 else if r = 15 then 2 else 3 := by
  have heq (k : Word) : (r.toNat : Int) = k.toNat ↔ r = k := by rw [Nat.cast_inj, BitVec.toNat_eq]
  have h13 : (r.toNat : Int) = 13 ↔ r = 13 := heq 13
  have h14 : (r.toNat : Int) = 14 ↔ r = 14 := heq 14
  have h15 : (r.toNat : Int) = 15 ↔ r = 15 := heq 15
  simp only [resCode, h13, h14, h15]

theorem resolutionOf_resCode (r : Word) : resolutionOf (resCode r.toNat) =
    if r = 13 then .r13 else if r = 14 then .r14 else if r = 15 then .r15 else .r16 := by
  rw [resCode_toNat]
  simp only [apply_ite resolutionOf]
  rfl

/-- Settles O11: `SETRES` is its one write. -/
theorem setresSelectsResolution : Obligations.SetresSelectsResolution := fun r s hs => by
  rw [exec_setres hs, resCode_toNat]

/-- Settles O10: the count fits `TQ`, so the number stored is the temperature's. -/
theorem decodeStoresTemperature : Obligations.DecodeStoresTemperature := by
  refine fun s hs => ⟨fun raw h => ⟨_, ?_, exec_decode_held hs h⟩, exec_decode_unwritten hs⟩
  rw [toInt_decUnits, decUnits_eq]

/-- Settles O47: `SETRES` leaves the block ready with the word in `RXW`, and `DECODE` reads the `RES` it wrote. -/
theorem decodeUsesSelectedResolution : Obligations.DecodeUsesSelectedResolution := by
  intro r raw s hs h
  have hdecode := exec_decode_held (s := { s with res := resCode r.toNat, outcome := some .done }) hs h
  refine ⟨_, _, exec_setres hs r, hdecode, ?_⟩
  rw [← resolutionOf_resCode]

/-! ### The frame -/

/-- An operation that gives a next state was refused by a faulted block, or it is what the block does when ready. -/
theorem exec_refused_or_ready {i : Instr} {s t u : State} (h : exec i s = .next t)
    (hu : Ready s → exec i s = .next u) : t = refuseOp s ∨ Ready s ∧ t = u := by
  obtain ⟨hseq, ⟨hf, -⟩ | ⟨-, rfl⟩⟩ := exec_next h
  · rw [hu ⟨hseq, hf⟩, Host.Outcome.next.injEq] at h
    exact .inr ⟨⟨hseq, hf⟩, h.symm⟩
  · exact .inl rfl

/-- All that fault entry changes (60_exceptions R240, R241). -/
theorem raiseFault_frame (c : Cause) {s : State} (hseq : s.seq = .idle) : raiseFault c s = { s with
    cs := (raiseFault c s).cs, fault := (raiseFault c s).fault, lt := (raiseFault c s).lt, bt := (raiseFault c s).bt
    outcome := (raiseFault c s).outcome } := by
  ext <;> simp [hseq]

/-- Settles O26: each operation was refused or is its law above, and only `DECODE` has a fault to enter. -/
theorem computationsFrame : Obligations.ComputationsFrame := by
  refine fun s t => ⟨fun h => ?_, fun r h => ?_, fun n h => ?_⟩
  · obtain hrxw | ⟨raw, hrxw⟩ := Option.eq_none_or_eq_some s.rxw
    · obtain rfl | ⟨⟨hseq, hzero⟩, rfl⟩ := exec_refused_or_ready h fun hs => exec_decode_unwritten hs hrxw
      · exact ⟨fun _ => rfl, fun hf => absurd rfl hf⟩
      · exact ⟨fun hf => absurd (hf.trans hzero) (causeCode_ne_zero .unwritten),
          fun _ => raiseFault_frame .unwritten hseq⟩
    · obtain rfl | ⟨-, rfl⟩ := exec_refused_or_ready h fun hs => exec_decode_held hs hrxw
      · exact ⟨fun _ => rfl, fun hf => absurd rfl hf⟩
      · exact ⟨fun _ => rfl, fun hf => absurd rfl hf⟩
  · obtain rfl | ⟨-, rfl⟩ := exec_refused_or_ready h fun hs => exec_setres hs r
    · rfl
    · rfl
  · obtain rfl | ⟨-, rfl⟩ := exec_refused_or_ready h fun hs => exec_wait hs n
    · rfl
    · rfl

end Sys2Proof.Machine
end

section
/-! SUPPORT. The host's computations on a word (43_host_sequences R200, R205, R206) and `WAIT` (R190). -/

namespace Sys2Proof.Machine

/-- Settles O12: `WAIT` is its one event in both histories. -/
theorem waitRecordsDelay : Obligations.WaitRecordsDelay := fun n _ hs => exec_wait hs n

/-! ### The value `CHANGERES` writes -/

/-- A mask of the bits from the `m`th on keeps those. -/
theorem getLsbD_and_allOnes_shiftLeft {n : Nat} (v : BitVec n) (m : Nat) {k : Nat} (hk : k < n) :
    (v &&& BitVec.allOnes n <<< m).getLsbD k = if m ≤ k then v.getLsbD k else false := by
  rw [BitVec.getLsbD_and, BitVec.getLsbD_shiftLeft]
  split
  · simp [hk, Nat.not_lt.mpr ‹m ≤ k›, show k - m < n by omega]
  · simp [Nat.not_le.mp ‹¬m ≤ k›]

/-- The mask 0xFFC0 is that of the bits from the sixth on. -/
theorem changeResValue_eq (c r : Word) :
    changeResValue c r = c &&& BitVec.allOnes 16 <<< 6 ||| (resCode r.toNat).zeroExtend 16 <<< 4 := rfl

/-- Settles O48: from bit 6 on the code has no bits, below it the mask has none. -/
theorem changeResMaskQuirk : Obligations.ChangeResMaskQuirk := by
  intro c r k hk
  rw [changeResValue_eq, BitVec.getLsbD_or, getLsbD_and_allOnes_shiftLeft c 6 hk]
  split
  · have hcode : (resCode r.toNat).getLsbD (k - 4) = false := BitVec.getLsbD_of_ge _ _ (by omega)
    simp [hcode]
  · split
    · simp [hk, Nat.not_lt.mpr ‹4 ≤ k›]
    · simp [Nat.not_le.mp ‹¬4 ≤ k›]

/-! ### The trip codec -/

/-- A whole number is its own nearest integer. -/
theorem roundAway_natCast (m : Nat) : roundAway m = m := by
  rw [roundAway, if_pos m.cast_nonneg]
  change ⌊(m : Rat) + 1 / 2⌋ = m
  rw [Int.floor_natCast_add]
  norm_num

/-- The mask 0xFFE0 clears nothing of a multiple of 32. -/
theorem ofNat_mul_32_and_FFE0 (n : Nat) : BitVec.ofNat 16 (n * 32) &&& 0xFFE0 = BitVec.ofNat 16 (n * 32) := by
  have hmask : (0xFFE0 : Word) = BitVec.allOnes 16 <<< 5 := by decide
  have hshift : BitVec.ofNat 16 (n * 32) = BitVec.ofNat 16 n <<< 5 := by
    apply BitVec.eq_of_toNat_eq
    simp [Nat.shiftLeft_eq]
  rw [hmask, hshift, ← BitVec.shiftLeft_and_distrib, BitVec.and_allOnes]

/-- The encoding of a quarter degree count: 32 units of 1/128 °C each, exact. -/
theorem tripEncode_quarters {n : Nat} (hn : n < 1024) :
    tripEncode ((n : Rat) / 4) = some (BitVec.ofNat 16 (n * 32)) := by
  have hround : roundAway ((n : Rat) / 4 * 128) = (n * 32 : Nat) := by
    rw [← roundAway_natCast]
    congr 1
    push_cast
    ring
  have hrange : -32768 ≤ ((n * 32 : Nat) : Int) ∧ ((n * 32 : Nat) : Int) ≤ 32767 := by omega
  simp only [tripEncode, hround]
  rw [if_pos hrange, BitVec.ofInt_natCast, ofNat_mul_32_and_FFE0]

/-- Settles O50: the encoded word counts 32 to the quarter degree, and an eighth of it is 4. -/
theorem tripCodecScalesBySixteen : Obligations.TripCodecScalesBySixteen := by
  refine fun n hn => ⟨_, tripEncode_quarters hn, ?_⟩
  rw [tripDecode, BitVec.toNat_ofNat, Nat.mod_eq_of_lt (by omega)]
  push_cast
  ring

end Sys2Proof.Machine
end

section
/-! SUPPORT. The parts that host sequences are made of (43_host_sequences R191): how often a part asks the environment,
where the first `fail` ends it, and what it has added when it goes on; then the operations and the windows as such
parts. -/

namespace Sys2Proof.Machine

/-! ### A part of a sequence -/

/-- The law of a part of a sequence with the end `o`, begun in `s`: it asks the environment `n` times; answered with
`ok` throughout it ends in `t`; the first `fail` ends it faulted (R191), deselected (60_exceptions R240), and with the
resolution it began with. -/
structure Runs (n : Nat) (s : State) (o : Host.Outcome State Fault Refusal) (t : State) : Prop where
  done : EnvOk s n → o = .next t
  failed : ∀ k < n, FirstFail s k → ∃ u, o = .next u ∧ u.fault = 1 ∧ u.cs = true ∧ u.res = s.res

/-- What a part that goes on leaves for the next one: a block that takes operations, the resolution it found, the
environment `n` answers on, and `bt` added to the byte transcript. -/
structure Passed (n : Nat) (bt : List ByteEvent) (s t : State) : Prop where
  ready : Ready t
  res : t.res = s.res
  env : t.env = s.env.drop n
  asked : t.asked = s.asked + n
  bt : t.bt = s.bt ++ bt

theorem afterOps_fault {k : State → Host.Outcome State Fault Refusal} {t : State} (hf : t.fault ≠ 0) :
    afterOps (.next t) k = .next t := if_neg hf

theorem runOps_singleton (i : Instr) (s : State) : runOps [i] s = exec i s := by
  cases h : exec i s <;> simp [runOps, h]

theorem afterOps_congr {o : Host.Outcome State Fault Refusal} {k l : State → Host.Outcome State Fault Refusal}
    (h : ∀ t, t.fault = 0 → k t = l t) : afterOps o k = afterOps o l := by
  cases o with
  | next t =>
    by_cases hf : t.fault = 0
    · rw [afterOps_done hf, afterOps_done hf, h t hf]
    · rw [afterOps_fault hf, afterOps_fault hf]
  | fault r => rfl
  | refused r => rfl

theorem afterOps_assoc (o : Host.Outcome State Fault Refusal) (k l : State → Host.Outcome State Fault Refusal) :
    afterOps (afterOps o k) l = afterOps o fun t => afterOps (k t) l := by
  cases o with
  | next t =>
    by_cases hf : t.fault = 0
    · rw [afterOps_done hf, afterOps_done hf]
    · rw [afterOps_fault hf, afterOps_fault hf, afterOps_fault hf]
  | fault r => rfl
  | refused r => rfl

theorem runOps_cons (i : Instr) (rest : List Instr) (s : State) :
    runOps (i :: rest) s = afterOps (exec i s) (runOps rest) := by
  rw [runOps]
  cases exec i s <;> rfl

/-- One list after another, wherever the first ends. -/
theorem runOps_append_eq (xs ys : List Instr) {s : State} (hf : s.fault = 0) :
    runOps (xs ++ ys) s = afterOps (runOps xs s) (runOps ys) := by
  induction xs generalizing s with
  | nil => rw [List.nil_append, runOps_nil, afterOps_done hf]
  | cons i xs ih => rw [List.cons_append, runOps_cons, runOps_cons, afterOps_assoc, afterOps_congr fun _ => ih]

section
variable {m n : Nat} {b c : List ByteEvent} {s t u : State} {o : Host.Outcome State Fault Refusal}
  {k : State → Host.Outcome State Fault Refusal}

theorem Passed.trans (h : Passed m b s t) (g : Passed n c t u) : Passed (m + n) (b ++ c) s u where
  ready := g.ready
  res := g.res.trans h.res
  env := by rw [g.env, h.env, List.drop_drop]
  asked := by rw [g.asked, h.asked, Nat.add_assoc]
  bt := by rw [g.bt, h.bt, List.append_assoc]

/-- A part that does not ask the environment. -/
theorem runs_of_next (h : o = .next t) : Runs 0 s o t := ⟨fun _ => h, fun k hk => absurd hk (Nat.not_lt_zero k)⟩

/-- One part after another: the first `fail` is in the first, or as much later in the second. -/
theorem Runs.afterOps (h : Runs m s o t) (ht : Passed m b s t) (hk : Runs n t (k t) u) :
    Runs (m + n) s (afterOps o k) u where
  done hok := by
    obtain ⟨-, hf⟩ := ht.ready
    rw [h.done (hok.mono (Nat.le_add_right m n)), afterOps_done hf, hk.done (hok.later ht.env ht.asked)]
  failed j hj := fun ⟨hok, hfail⟩ => by
    obtain ⟨-, hf⟩ := ht.ready
    obtain hlt | hge := Nat.lt_or_ge j m
    · obtain ⟨v, rfl, hv⟩ := h.failed j hlt ⟨hok, hfail⟩
      exact ⟨v, afterOps_fault (by simp [hv]), hv⟩
    · obtain ⟨i, rfl⟩ := Nat.exists_eq_add_of_le hge
      rw [← answerAt_later ht.env ht.asked] at hfail
      obtain ⟨v, hv, hfault, hcs, hres⟩ := hk.failed i (by omega) ⟨hok.later ht.env ht.asked, hfail⟩
      exact ⟨v, by rw [h.done (hok.mono hge), afterOps_done hf, hv], hfault, hcs, hres.trans ht.res⟩

theorem Runs.append {xs ys : List Instr} (hs : Ready s) (h : Runs m s (runOps xs s) t) (ht : Passed m b s t)
    (hk : Runs n t (runOps ys t) u) : Runs (m + n) s (runOps (xs ++ ys) s) u := by
  obtain ⟨-, hf⟩ := hs
  rw [runOps_append_eq xs ys hf]
  exact h.afterOps ht hk

/-- What the host derives from the word it has read (43_host_sequences R198). -/
theorem Runs.readThenRun {a : RegAddr} {rest : Word → List Instr} {w : Word}
    (h : Runs m s (runOps (regReadOps a) s) t) (ht : Passed m b s t) (hrxw : t.rxw = some w)
    (hk : Runs n t (runOps (rest w) t) u) : Runs (m + n) s (readThenRun a rest s) u :=
  h.afterOps ht (by rw [hrxw]; exact hk)

theorem Passed.byteAt (h : Passed m b s t) (k : Nat) : byteAt t k = byteAt s (m + k) := byteAt_later h.env h.asked k

theorem Passed.readWindow (h : Passed m b s t) (k : Nat) (a : RegAddr) :
    readWindow t k a = readWindow s (m + k) a := by
  simp only [Machine.readWindow, h.byteAt, Nat.add_assoc]

theorem Passed.writeWindow (h : Passed m b s t) (k : Nat) (a : RegAddr) (v : Word) :
    writeWindow t k a v = writeWindow s (m + k) a v := by
  simp only [Machine.writeWindow, h.byteAt, Nat.add_assoc]

end

/-! ### The operations -/

/-- Every operation but `SETRES`, which writes `RES`, has the law of a part: a fault deselects the line. -/
theorem runs_exec {i : Instr} {n : Nat} {s t : State} (hs : Ready s) (hi : ¬ ∃ r, i = .setres r)
    (hdone : EnvOk s n → exec i s = .next t)
    (hfailed : ∀ k < n, FirstFail s k → ∃ u, exec i s = .next u ∧ u.fault = 1) : Runs n s (runOps [i] s) t where
  done hok := (runOps_singleton i s).trans (hdone hok)
  failed k hk hfail := by
    obtain ⟨u, hu, hf⟩ := hfailed k hk hfail
    obtain ⟨-, hzero⟩ := hs
    obtain ⟨-, -, hcs⟩ := selectLineWriters i s u hu
    have hres := (exec_registersKept hu).res.resolve_right hi
    exact ⟨u, (runOps_singleton i s).trans hu, hf, hcs (by simp [hf, hzero]), hres⟩

section
variable {s : State}

theorem sel_runs (hs : Ready s) (hcs : s.cs = true) :
    ∃ t, Runs 1 s (runOps [.sel] s) t ∧ Passed 1 [.sel] s t ∧ t.cs = false := by
  obtain ⟨hdone, hfailed, -⟩ := selOpensWindow s hs
  refine ⟨_, runs_exec hs (by simp) (hdone hcs) fun k hk hfail => ?_, ⟨hs, rfl, rfl, rfl, rfl⟩, rfl⟩
  obtain rfl : k = 0 := by omega
  exact ⟨_, hfailed hcs hfail, rfl⟩

theorem desel_runs (hs : Ready s) :
    ∃ t, Runs 1 s (runOps [.desel] s) t ∧ Passed 1 [.desel] s t ∧ t.cs = true ∧ t.rxw = s.rxw := by
  obtain ⟨hdone, hfailed⟩ := deselClosesWindow s hs
  refine ⟨_, runs_exec hs (by simp) hdone fun k hk hfail => ?_, ⟨hs, rfl, rfl, rfl, rfl⟩, rfl, rfl⟩
  obtain rfl : k = 0 := by omega
  exact ⟨_, hfailed hfail, rfl⟩

theorem drain_runs (hs : Ready s) (hcs : s.cs = false) :
    ∃ t, Runs 49 s (runOps [.drain] s) t ∧ Passed 49 [.inp (byteAt s 1), .inp (byteAt s 25)] s t ∧ t.cs = false ∧
      t.rxw = some (byteAt s 1 ++ byteAt s 25) := by
  obtain ⟨-, hdone, hfailed⟩ := drainReceivesWord s hs
  refine ⟨_, runs_exec hs (by simp) (hdone hcs) fun k hk hfail => ?_, ⟨hs, rfl, rfl, rfl, rfl⟩, hcs, rfl⟩
  obtain ⟨u, hu, hf, -⟩ := hfailed hcs k hk hfail
  exact ⟨u, hu, hf⟩

theorem rdreg_runs (a : RegAddr) (hs : Ready s) (hcs : s.cs = false) :
    ∃ t, Runs 74 s (runOps [.rdreg a] s) t ∧
      Passed 74 [.out (0x80 ||| a.zeroExtend 8), .inp (byteAt s 26), .inp (byteAt s 50)] s t ∧
      t.rxw = some (byteAt s 26 ++ byteAt s 50) := by
  obtain ⟨-, hdone, hfailed⟩ := rdregReadsRegister a s hs
  refine ⟨_, runs_exec hs (by simp) (hdone hcs) fun k hk hfail => ?_, ⟨hs, rfl, rfl, rfl, rfl⟩, rfl⟩
  obtain ⟨u, hu, hf, -⟩ := hfailed hcs k hk hfail
  exact ⟨u, hu, hf⟩

theorem wrreg_runs (a : RegAddr) (v : Word) (hs : Ready s) (hcs : s.cs = false) :
    ∃ t, Runs 73 s (runOps [.wrreg a v] s) t ∧
      Passed 73 [.out (a.zeroExtend 8), .out (v.extractLsb' 8 8), .out (v.extractLsb' 0 8)] s t ∧ t.rxw = s.rxw := by
  obtain ⟨-, hdone, hfailed⟩ := wrregWritesRegister a v s hs
  refine ⟨_, runs_exec hs (by simp) (hdone hcs) fun k hk hfail => ?_, ⟨hs, rfl, rfl, rfl, rfl⟩, rfl⟩
  obtain ⟨u, hu, hf, -⟩ := hfailed hcs k hk hfail
  exact ⟨u, hu, hf⟩

theorem wait_runs (n : Word) (hs : Ready s) :
    ∃ t, Runs 0 s (runOps [.wait n] s) t ∧ Passed 0 [.w n] s t ∧ t.cs = s.cs :=
  ⟨_, runs_of_next ((runOps_singleton _ s).trans (exec_wait hs n)), ⟨hs, rfl, rfl, rfl, rfl⟩, rfl⟩

end

/-! ### The windows -/

section
variable {s : State}

/-- The start of every window (70_reset_and_hazards R270). -/
theorem drainedWindow_runs (hs : Ready s) (hcs : s.cs = true) :
    ∃ t, Runs 50 s (runOps [.sel, .drain] s) t ∧ Passed 50 [.sel, .inp (byteAt s 2), .inp (byteAt s 26)] s t ∧
      t.cs = false ∧ t.rxw = some (byteAt s 2 ++ byteAt s 26) := by
  obtain ⟨t, hsel, ht, hopen⟩ := sel_runs hs hcs
  obtain ⟨u, hdrain, hu, hstill, hrxw⟩ := drain_runs ht.ready hopen
  rw [ht.byteAt, ht.byteAt] at hu hrxw
  exact ⟨u, hsel.append hs ht hdrain, ht.trans hu, hstill, hrxw⟩

/-- A window without an exchange, the start of `TEMPREAD`. -/
theorem sampleWindow_runs (hs : Ready s) (hcs : s.cs = true) :
    ∃ t, Runs 51 s (runOps [.sel, .drain, .desel] s) t ∧
      Passed 51 [.sel, .inp (byteAt s 2), .inp (byteAt s 26), .desel] s t ∧ t.cs = true ∧
      t.rxw = some (byteAt s 2 ++ byteAt s 26) := by
  obtain ⟨t, hopen, ht, -, hsample⟩ := drainedWindow_runs hs hcs
  obtain ⟨u, hclose, hu, hclosed, hrxw⟩ := desel_runs ht.ready
  exact ⟨u, hopen.append hs ht hclose, ht.trans hu, hclosed, hrxw.trans hsample⟩

/-- `REGREAD a` (43_host_sequences R195). -/
theorem regRead_runs (a : RegAddr) (hs : Ready s) (hcs : s.cs = true) :
    ∃ t, Runs 125 s (runOps (regReadOps a) s) t ∧ Passed 125 (readWindow s 0 a) s t ∧ t.cs = true ∧
      t.rxw = some (byteAt s 76 ++ byteAt s 100) := by
  obtain ⟨t, hopen, ht, hin, -⟩ := drainedWindow_runs hs hcs
  obtain ⟨u, hread, hu, hword⟩ := rdreg_runs a ht.ready hin
  obtain ⟨v, hclose, hv, hclosed, hrxw⟩ := desel_runs hu.ready
  rw [ht.byteAt, ht.byteAt] at hu hword
  exact ⟨v, hopen.append hs ht (hread.append ht.ready hu hclose), ht.trans (hu.trans hv), hclosed, hrxw.trans hword⟩

/-- `REGWRITE a, v` (43_host_sequences R196). -/
theorem regWrite_runs (a : RegAddr) (v : Word) (hs : Ready s) (hcs : s.cs = true) :
    ∃ t, Runs 124 s (runOps (regWriteOps a v) s) t ∧ Passed 124 (writeWindow s 0 a v) s t ∧ t.cs = true ∧
      t.rxw = some (byteAt s 2 ++ byteAt s 26) := by
  obtain ⟨t, hopen, ht, hin, hsample⟩ := drainedWindow_runs hs hcs
  obtain ⟨u, hwrite, hu, hkept⟩ := wrreg_runs a v ht.ready hin
  obtain ⟨w, hclose, hw, hclosed, hrxw⟩ := desel_runs hu.ready
  exact ⟨w, hopen.append hs ht (hwrite.append ht.ready hu hclose), ht.trans (hu.trans hw), hclosed,
    (hrxw.trans hkept).trans hsample⟩

end

end Sys2Proof.Machine
end

section
/-! SUPPORT. The host sequences (43_host_sequences R194 to R210), each put together from its windows. -/

namespace Sys2Proof.Machine

theorem Passed.goodEnd {n : Nat} {b : List ByteEvent} {s t : State} (h : Passed n b s t) (hcs : t.cs = true) :
    goodEnd t :=
  have ⟨_, hf⟩ := h.ready
  ⟨hf, hcs⟩

/-! ### The temperature -/

/-- The temperature the host makes of what `DECODE` stores is the decoder's (42_decoder R160). -/
theorem hostCelsius_of_decoded {t : State} {raw : Word} {r : Resolution}
    (h : t.tq = some (BitVec.ofInt 16 (decUnits raw r))) : hostCelsius t = some (decCelsius raw r) := by
  rw [hostCelsius, h, Option.map_some, toInt_decUnits, decUnits_eq]
  simp

/-- `TEMPREAD` is the window of a sample, and then `DECODE`. -/
theorem tempRead_runs {s : State} (hs : Ready s) (hcs : s.cs = true) :
    ∃ t, Runs 51 s (runOps tempReadOps s) t ∧ goodEnd t ∧
      t.bt = s.bt ++ [ByteEvent.sel, .inp (byteAt s 2), .inp (byteAt s 26), .desel] ∧
      hostCelsius t = some (decCelsius (byteAt s 2 ++ byteAt s 26) (resolutionOf s.res)) := by
  obtain ⟨t, hwindow, ht, hclosed, hrxw⟩ := sampleWindow_runs hs hcs
  have hdecode := exec_decode_held ht.ready hrxw
  rw [ht.res] at hdecode
  exact ⟨_, hwindow.append hs ht (runs_of_next ((runOps_singleton .decode t).trans hdecode)), ht.goodEnd hclosed, ht.bt,
    hostCelsius_of_decoded rfl⟩

/-- Settles O51: the sample's window and `DECODE`; a faulted end has no value. -/
theorem tempReadDecodesSample : Obligations.TempReadDecodesSample := by
  intro s hs hcs
  obtain ⟨t, hrun, hgood, hbt, hvalue⟩ := tempRead_runs hs hcs
  have ⟨hf, _⟩ := hgood
  refine ⟨fun hok => ⟨t, ?_, hgood, hbt⟩, fun k hk hfail => ?_⟩
  · rw [seqTempRead, hrun.done hok, valueAfter_done hf, hvalue]
  · obtain ⟨u, hu, hfault, hhigh, -⟩ := hrun.failed k hk hfail
    refine ⟨u, ?_, hfault, hhigh⟩
    rw [seqTempRead, hu, valueAfter_fault (by simp [hfault])]

/-- Settles O52: `TEMPF` converts what `TEMPREAD` returns. -/
theorem tempFConvertsReading : Obligations.TempFConvertsReading := by
  intro s hs hcs
  obtain ⟨hdone, hfailed⟩ := tempReadDecodesSample s hs hcs
  refine ⟨fun hok => ?_, fun k hk hfail => ?_⟩
  · obtain ⟨t, ht, hgood, -⟩ := hdone hok
    exact ⟨t, hgood, by rw [seqTempF, ht]; rfl⟩
  · obtain ⟨t, ht, -⟩ := hfailed k hk hfail
    rw [seqTempF, ht]
    rfl

/-! ### One register -/

theorem seqRegRead_done {a : RegAddr} {s t : State} {w : Word} (h : runOps (regReadOps a) s = .next t)
    (hf : t.fault = 0) (hrxw : t.rxw = some w) : seqRegRead a s = (.next t, some w) := by
  rw [seqRegRead, h, valueAfter_done hf, hrxw]

/-- Settles O53: the value returned is what the window leaves in `RXW`. -/
theorem regReadReturnsWord : Obligations.RegReadReturnsWord := by
  intro a s hs hcs hok
  obtain ⟨t, hrun, ht, hclosed, hrxw⟩ := regRead_runs a hs hcs
  have ⟨_, hf⟩ := ht.ready
  exact ⟨t, seqRegRead_done (hrun.done hok) hf hrxw, ht.goodEnd hclosed, hrxw, ht.bt⟩

/-- Settles O54: the window of a write is the whole sequence. -/
theorem regWriteSendsWord : Obligations.RegWriteSendsWord := by
  intro a v s hs hcs hok
  obtain ⟨t, hrun, ht, hclosed, hrxw⟩ := regWrite_runs a v hs hcs
  exact ⟨t, hrun.done hok, ht.goodEnd hclosed, hrxw, ht.bt⟩

/-! ### Control, read and then written -/

/-- Settles O55: both windows end before `SETRES`, so a failure comes before it. -/
theorem changeResWritesThenSelects : Obligations.ChangeResWritesThenSelects := by
  intro r s hs hcs
  obtain ⟨t, hread, ht, hclosed, hrxw⟩ := regRead_runs Config.addrControl hs hcs
  obtain ⟨u, hwrite, hu, hended, -⟩ :=
    regWrite_runs Config.addrControl (changeResValue (byteAt s 76 ++ byteAt s 100) r) ht.ready hclosed
  rw [ht.writeWindow] at hu
  have hselect := (runOps_singleton _ u).trans (exec_setres hu.ready r)
  have hrun := hread.readThenRun (rest := changeResRest r) ht hrxw
    (hwrite.append ht.ready hu (runs_of_next hselect))
  refine ⟨fun hok => ⟨_, hrun.done hok, hu.goodEnd hended, rfl, ?_⟩, hrun.failed⟩
  rw [List.append_assoc]
  exact (ht.trans hu).bt

/-- Settles O57: the window of the read and the window of the write. -/
theorem oneShotReadsThenWrites : Obligations.OneShotReadsThenWrites := by
  intro e s hs hcs hok
  obtain ⟨t, hread, ht, hclosed, hrxw⟩ := regRead_runs Config.addrControl hs hcs
  obtain ⟨u, hwrite, hu, hended, -⟩ :=
    regWrite_runs Config.addrControl (oneShotValue e (byteAt s 76 ++ byteAt s 100)) ht.ready hclosed
  rw [ht.writeWindow] at hu
  have hall := ht.trans hu
  have hrun := hread.readThenRun (rest := oneShotRest e) ht hrxw hwrite
  refine ⟨u, hrun.done hok, hall.goodEnd hended, hall.res, ?_⟩
  rw [List.append_assoc]
  exact hall.bt

/-- A write of Control and the delay after it (70_reset_and_hazards R278). -/
theorem settledWrite_runs (v : Word) {s : State} (hs : Ready s) (hcs : s.cs = true) :
    ∃ t, Runs 124 s (runOps (regWriteOps Config.addrControl v ++ [Instr.wait Config.settleMs]) s) t ∧
      Passed 124 (writeWindow s 0 Config.addrControl v ++ [ByteEvent.w Config.settleMs]) s t ∧ t.cs = true := by
  obtain ⟨t, hwrite, ht, hclosed, -⟩ := regWrite_runs Config.addrControl v hs hcs
  obtain ⟨u, hwait, hu, hstill⟩ := wait_runs Config.settleMs ht.ready
  exact ⟨u, hwrite.append hs ht hwait, ht.trans hu, hstill.trans hclosed⟩

/-- The rest of `RESETSENSOR` is two writes, each with its delay. -/
theorem resetSensorRest_eq (c : Word) :
    resetSensorRest c = (regWriteOps Config.addrControl (shutdownValue c) ++ [Instr.wait Config.settleMs]) ++
      (regWriteOps Config.addrControl (wakeValue c) ++ [Instr.wait Config.settleMs]) := rfl

/-- Settles O56: the window of the read and two settled writes of what was read. -/
theorem resetSensorSequence : Obligations.ResetSensorSequence := by
  intro s hs hcs hok
  obtain ⟨t, hread, ht, hclosed, hrxw⟩ := regRead_runs Config.addrControl hs hcs
  obtain ⟨u, hdown, hu, hidle⟩ := settledWrite_runs (shutdownValue (byteAt s 76 ++ byteAt s 100)) ht.ready hclosed
  obtain ⟨v, hwake, hv, hended⟩ := settledWrite_runs (wakeValue (byteAt s 76 ++ byteAt s 100)) hu.ready hidle
  rw [ht.writeWindow] at hu
  rw [(ht.trans hu).writeWindow] at hv
  have hall := (ht.trans hu).trans hv
  have hwrites := hdown.append ht.ready hu hwake
  rw [← resetSensorRest_eq] at hwrites
  have hrun := hread.readThenRun ht hrxw hwrites
  have hbt := hall.bt
  simp only [List.append_assoc] at hbt
  refine ⟨v, hrun.done hok, hall.goodEnd hended, hall.res, ?_⟩
  simp only [List.append_assoc]
  exact hbt

/-! ### The trip registers -/

/-- Settles O58: two windows; a threshold without an encoding leaves no list of operations. -/
theorem setTripWritesLowThenHigh : Obligations.SetTripWritesLowThenHigh := by
  refine fun lo hi s => ⟨fun hnone => ?_, fun l h hlo hhi hs hcs hok => ?_⟩
  · obtain hlo | hhi := hnone
    · simp [seqSetTrip, setTripOps, hlo]
    · simp [seqSetTrip, setTripOps, hhi]
  · obtain ⟨t, hlow, ht, hclosed, -⟩ := regWrite_runs Config.addrTripLow l hs hcs
    obtain ⟨u, hhigh, hu, hended, -⟩ := regWrite_runs Config.addrTripHigh h ht.ready hclosed
    rw [ht.writeWindow] at hu
    have hall := ht.trans hu
    have hops : setTripOps lo hi = some (regWriteOps Config.addrTripLow l ++ regWriteOps Config.addrTripHigh h) := by
      simp [setTripOps, hlo, hhi]
    refine ⟨u, ?_, hall.goodEnd hended, ?_⟩
    · rw [seqSetTrip, hops, Option.map_some, (hlow.append hs ht hhigh).done hok]
    · rw [List.append_assoc]
      exact hall.bt

/-- Settles O59: two windows; the second begins where the first has left the environment. -/
theorem getTripReadsLowThenHigh : Obligations.GetTripReadsLowThenHigh := by
  intro s hs hcs hok
  obtain ⟨t, hlow, ht, hclosed, hl⟩ := regRead_runs Config.addrTripLow hs hcs
  obtain ⟨u, hhigh, hu, hended, hh⟩ := regRead_runs Config.addrTripHigh ht.ready hclosed
  have ⟨_, htf⟩ := ht.ready
  have ⟨_, huf⟩ := hu.ready
  have hfirst := seqRegRead_done (hlow.done (hok.mono (by decide))) htf hl
  have hsecond := seqRegRead_done (hhigh.done (hok.later ht.env ht.asked)) huf hh
  rw [ht.byteAt, ht.byteAt] at hsecond
  rw [ht.readWindow] at hu
  have hall := ht.trans hu
  refine ⟨u, ?_, hall.goodEnd hended, ?_⟩
  · simp only [seqGetTrip, hfirst, hsecond, Option.map_some]
  · rw [List.append_assoc]
    exact hall.bt

end Sys2Proof.Machine
end

section
/-! SUPPORT. The fault of an operation and of a word (60_exceptions R231 to R242): what raises each cause, the precise
end at the first micro-step answered with `fail`, and the refusals of a faulted block. -/

namespace Sys2Proof.Machine

/-! ### Fault entry and its ends -/

/-- Settles O13: the two cases of the forced deassert. -/
theorem faultEntryDeselects : Obligations.FaultEntryDeselects :=
  fun c _ => ⟨fun hcs => raiseFault_inside hcs c, fun hcs => raiseFault_outside hcs c⟩

/-- Settles O16: the common check comes before the decoder's answer. -/
theorem faultedBlockRefusesEveryWord : Obligations.FaultedBlockRefusesEveryWord :=
  fun w _ hseq hf => issueWord_faulted hseq hf w

/-- Settles O21: from `FAULT = 0` only fault entry writes another code. -/
theorem everyFaultEndsDeselected : Obligations.EveryFaultEndsDeselected := by
  intro i s t h hzero hne
  obtain ⟨heq, -⟩ | ⟨-, c, u, rfl⟩ := exec_fault h
  · exact absurd (heq.trans hzero) hne
  · exact ⟨raiseFault_cs c u, rfl, c, rfl, rfl⟩

/-! ### Illegal words -/

theorem exists_row_of_knownOpc : ∀ opc : BitVec 4, knownOpc opc = true → ∃ r ∈ opTable, r.opc = opc := by decide

/-- The rows of the opcode table cover the words without an error, and no other (30_encoding R88, R89). -/
theorem exists_row_selects_iff (w : OpBits) : (∃ r ∈ opTable, r.selects w = true) ↔ (cutFields w).wf = true := by
  rw [OpFields.wf, Option.isNone_iff_eq_none]
  constructor
  · rintro ⟨r, hr, hsel⟩
    obtain ⟨herr, -⟩ := (selects_iff hr w).mp hsel
    exact herr
  · intro herr
    obtain ⟨hopc, -⟩ := (error_eq_none _).mp herr
    obtain ⟨r, hr, heq⟩ := exists_row_of_knownOpc _ hopc
    exact ⟨r, hr, (selects_iff hr w).mpr ⟨herr, heq.symm⟩⟩

theorem issueWord_illegal {w : OpBits} {s : State} (hs : Ready s) (hw : (cutFields w).wf = false) :
    issueWord w s = .next (raiseFault .illegalOp s) := by
  obtain ⟨hseq, hf⟩ := hs
  cases hd : decode w with
  | ok i => simp [OpFields.wf, error_none_of_decode hd] at hw
  | error e =>
    rw [issueWord, hd]
    exact guarded_ready hseq hf

/-- Settles O15: a word without an error has the row of its operation code. -/
theorem illegalWordFaults : Obligations.IllegalWordFaults := by
  refine fun w => ⟨?_, fun s => issueWord_illegal⟩
  rw [← Bool.not_eq_true, ← exists_row_selects_iff]
  simp

/-! ### The three ends of an operation that is taken -/

/-- The check of an operation that fails before any event, by the cause it raises (60_exceptions R232 to R237). -/
inductive FailedCheck (i : Instr) (s : State) : Cause → Prop where
  | window (hi : Shifts i) (hcs : s.cs = true) : FailedCheck i s .notSelected
  | noWindow (hi : i = .sel) (hcs : s.cs = false) : FailedCheck i s .reentry
  | dirOut (hi : ∃ b, i = .shout b) (hdir : s.dir = .input) : FailedCheck i s .dirViolation
  | dirIn (hi : i = .shin) (hdir : s.dir = .output) : FailedCheck i s .dirViolation
  | held (hi : i = .decode) (hrxw : s.rxw = none) : FailedCheck i s .unwritten

/-- An operation whose checks do not all pass enters the fault of one that fails. -/
theorem exec_of_failed_check {i : Instr} {s : State} (hs : Ready s) (h : checksPass i s = false) :
    ∃ c, FailedCheck i s c ∧ exec i s = .next (raiseFault c s) := by
  have hwindow (hlow : (!s.cs) = false) : s.cs = true := by simpa using hlow
  cases i with
  | sel =>
    obtain ⟨-, -, hinside⟩ := selOpensWindow s hs
    exact ⟨_, .noWindow rfl h, hinside h⟩
  | shout b =>
    obtain ⟨houtside, hdir, -⟩ := shoutShiftsByteOut b s hs
    cases hcs : s.cs with
    | true => exact ⟨_, .window (.inl ⟨b, rfl⟩) hcs, houtside hcs⟩
    | false =>
      cases hd : s.dir with
      | input => exact ⟨_, .dirOut ⟨b, rfl⟩ hd, hdir hcs hd⟩
      | output => simp [checksPass, hcs, hd] at h
  | shin =>
    obtain ⟨houtside, hdir, -⟩ := shinShiftsByteIn s hs
    cases hcs : s.cs with
    | true => exact ⟨_, .window (.inr (.inl rfl)) hcs, houtside hcs⟩
    | false =>
      cases hd : s.dir with
      | input => simp [checksPass, hcs, hd] at h
      | output => exact ⟨_, .dirIn rfl hd, hdir hcs hd⟩
  | drain =>
    obtain ⟨houtside, -⟩ := drainReceivesWord s hs
    exact ⟨_, .window (.inr (.inr (.inl rfl))) (hwindow h), houtside (hwindow h)⟩
  | rdreg a =>
    obtain ⟨houtside, -⟩ := rdregReadsRegister a s hs
    exact ⟨_, .window (.inr (.inr (.inr (.inl ⟨a, rfl⟩)))) (hwindow h), houtside (hwindow h)⟩
  | wrreg a v =>
    obtain ⟨houtside, -⟩ := wrregWritesRegister a v s hs
    exact ⟨_, .window (.inr (.inr (.inr (.inr ⟨a, v, rfl⟩)))) (hwindow h), houtside (hwindow h)⟩
  | decode =>
    have hrxw : s.rxw = none := by simpa [checksPass] using h
    exact ⟨_, .held rfl hrxw, exec_decode_unwritten hs hrxw⟩
  | desel | dirout | dirin | setres r | wait n => cases h

theorem bodyOf_shin_precise {s : State} (hcs : s.cs = false) (hdir : s.dir = .input) :
    ∃ t, Precise byteInSteps (started .shin s) (bodyOf .shin (started .shin s)) () t := by
  obtain ⟨t, hp, -⟩ := shiftInByte_precise (started .shin s)
  rw [bodyOf_byte_checked bodyOf_shin hcs hdir]
  exact ⟨t, hp.map rfl hp.after⟩

/-- The operations that shift follow their list of micro-steps once their checks have passed. -/
theorem bodyOf_shifts_precise {i : Instr} {s : State} (hi : Shifts i) (h : checksPass i s = true) :
    ∃ t, Precise (microSteps i) (started i s) (bodyOf i (started i s)) () t := by
  obtain ⟨b, rfl⟩ | rfl | rfl | ⟨a, rfl⟩ | ⟨a, v, rfl⟩ := hi
  · obtain ⟨hcs, hdir⟩ : s.cs = false ∧ s.dir = .output := by simpa [checksPass] using h
    obtain ⟨t, hp, -⟩ := shiftOut_precise b (started (.shout b) s)
    exact ⟨t, bodyOf_byte_checked (bodyOf_shout b) hcs hdir ▸ hp⟩
  · obtain ⟨hcs, hdir⟩ : s.cs = false ∧ s.dir = .input := by simpa [checksPass] using h
    exact bodyOf_shin_precise hcs hdir
  · obtain ⟨t, hp, -⟩ := drainBody_precise (s := started .drain s) (by simpa [checksPass] using h)
    exact ⟨t, hp⟩
  · obtain ⟨t, hp, -⟩ := rdregBody_precise a (s := started (.rdreg a) s) (by simpa [checksPass] using h)
    exact ⟨t, hp⟩
  · obtain ⟨t, hp, -⟩ := wrregBody_precise a v (s := started (.wrreg a v) s) (by simpa [checksPass] using h)
    exact ⟨t, hp⟩

/-- The two ends of an operation whose micro-steps are `ms` and whose checks have passed: every answer `ok`, or a first
`fail`. -/
structure TakenEnds (i : Instr) (ms : List MicroStep) (s : State) : Prop where
  done : EnvOk s ms.length → ∃ t, exec i s = .next t ∧ t.outcome = some .done
  failed : ∀ k < ms.length, FirstFail s k →
    ∃ u, exec i s = .next (raiseFault .transportFailure u) ∧ FailedAt ms k s u

theorem takenEnds_of_precise {i : Instr} {ms : List MicroStep} {s t : State} (hs : Ready s)
    (hp : Precise ms (started i s) (bodyOf i (started i s)) () t) : TakenEnds i ms s := by
  obtain ⟨hseq, hf⟩ := hs
  obtain ⟨hdone, hfailed, -⟩ := exec_of_precise hseq hf hp
  exact ⟨fun hok => ⟨_, hdone hok, rfl⟩, hfailed⟩

/-- An operation of the one pin action `e`: the failure leaves what `cutSteps` says. -/
theorem takenEnds_of_pin {i : Instr} {e : LineEvent} {s t : State} (ht : t.outcome = some .done)
    (hdone : EnvOk s 1 → exec i s = .next t)
    (hfailed : FirstFail s 0 → exec i s = .next (raiseFault .transportFailure (cutSteps [.act e] 0 s))) :
    TakenEnds i [.act e] s := by
  refine ⟨fun hok => ⟨t, hdone hok, ht⟩, fun k hk hfail => ?_⟩
  obtain rfl : k = 0 := Nat.lt_one_iff.mp hk
  exact ⟨_, hfailed hfail, rfl, rfl, rfl, rfl⟩

/-- An operation that asks the environment nothing. -/
theorem takenEnds_of_done {i : Instr} {s t : State} (h : exec i s = .next t) (ht : t.outcome = some .done) :
    TakenEnds i [] s :=
  ⟨fun _ => ⟨t, h, ht⟩, fun k hk => absurd hk (Nat.not_lt_zero k)⟩

/-- The checks of an operation are all that stands between a ready block and its list of micro-steps (60_exceptions
R239). -/
theorem exec_takenEnds {i : Instr} {s : State} (hs : Ready s) (h : checksPass i s = true) :
    TakenEnds i (microSteps i) s := by
  have shifts (hi : Shifts i) : TakenEnds i (microSteps i) s :=
    have ⟨_, hp⟩ := bodyOf_shifts_precise hi h
    takenEnds_of_precise hs hp
  cases i with
  | sel =>
    obtain ⟨hdone, hfailed, -⟩ := selOpensWindow s hs
    exact takenEnds_of_pin rfl (hdone h) (hfailed h)
  | desel =>
    obtain ⟨hdone, hfailed⟩ := deselClosesWindow s hs
    exact takenEnds_of_pin rfl hdone hfailed
  | dirout =>
    obtain ⟨hdone, hfailed⟩ := diroutSwitchesToOutput s hs
    exact takenEnds_of_pin rfl hdone hfailed
  | dirin =>
    obtain ⟨hdone, hfailed⟩ := dirinSwitchesToInput s hs
    exact takenEnds_of_pin rfl hdone hfailed
  | shout b => exact shifts (.inl ⟨b, rfl⟩)
  | shin => exact shifts (.inr (.inl rfl))
  | drain => exact shifts (.inr (.inr (.inl rfl)))
  | rdreg a => exact shifts (.inr (.inr (.inr (.inl ⟨a, rfl⟩))))
  | wrreg a v => exact shifts (.inr (.inr (.inr (.inr ⟨a, v, rfl⟩))))
  | decode =>
    obtain ⟨raw, hraw⟩ := Option.isSome_iff_exists.mp h
    exact takenEnds_of_done (exec_decode_held hs hraw) rfl
  | setres r => exact takenEnds_of_done (exec_setres hs r) rfl
  | wait n => exact takenEnds_of_done (exec_wait hs n) rfl

/-- Settles O17: where the fault is taken, the first `k` events stand in the line trace. -/
theorem transportFailureIsPrecise : Obligations.TransportFailureIsPrecise := by
  intro i s k hs hchecks hk hfail
  obtain ⟨u, hu, hat⟩ := (exec_takenEnds hs hchecks).failed k hk hfail
  refine ⟨_, hu, rfl, raiseFault_cs .., rfl, rfl, ?_⟩
  rw [raiseFault_lt, hat.cs, hat.lt]
  split <;> simp

/-! ### The causes (60_exceptions R231) -/

/-- All that an operation which ends in a fault can have met: a check that failed, or an answer `fail` to one of its
micro-steps. -/
theorem exec_fault_cause {i : Instr} {s t : State} {c : Cause} (h : exec i s = .next t)
    (hc : t.outcome = some (.fault c)) :
    (∃ u, t = raiseFault c u) ∧
      (FailedCheck i s c ∨ c = .transportFailure ∧ ∃ k < (microSteps i).length, answerAt s k = .fail) := by
  have ends {u : State} {d : Cause} (hu : exec i s = .next (raiseFault d u)) : t = raiseFault d u ∧ d = c := by
    obtain rfl : t = raiseFault d u := Host.Outcome.next.inj (h.symm.trans hu)
    exact ⟨rfl, by simpa using hc⟩
  obtain ⟨hseq, ⟨hf, -⟩ | ⟨-, rfl⟩⟩ := exec_next h
  · cases hchecks : checksPass i s with
    | false =>
      obtain ⟨d, hd, hu⟩ := exec_of_failed_check ⟨hseq, hf⟩ hchecks
      obtain ⟨rfl, rfl⟩ := ends hu
      exact ⟨⟨s, rfl⟩, .inl hd⟩
    | true =>
      have htaken := exec_takenEnds ⟨hseq, hf⟩ hchecks
      obtain hok | ⟨k, hk, hfail⟩ := envOk_or_firstFail s (microSteps i).length
      · obtain ⟨u, hu, hdone⟩ := htaken.done hok
        obtain rfl : t = u := Host.Outcome.next.inj (h.symm.trans hu)
        simp [hdone] at hc
      · obtain ⟨u, hu, -⟩ := htaken.failed k hk hfail
        obtain ⟨rfl, rfl⟩ := ends hu
        exact ⟨⟨u, rfl⟩, .inr ⟨rfl, k, hk, hfail.2⟩⟩
  · simp at hc

/-- Settles O14: the cause of a fault is that of the check that failed, or `TransportFailure`. -/
theorem causesAsListed : Obligations.CausesAsListed := by
  refine ⟨⟨rfl, rfl, rfl, rfl, rfl, rfl, fun c => ⟨causeCode_ne_zero c, causeCode_ne_seven c⟩⟩, ?_⟩
  intro i s t c h hc
  obtain ⟨⟨u, rfl⟩, hcheck | ⟨rfl, hfail⟩⟩ := exec_fault_cause h hc
  · refine ⟨rfl, ?_⟩
    cases hcheck with
    | window hi hcs => exact ⟨hcs, hi⟩
    | noWindow hi hcs => exact ⟨hcs, hi⟩
    | dirOut hi hdir => exact .inl ⟨hi, hdir⟩
    | dirIn hi hdir => exact .inr ⟨hi, hdir⟩
    | held hi hrxw => exact ⟨hrxw, hi⟩
  · exact ⟨rfl, hfail⟩

end Sys2Proof.Machine
end

section
/-! SUPPORT. What a byte cut short leaves in the registers (60_exceptions R241): `DIR`, `DOUT`, `SR` and `CLK` where
fault entry is taken at micro-step `k`, for each shared stretch and then for each operation that shifts. -/

namespace Sys2Proof.Machine

/-- What stands in the four elements that a shift or a direction switch writes. -/
abbrev Leaves (dir : Dir) (dout : Level) (sr : Option Byte) (clk : Level) (u : State) : Prop :=
  u.dir = dir ∧ u.dout = dout ∧ u.sr = sr ∧ u.clk = clk

theorem Cut.mono {α : Type} {ms : List MicroStep} {s : State} {f : Flow α} {P Q : Nat → State → Prop}
    (hf : Cut ms s f P) (hpq : ∀ k < ms.length, ∀ u, P k u → Q k u) : Cut ms s f Q := by
  intro k hk hfail
  obtain ⟨u, hu, hP⟩ := hf k hk hfail
  exact ⟨u, hu, hpq k hk u hP⟩

/-- One stretch after another, where what the second leaves is said of its own micro-steps alone. -/
theorem Cut.thenCut {α β : Type} {ms ns : List MicroStep} {s t : State} {f : Flow α} {a : α} {k : α → State → Flow β}
    {P Q R : Nat → State → Prop} (hf : Cut ms s f P) (hp : Precise ms s f a t) (hk : Cut ns t (k a t) Q)
    (hfirst : ∀ j < ms.length, ∀ u, P j u → R j u) (hsecond : ∀ j < ns.length, ∀ u, Q j u → R (ms.length + j) u) :
    Cut (ms ++ ns) s (f.andThen k) R :=
  have hbounded : Cut ns t (k a t) fun j u => j < ns.length ∧ Q j u := hk.mono fun _ hj _ h => ⟨hj, h⟩
  hf.andThen hp hbounded hfirst fun j u ⟨hj, h⟩ => hsecond j hj u h

/-! ### The clock of a run of cells -/

/-- `CLK` where write cells that found it at `c` are cut at event `k`: active exactly where the failed action is a `CKI`
(40_transport R111, R116). Read cells are one event ahead: they begin with the clock (R117). -/
def cutClk (c : Level) (k : Nat) : Level :=
  if k % 3 = 2 then !Config.clkIdle else if k < 3 then c else Config.clkIdle

/-- Whole cells leave the clock at rest for the next one. -/
theorem cutClk_after_cells (c : Level) (n : Nat) {k j : Nat} (h : k = 3 * (n + 1) + j) :
    cutClk c k = cutClk Config.clkIdle j := by
  have hmod : k % 3 = j % 3 := by omega
  have hge : ¬ k < 3 := by omega
  rw [cutClk, cutClk, hmod, if_neg hge, ite_self]

@[simp] theorem writeCellSteps_length (d : Level) : (writeCellSteps d).length = 3 := rfl

@[simp] theorem readCellSteps_length : readCellSteps.length = 3 := rfl

/-! What a whole pulse and a whole cell leave of the clock and the data line. -/

@[simp] theorem pulsed_dout (s : State) : (pulsed s).dout = s.dout := by simp [pulsed]
@[simp] theorem pulsed_sr (s : State) : (pulsed s).sr = s.sr := by simp [pulsed]
@[simp] theorem pulsed_clk (s : State) : (pulsed s).clk = Config.clkIdle := rfl
@[simp] theorem writtenCell_clk (r : Byte) (s : State) : (writtenCell r s).clk = Config.clkIdle := rfl
@[simp] theorem writtenCell_dout (r : Byte) (s : State) : (writtenCell r s).dout = r.getLsbD 7 := by
  simp [writtenCell]
@[simp] theorem readCelled_clk (r : Byte) (s : State) : (readCelled r s).clk = Config.clkIdle := rfl
@[simp] theorem readCelled_dout (r : Byte) (s : State) : (readCelled r s).dout = s.dout := by simp [readCelled]

/-! ### The cells -/

theorem pin_cut (e : LineEvent) (s : State) : Cut [.act e] s (pin e s) fun _ u => u = consulted s :=
  fun _ hk ⟨_, hfail⟩ => ⟨_, pin_fail (Nat.lt_one_iff.mp hk ▸ hfail), rfl⟩

theorem sample_cut (s : State) : Cut [.sample] s (sample s) fun _ u => u = consulted s :=
  fun _ hk ⟨_, hfail⟩ => ⟨_, sample_fail (Nat.lt_one_iff.mp hk ▸ hfail), rfl⟩

/-- The clock is active where its return to idle failed (40_transport R111). -/
theorem pulse_leaves (s : State) : Cut [.act .ckA, .act .ckI] s (pulse s) fun k =>
    Leaves s.dir s.dout s.sr (if k = 0 then s.clk else !Config.clkIdle) := by
  have hfall := pin_cut .ckI { lineEvent .ckA (consulted s) with clk := !Config.clkIdle }
  refine (pin_cut .ckA s).andThen (pin_precise .ckA s) (hfall.before _) ?_ ?_
  · rintro j hj u rfl
    obtain rfl : j = 0 := Nat.lt_one_iff.mp hj
    exact ⟨rfl, rfl, rfl, rfl⟩
  · rintro j u rfl
    exact ⟨rfl, rfl, rfl, (if_neg (by simp)).symm⟩

/-- A write cell cut short has not shifted; its bit is driven unless that failed (40_transport R116). -/
theorem writeCell_leaves {r : Byte} {s : State} (h : s.sr = some r) :
    Cut (writeCellSteps (r.getLsbD 7)) s (writeCell s) fun k =>
      Leaves s.dir (if k = 0 then s.dout else r.getLsbD 7) (some r) (cutClk s.clk k) := by
  have hpulse := pulse_leaves { lineEvent (.d (r.getLsbD 7)) (consulted s) with dout := r.getLsbD 7 }
  rw [writeCell, h, readHeld_some, andThen_go]
  refine (pin_cut _ s).thenCut (pin_precise _ s) (hpulse.before _) ?_ ?_
  · rintro j hj u rfl
    obtain rfl : j = 0 := Nat.lt_one_iff.mp hj
    exact ⟨rfl, rfl, h, rfl⟩
  · rintro j hj u ⟨hdir, hdout, hsr, hclk⟩
    refine ⟨hdir, by simp [hdout], hsr.trans h, hclk.trans ?_⟩
    obtain rfl | rfl : j = 0 ∨ j = 1 := Nat.le_one_iff_eq_zero_or_eq_one.mp (Nat.lt_succ_iff.mp hj)
    · rfl
    · rfl

/-- A read cell cut short has not shifted (40_transport R117). -/
theorem readCell_leaves {r : Byte} {s : State} (h : s.sr = some r) :
    Cut readCellSteps s (readCell s) fun k => Leaves s.dir s.dout (some r) (cutClk s.clk (k + 1)) := by
  refine (pulse_leaves s).thenCut (pulse_precise s) ((sample_cut _).before _) ?_ ?_
  · rintro j hj u ⟨hdir, hdout, hsr, hclk⟩
    refine ⟨hdir, hdout, hsr.trans h, hclk.trans ?_⟩
    obtain rfl | rfl : j = 0 ∨ j = 1 := Nat.le_one_iff_eq_zero_or_eq_one.mp (Nat.lt_succ_iff.mp hj)
    · rfl
    · rfl
  · rintro j hj u rfl
    obtain rfl : j = 0 := Nat.lt_one_iff.mp hj
    exact ⟨(pulsed_rest s).dir, pulsed_dout s, (pulsed_sr s).trans h, pulsed_clk s⟩

theorem writeCells_leaves (n : Nat) (r : Byte) (s : State) (h : s.sr = some r) :
    Cut ((List.range n).flatMap fun i => writeCellSteps ((r <<< i).getLsbD 7)) s (repeatCell writeCell n s) fun k =>
      Leaves s.dir (if k = 0 then s.dout else (r <<< ((k - 1) / 3)).getLsbD 7) (some (r <<< (k / 3)))
        (cutClk s.clk k) := by
  induction n generalizing r s with
  | zero => exact fun k hk => absurd hk (Nat.not_lt_zero k)
  | succ n ih =>
    have hrest := ih (shiftIn r false) (writtenCell r s) rfl
    simp only [shiftIn_false_shift, (writtenCell_rest r s).dir, writtenCell_dout, writtenCell_clk] at hrest
    rw [List.range_succ_eq_map, List.flatMap_cons, List.flatMap_map, BitVec.shiftLeft_zero]
    refine (writeCell_leaves h).andThen (writeCell_precise h) hrest ?_ ?_
    · rintro j hj u ⟨hdir, hdout, hsr, hclk⟩
      rw [writeCellSteps_length] at hj
      rw [show (j - 1) / 3 = 0 by omega, show j / 3 = 0 by omega, BitVec.shiftLeft_zero]
      exact ⟨hdir, hdout, hsr, hclk⟩
    · rintro j u ⟨hdir, hdout, hsr, hclk⟩
      rw [writeCellSteps_length, Nat.add_div_left j three_pos, if_neg (by omega)]
      refine ⟨hdir, hdout.trans ?_, hsr, hclk.trans (cutClk_after_cells _ 0 rfl).symm⟩
      cases j with
      | zero => exact congrArg (·.getLsbD 7) (BitVec.shiftLeft_zero r).symm
      | succ j => rw [if_neg (by omega), show (3 + (j + 1) - 1) / 3 = j / 3 + 1 by omega, Nat.add_sub_cancel]

/-! ### The first bits of a byte in -/

theorem shiftIn_ushiftRight : ∀ (r : Byte) (b : Level), r.toNat < 2 ^ 7 → shiftIn r b >>> 1 = r := by decide

theorem shiftIn_toNat_lt : ∀ (r : Byte) (b : Level), (shiftIn r b).toNat < 2 * (r.toNat + 1) := by decide

/-- The last of the read cells. -/
theorem readInto_succ (s : State) (n k : Nat) (r : Byte) :
    readInto s (n + 1) k r = shiftIn (readInto s n k r) (levelAt s (k + 3 * n + 2)) := by
  induction n generalizing k r with
  | zero => rfl
  | succ n ih => rw [readInto, ih, readInto, show k + 3 + 3 * n = k + 3 * (n + 1) by omega]

theorem readInto_toNat_lt (s : State) (n k : Nat) : (readInto s n k 0).toNat < 2 ^ n := by
  induction n with
  | zero => simp [readInto]
  | succ n ih =>
    rw [readInto_succ, Nat.pow_succ']
    exact (shiftIn_toNat_lt _ _).trans_le (Nat.mul_le_mul_left 2 ih)

theorem readInto_ushiftRight (s : State) (k : Nat) {n m : Nat} (h : n + m ≤ 8) :
    readInto s (n + m) k 0 >>> m = readInto s n k 0 := by
  induction m with
  | zero => rfl
  | succ m ih =>
    have hlt : (readInto s (n + m) k 0).toNat < 2 ^ 7 :=
      (readInto_toNat_lt s _ k).trans_le (Nat.pow_le_pow_right two_pos (by omega))
    rw [← Nat.add_assoc, readInto_succ, Nat.add_comm m 1, BitVec.shiftRight_add, shiftIn_ushiftRight _ _ hlt,
      ih (by omega)]

/-- Fewer than eight cells leave the first bits of the byte, at the low end of `SR`. -/
theorem readInto_eq_byteAt (s : State) (k : Nat) {n : Nat} (h : n ≤ 8) : readInto s n k 0 = byteAt s k >>> (8 - n) := by
  rw [← readInto_eight, ← readInto_ushiftRight s k (n := n) (m := 8 - n) (by omega), Nat.add_sub_cancel' h]

theorem readCells_leaves (n : Nat) (r : Byte) (s : State) (h : s.sr = some r) :
    Cut (List.replicate n readCellSteps).flatten s (repeatCell readCell n s) fun k =>
      Leaves s.dir s.dout (some (readInto s (k / 3) 0 r)) (cutClk s.clk (k + 1)) := by
  induction n generalizing r s with
  | zero => exact fun k hk => absurd hk (Nat.not_lt_zero k)
  | succ n ih =>
    have hp := readCell_precise h
    have hrest := ih (shiftIn r (levelAt s 2)) (readCelled r s) rfl
    simp only [(readCelled_rest r s).dir, readCelled_dout, readCelled_clk] at hrest
    rw [List.replicate_succ, List.flatten_cons]
    refine (readCell_leaves h).andThen hp hrest ?_ ?_
    · rintro j hj u ⟨hdir, hdout, hsr, hclk⟩
      rw [readCellSteps_length] at hj
      rw [show j / 3 = 0 by omega]
      exact ⟨hdir, hdout, hsr, hclk⟩
    · rintro j u ⟨hdir, hdout, hsr, hclk⟩
      rw [readCellSteps_length, Nat.add_div_left j three_pos]
      refine ⟨hdir, hdout, hsr.trans ?_, hclk.trans (cutClk_after_cells _ 0 (by omega)).symm⟩
      rw [readInto_later hp.after.env hp.after.asked]
      rfl

/-! ### The bytes -/

/-- A byte out cut short: the completed cells have shifted it (40_transport R118). -/
theorem shiftOut_leaves (b : Byte) (s : State) : Cut (byteOutSteps b) s (shiftOut b s) fun k =>
    Leaves s.dir (if k = 0 then s.dout else b.getLsbD (7 - (k - 1) / 3)) (some (b <<< (k / 3))) (cutClk s.clk k) := by
  have hcells := writeCells_leaves 8 b { s with sr := some b } rfl
  rw [← byteOutSteps_eq] at hcells
  refine Cut.mono (hcells.before _) fun k hk u ⟨hdir, hdout, hsr, hclk⟩ => ⟨hdir, hdout.trans ?_, hsr, hclk⟩
  have hcell : (k - 1) / 3 ≤ 7 := by
    rw [byteOutSteps_length] at hk
    omega
  rw [BitVec.getLsbD_shiftLeft, decide_eq_false (Nat.not_lt.mpr hcell)]
  rfl

/-- A byte in cut short: `SR` holds the bits sampled so far (40_transport R119). -/
theorem shiftInByte_leaves (s : State) : Cut byteInSteps s (shiftInByte s) fun k =>
    Leaves s.dir s.dout (some (byteAt s 0 >>> (8 - k / 3))) (cutClk s.clk (k + 1)) := by
  have hcells := readCells_leaves 8 0 { s with sr := some 0 } rfl
  refine Cut.mono (hcells.before _) fun k hk u ⟨hdir, hdout, hsr, hclk⟩ => ⟨hdir, hdout, hsr.trans ?_, hclk⟩
  have hcell : k / 3 ≤ 8 := by
    rw [byteInSteps_length] at hk
    omega
  rw [readInto_eq_byteAt _ _ hcell]
  rfl

theorem switchDir_leaves (d : Dir) (s : State) :
    Cut [.act (dirEvent d)] s (switchDir d s) fun _ => Leaves s.dir s.dout s.sr s.clk :=
  ((pin_cut (dirEvent d) s).before _).mono fun _ _ _ h => by rw [h]; exact ⟨rfl, rfl, rfl, rfl⟩

/-- The second byte in begins where the first left the clock at rest. -/
theorem receiveWord_leaves (s : State) : Cut (byteInSteps ++ byteInSteps) s (receiveWord s) fun k =>
    Leaves s.dir s.dout
      (if k < 24 then some (byteAt s 0 >>> (8 - k / 3)) else some (byteAt s 24 >>> (8 - (k - 24) / 3)))
      (cutClk s.clk (k + 1)) := by
  obtain ⟨t, hp, ht⟩ := shiftInByte_precise s
  have hlow := shiftInByte_leaves { t with rxw := none }
  have hbyte : byteAt { t with rxw := none } 0 = byteAt s 24 := byteAt_later (n := 24) hp.after.env hp.after.asked 0
  rw [hbyte] at hlow
  refine (shiftInByte_leaves s).andThen hp (hlow.before _) ?_ ?_
  · rintro j hj u ⟨hdir, hdout, hsr, hclk⟩
    rw [byteInSteps_length] at hj
    exact ⟨hdir, hdout, by rw [hsr, if_pos hj], hclk⟩
  · rintro j u ⟨hdir, hdout, hsr, hclk⟩
    rw [ht] at hdir hdout hclk
    rw [byteInSteps_length, if_neg (by omega), Nat.add_sub_cancel_left]
    exact ⟨hdir, hdout, hsr, hclk.trans (cutClk_after_cells _ 7 (by omega)).symm⟩

/-- The end of `DRAIN` and `RDREG`: the switch to input, then the two bytes. -/
theorem turnAndReceive_leaves (s : State) :
    Cut (.act .dirI :: (byteInSteps ++ byteInSteps)) s ((switchDir .input s).andThen fun _ s => receiveWord s) fun k =>
      Leaves (if k = 0 then s.dir else .input) s.dout
        (if k = 0 then s.sr else if k < 25 then some (byteAt s 1 >>> (8 - (k - 1) / 3))
          else some (byteAt s 25 >>> (8 - (k - 25) / 3)))
        (cutClk s.clk k) := by
  have hp := switchDir_precise .input s
  have hreceive := receiveWord_leaves { lineEvent (dirEvent .input) (consulted s) with dir := .input }
  rw [byteAt_later hp.after.env hp.after.asked, byteAt_later hp.after.env hp.after.asked] at hreceive
  refine (switchDir_leaves .input s).andThen hp hreceive ?_ ?_
  · rintro j hj u h
    obtain rfl : j = 0 := Nat.lt_one_iff.mp hj
    exact h
  · rintro j u h
    rw [List.length_singleton, Nat.add_comm 1 j]
    simpa [show j + 1 < 25 ↔ j < 24 by omega] using h

/-- The start of `RDREG` and `WRREG`: the switch to output, then the command byte. -/
theorem sendCommand_leaves (c : Byte) (s : State) : Cut (.act .dirO :: byteOutSteps c) s (sendCommand c s) fun k =>
    Leaves (if k = 0 then s.dir else .output) (if k ≤ 1 then s.dout else c.getLsbD (7 - (k - 2) / 3))
      (if k = 0 then s.sr else some (c <<< ((k - 1) / 3))) (cutClk s.clk (k - 1)) := by
  have hbyte := shiftOut_leaves c { lineEvent (dirEvent .output) (consulted s) with dir := .output }
  refine (switchDir_leaves .output s).andThen (switchDir_precise .output s) hbyte ?_ ?_
  · rintro j hj u h
    obtain rfl : j = 0 := Nat.lt_one_iff.mp hj
    exact h
  · rintro j u h
    rw [List.length_singleton, Nat.add_comm 1 j]
    simpa using h

theorem sendCommand_done (c : Byte) (s : State) :
    ∃ t, Precise (.act .dirO :: byteOutSteps c) s (sendCommand c s) () t ∧
      Leaves .output (c.getLsbD 0) (some 0) Config.clkIdle t := by
  obtain ⟨t, ht, heq⟩ := shiftOut_precise c { lineEvent (dirEvent .output) (consulted s) with dir := .output }
  refine ⟨t, (switchDir_precise .output s).andThen (k := fun _ s => shiftOut c s) ht, ?_⟩
  rw [heq]
  exact ⟨rfl, rfl, rfl, rfl⟩

/-- The bits of a byte sent before the row `v` are the first of the row that the two make. -/
theorem getLsbD_append_head {n : Nat} (c : Byte) (v : BitVec n) {k : Nat} (h : k ≤ 7) :
    (c ++ v).getLsbD (n + 7 - k) = c.getLsbD (7 - k) := by
  rw [BitVec.getLsbD_append, if_neg (by omega), show n + 7 - k - n = 7 - k by omega]

theorem getLsbD_append_tail {n : Nat} (c : Byte) (v : BitVec n) {k : Nat} (h : k < n) :
    (c ++ v).getLsbD k = v.getLsbD k := by
  rw [BitVec.getLsbD_append, if_pos h]

/-- The end of `WRREG`: the two bytes of its value, whose bits leave in one row. -/
theorem twoBytesOut_leaves (hi lo : Byte) (s : State) :
    Cut (byteOutSteps hi ++ byteOutSteps lo) s ((shiftOut hi s).andThen fun _ s => shiftOut lo s) fun k =>
      Leaves s.dir (if k = 0 then s.dout else (hi ++ lo).getLsbD (15 - (k - 1) / 3))
        (if k < 24 then some (hi <<< (k / 3)) else some (lo <<< ((k - 24) / 3))) (cutClk s.clk k) := by
  obtain ⟨t, hp, ht⟩ := shiftOut_precise hi s
  refine (shiftOut_leaves hi s).andThen hp (shiftOut_leaves lo t) ?_ ?_
  · rintro j hj u ⟨hdir, hdout, hsr, hclk⟩
    rw [byteOutSteps_length] at hj
    rw [if_pos hj, getLsbD_append_head (n := 8) hi lo (by omega)]
    exact ⟨hdir, hdout, hsr, hclk⟩
  · rintro j u ⟨hdir, hdout, hsr, hclk⟩
    rw [ht] at hdir hdout hclk
    rw [byteOutSteps_length, if_neg (by omega), if_neg (by omega), Nat.add_sub_cancel_left]
    refine ⟨hdir, hdout.trans ?_, hsr, hclk.trans (cutClk_after_cells _ 7 rfl).symm⟩
    cases j with
    | zero => exact (getLsbD_append_head (n := 8) hi lo (k := 7) le_rfl).symm
    | succ j =>
      rw [if_neg (Nat.succ_ne_zero j), getLsbD_append_tail hi lo (by omega),
        show 15 - (24 + (j + 1) - 1) / 3 = 7 - (j + 1 - 1) / 3 by omega]

/-! ### The operations -/

theorem shoutBody_leaves (b : Byte) {s : State} (hcs : s.cs = false) (hdir : s.dir = .output) :
    Cut (microSteps (.shout b)) (started (.shout b) s) (bodyOf (.shout b) (started (.shout b) s)) fun k =>
      Leaves s.dir (if k = 0 then s.dout else b.getLsbD (7 - (k - 1) / 3)) (some (b <<< (k / 3))) (cutClk s.clk k) := by
  rw [bodyOf_byte_checked (bodyOf_shout b) hcs hdir]
  exact shiftOut_leaves b (started (.shout b) s)

theorem shinBody_leaves {s : State} (hcs : s.cs = false) (hdir : s.dir = .input) :
    Cut (microSteps .shin) (started .shin s) (bodyOf .shin (started .shin s)) fun k =>
      Leaves s.dir s.dout (some (byteAt s 0 >>> (8 - k / 3))) (cutClk s.clk (k + 1)) := by
  rw [bodyOf_byte_checked bodyOf_shin hcs hdir]
  exact (shiftInByte_leaves (started .shin s)).before _

section
variable {s : State}

theorem drainBody_leaves (hcs : s.cs = false) : Cut (microSteps .drain) s (drainBody s) fun k =>
    Leaves (if k = 0 then s.dir else .input) s.dout
      (if k = 0 then s.sr else if k < 25 then some (byteAt s 1 >>> (8 - (k - 1) / 3))
        else some (byteAt s 25 >>> (8 - (k - 25) / 3)))
      (cutClk s.clk k) := by
  rw [drainBody, requireWindow_open hcs, andThen_go]
  exact turnAndReceive_leaves s

theorem rdregBody_leaves (a : RegAddr) (hcs : s.cs = false) : Cut (microSteps (.rdreg a)) s (rdregBody a s) fun k =>
    Leaves (if k = 0 then s.dir else if k ≤ 25 then .output else .input)
      (if k ≤ 1 then s.dout else if k < 25 then (commandByte true a).getLsbD (7 - (k - 2) / 3)
        else (commandByte true a).getLsbD 0)
      (if k = 0 then s.sr else if k ≤ 25 then some (commandByte true a <<< ((k - 1) / 3))
        else if k < 50 then some (byteAt s 26 >>> (8 - (k - 26) / 3)) else some (byteAt s 50 >>> (8 - (k - 50) / 3)))
      (cutClk s.clk (k - 1)) := by
  obtain ⟨t, hp, htdir, htdout, htsr, htclk⟩ := sendCommand_done (commandByte true a) s
  have hreceive := turnAndReceive_leaves t
  rw [byteAt_later hp.after.env hp.after.asked, byteAt_later hp.after.env hp.after.asked, htdir, htdout, htsr,
    htclk] at hreceive
  rw [rdregBody, requireWindow_open hcs, andThen_go, ← andThen_assoc]
  refine (sendCommand_leaves _ s).andThen hp hreceive ?_ ?_
  · rintro j hj u h
    have hj' : j < 25 := hj
    simpa [hj', show j ≤ 25 by omega] using h
  · rintro j u ⟨hdir, hdout, hsr, hclk⟩
    rw [show (MicroStep.act .dirO :: byteOutSteps (commandByte true a)).length = 25 from rfl]
    refine ⟨hdir.trans ?_, hdout.trans ?_, hsr.trans ?_, hclk.trans (cutClk_after_cells _ 7 (by omega)).symm⟩
    · simp [show 25 + j ≤ 25 ↔ j = 0 by omega]
    · simp [show ¬ 25 + j ≤ 1 by omega]
    · cases j with
      | zero => exact congrArg some (shiftLeft_eight _).symm
      | succ j =>
        simp [show ¬ 25 + (j + 1) ≤ 25 by omega, show 25 + (j + 1) < 50 ↔ j + 1 < 25 by omega,
          show 25 + (j + 1) - 26 = j by omega, show 25 + (j + 1) - 50 = j + 1 - 25 by omega]

theorem wrregBody_leaves (a : RegAddr) (v : Word) (hcs : s.cs = false) :
    Cut (microSteps (.wrreg a v)) s (wrregBody a v s) fun k =>
      Leaves (if k = 0 then s.dir else .output)
        (if k ≤ 1 then s.dout else (commandByte false a ++ v).getLsbD (23 - (k - 2) / 3))
        (if k = 0 then s.sr else if k < 25 then some (commandByte false a <<< ((k - 1) / 3))
          else if k < 49 then some (highByte v <<< ((k - 25) / 3)) else some (lowByte v <<< ((k - 49) / 3)))
        (cutClk s.clk (k - 1)) := by
  obtain ⟨t, hp, htdir, htdout, htsr, htclk⟩ := sendCommand_done (commandByte false a) s
  have hbytes := twoBytesOut_leaves (highByte v) (lowByte v) t
  have hvalue : highByte v ++ lowByte v = v := composeWord_bytes v
  rw [hvalue, htdir, htdout, htclk] at hbytes
  rw [wrregBody, requireWindow_open hcs, andThen_go, ← andThen_assoc, microSteps, List.append_assoc]
  refine (sendCommand_leaves _ s).andThen hp hbytes ?_ ?_
  · rintro j hj u ⟨hdir, hdout, hsr, hclk⟩
    have hj' : j < 25 := hj
    rw [if_pos hj', getLsbD_append_head (n := 16) _ v (by omega)]
    exact ⟨hdir, hdout, hsr, hclk⟩
  · rintro j u ⟨hdir, hdout, hsr, hclk⟩
    rw [show (MicroStep.act .dirO :: byteOutSteps (commandByte false a)).length = 25 from rfl]
    refine ⟨hdir.trans ?_, hdout.trans ?_, hsr.trans ?_, hclk.trans (cutClk_after_cells _ 7 (by omega)).symm⟩
    · simp
    · rw [if_neg (show ¬ 25 + j ≤ 1 by omega)]
      cases j with
      | zero => exact (getLsbD_append_head (n := 16) _ v (k := 7) le_rfl).symm
      | succ j =>
        rw [if_neg (Nat.succ_ne_zero j), getLsbD_append_tail _ v (by omega),
          show 23 - (25 + (j + 1) - 2) / 3 = 15 - (j + 1 - 1) / 3 by omega]
    · simp [show 25 + j < 49 ↔ j < 24 by omega, show 25 + j - 49 = j - 24 by omega]

end

/-! ### What a fault leaves -/

/-- The end of an operation that was cut where `Leaves` says what stands in the registers; fault entry keeps them. -/
theorem exec_of_cut_leaves {i : Instr} {ms : List MicroStep} {s : State} {dir : Nat → Dir} {dout clk : Nat → Level}
    {sr : Nat → Option Byte} (hs : Ready s)
    (hc : Cut ms (started i s) (bodyOf i (started i s)) fun k => Leaves (dir k) (dout k) (sr k) (clk k)) {k : Nat}
    (hk : k < ms.length) (hfail : FirstFail s k) :
    ∃ t, exec i s = .next t ∧ t.fault = 1 ∧ Leaves (dir k) (dout k) (sr k) (clk k) t := by
  obtain ⟨u, hu, hdir, hdout, hsr, hclk⟩ := exec_of_cut hs hc hk hfail
  exact ⟨_, hu, rfl, (raiseFault_dir _ u).trans hdir, (raiseFault_dout _ u).trans hdout, (raiseFault_sr _ u).trans hsr,
    (raiseFault_clk _ u).trans hclk⟩

/-- Settles O18: the line trace and the environment at the failure, the registers of the cut byte, the frame. -/
theorem shoutFailureLeavesPartialByte : Obligations.ShoutFailureLeavesPartialByte := by
  intro b s k hs hcs hdir hk hfail
  obtain ⟨u, hu, hat⟩ := (exec_takenEnds (i := .shout b) hs (by simp [checksPass, hcs, hdir])).failed k hk hfail
  have same {t : State} (ht : exec (.shout b) s = .next t) : t = raiseFault .transportFailure u :=
    Host.Outcome.next.inj (ht.symm.trans hu)
  obtain ⟨t, ht, -, htdir, hdout, hsr, hclk⟩ := exec_of_cut_leaves hs (shoutBody_leaves b hcs hdir) hk hfail
  obtain rfl := same ht
  obtain ⟨-, -, -, hcut⟩ := shoutShiftsByteOut b s hs
  obtain ⟨t, ht, -, hbt⟩ := hcut hcs hdir k hk hfail
  obtain rfl := same ht
  obtain ⟨hrxw, hres, htq, hneg, -, -, hcmds, -⟩ := byteOperationsFrame (.shout b) s _ (.inl ⟨b, rfl⟩) hu
  have hlt : (raiseFault .transportFailure u).lt = s.lt ++ (eventsFrom s 0 (byteOutSteps b)).take k ++ [.cs1] := by
    rw [raiseFault_lt, hat.cs, hcs, hat.lt]
    rfl
  rw [raiseFault_inside (by exact hcs), hu]
  exact congrArg _ (State.ext (raiseFault_cs _ u) hclk htdir hdout hsr hrxw hres htq hneg rfl rfl hlt hbt rfl hcmds
    ((raiseFault_env _ u).trans hat.env) ((raiseFault_asked _ u).trans hat.asked))

/-- The clock of a byte in: its cells begin with the pulse. -/
theorem cutClk_succ (c : Level) (k : Nat) :
    cutClk c (k + 1) = if k % 3 = 1 then !Config.clkIdle else if k = 0 then c else Config.clkIdle := by
  grind [cutClk]

/-- The clock of a byte out that follows a direction switch. -/
theorem cutClk_pred (c : Level) (k : Nat) :
    cutClk c (k - 1) = if k ≠ 0 ∧ k % 3 = 0 then !Config.clkIdle else if k < 3 then c else Config.clkIdle := by
  grind [cutClk]

/-- The clock of a byte in that follows a direction switch. -/
theorem cutClk_eq (c : Level) (k : Nat) :
    cutClk c k = if k % 3 = 2 then !Config.clkIdle else if k ≤ 1 then c else Config.clkIdle := by
  grind [cutClk]

/-- Settles O19: each operation cut at its micro-step `k`, and the clock as the statement counts it. -/
theorem failureLeavesPartialRegisters : Obligations.FailureLeavesPartialRegisters := by
  intro s hs hcs k hfail
  refine ⟨fun hdir hk => ?_, fun hk => ?_, fun a hk => ?_, fun a v hk => ?_⟩
  · rw [← cutClk_succ]
    exact exec_of_cut_leaves hs (shinBody_leaves hcs hdir) hk hfail
  · rw [← cutClk_eq]
    exact exec_of_cut_leaves hs (drainBody_leaves (s := started .drain s) hcs) hk hfail
  · rw [← cutClk_pred, ← commandByte_read, ← commandByte_bit_zero true]
    exact exec_of_cut_leaves hs (rdregBody_leaves a (s := started (.rdreg a) s) hcs) hk hfail
  · rw [← cutClk_pred, ← commandByte_write]
    exact exec_of_cut_leaves hs (wrregBody_leaves a v (s := started (.wrreg a v) s) hcs) hk hfail

end Sys2Proof.Machine
end

section
/-! SUPPORT. The block between operations and the host that drives it (70_reset_and_hazards): what has no move, what a
reset and an empty list give, the counts of line events, and the windows a host keeps. -/

namespace Sys2Proof.Machine

/-! ### What a step does without an operation (70_reset_and_hazards R260, R283, R285) -/

/-- Settles O22: the common check comes before everything else, and it has no move for a busy block. -/
theorem busyBlockHasNoMove : Obligations.BusyBlockHasNoMove := fun i s hs => by
  rw [exec_eq]
  exact guarded_busy hs

theorem resetCommand_idle {s : State} (hs : s.seq = .idle) : resetCommand s = .next (resetBlock s) := by
  rw [resetCommand, hs]

theorem step_reset {s : State} {rest : List HostCmd} (h : s.cmds = .reset :: rest) :
    step s = resetCommand { s with cmds := rest } := by simp only [step, nextCommand, h, runCommand]

theorem step_nil {s : State} (h : s.cmds = []) : step s = .next s := by simp only [step, nextCommand, h]

/-- Settles O38: the reset is taken off the list, and no operation is in progress. -/
theorem resetCommandResetsBlock : Obligations.ResetCommandResetsBlock := fun s rest hc hs =>
  (step_reset hc).trans (resetCommand_idle (s := { s with cmds := rest }) hs)

/-- Settles O39: with an empty list there is no command to run. -/
theorem idleHostLeavesBlockAlone : Obligations.IdleHostLeavesBlockAlone := fun _ => step_nil

/-! ### The counts of line events (70_reset_and_hazards R282) -/

/-- The line event of an operation that is no micro-step of it: the delay that `WAIT` records. -/
def delayEvents (i : Instr) : List LineEvent :=
  match i with
  | .wait n => [.w n]
  | _ => []

/-- A completed operation has appended the events of its micro-steps, and its delay, to the line trace. -/
theorem exec_done_lt {i : Instr} {s : State} (hs : Ready s) (h : checksPass i s = true)
    (hok : EnvOk s (microSteps i).length) : ∃ t, exec i s = .next t ∧ t.outcome = some .done ∧
      t.lt = s.lt ++ eventsFrom s 0 (microSteps i) ++ delayEvents i := by
  have shifts (hi : Shifts i) : ∃ t, exec i s = .next t ∧ t.outcome = some .done ∧
      t.lt = s.lt ++ eventsFrom s 0 (microSteps i) := by
    obtain ⟨_, hp⟩ := bodyOf_shifts_precise hi h
    exact ⟨_, exec_done_of_precise hs hp hok, rfl, rfl⟩
  cases i with
  | sel =>
    obtain ⟨hdone, -⟩ := selOpensWindow s hs
    exact ⟨_, hdone h hok, rfl, (List.append_nil _).symm⟩
  | desel =>
    obtain ⟨hdone, -⟩ := deselClosesWindow s hs
    exact ⟨_, hdone hok, rfl, (List.append_nil _).symm⟩
  | dirout =>
    obtain ⟨hdone, -⟩ := diroutSwitchesToOutput s hs
    exact ⟨_, hdone hok, rfl, (List.append_nil _).symm⟩
  | dirin =>
    obtain ⟨hdone, -⟩ := dirinSwitchesToInput s hs
    exact ⟨_, hdone hok, rfl, (List.append_nil _).symm⟩
  | shout b => simpa [delayEvents] using shifts (.inl ⟨b, rfl⟩)
  | shin => simpa [delayEvents] using shifts (.inr (.inl rfl))
  | drain => simpa [delayEvents] using shifts (.inr (.inr (.inl rfl)))
  | rdreg a => simpa [delayEvents] using shifts (.inr (.inr (.inr (.inl ⟨a, rfl⟩))))
  | wrreg a v => simpa [delayEvents] using shifts (.inr (.inr (.inr (.inr ⟨a, v, rfl⟩))))
  | decode =>
    obtain ⟨raw, hraw⟩ := Option.isSome_iff_exists.mp h
    exact ⟨_, exec_decode_held hs hraw, rfl, by simp [microSteps, eventsFrom, delayEvents]⟩
  | setres r => exact ⟨_, exec_setres hs r, rfl, by simp [microSteps, eventsFrom, delayEvents]⟩
  | wait n => exact ⟨_, exec_wait hs n, rfl, by simp [microSteps, eventsFrom, delayEvents]⟩

/-- Settles O31: the micro-steps and the delay of each operation, counted. -/
theorem eventCountsAsListed : Obligations.EventCountsAsListed := by
  intro i s hs h hok
  obtain ⟨t, ht, hdone, hlt⟩ := exec_done_lt hs h hok
  refine ⟨t, ht, hdone, ?_⟩
  rw [hlt, List.length_append, List.length_append, eventsFrom_length]
  cases i <;> rfl

/-! ### The windows a host keeps (70_reset_and_hazards R270 to R276) -/

/-- One operation in the shape of the windows: where the host's list stands before it and after it. -/
inductive PhaseMove : WindowPhase → Instr → WindowPhase → Prop where
  | sel : PhaseMove .closed .sel .selected
  | drain : PhaseMove .selected .drain .drained
  | rdreg (a : RegAddr) : PhaseMove .drained (.rdreg a) .exchanged
  | wrreg (a : RegAddr) (v : Word) : PhaseMove .drained (.wrreg a v) .exchanged
  | closeDrained : PhaseMove .drained .desel .closed
  | closeExchanged : PhaseMove .exchanged .desel .closed
  | desel : PhaseMove .closed .desel .closed
  | dirout : PhaseMove .closed .dirout .closed
  | dirin : PhaseMove .closed .dirin .closed
  | decode : PhaseMove .closed .decode .closed
  | setres (r : Word) : PhaseMove .closed (.setres r) .closed
  | wait (n : Word) : PhaseMove .closed (.wait n) .closed

/-- A list in the shape of the windows moves as `PhaseMove` says and goes on in that shape. -/
theorem windowsKept_cons {p : WindowPhase} {i : Instr} {rest : List Instr} (h : windowsKept p (i :: rest) = true) :
    ∃ q, PhaseMove p i q ∧ windowsKept q rest = true := by
  cases p with
  | closed =>
    cases i with
    | sel => exact ⟨_, .sel, h⟩
    | desel => exact ⟨_, .desel, h⟩
    | dirout => exact ⟨_, .dirout, h⟩
    | dirin => exact ⟨_, .dirin, h⟩
    | decode => exact ⟨_, .decode, h⟩
    | setres r => exact ⟨_, .setres r, h⟩
    | wait n => exact ⟨_, .wait n, h⟩
    | _ => exact absurd h Bool.false_ne_true
  | selected =>
    cases i with
    | drain => exact ⟨_, .drain, h⟩
    | _ => exact absurd h Bool.false_ne_true
  | drained =>
    cases i with
    | rdreg a => exact ⟨_, .rdreg a, h⟩
    | wrreg a v => exact ⟨_, .wrreg a v, h⟩
    | desel => exact ⟨_, .closeDrained, h⟩
    | _ => exact absurd h Bool.false_ne_true
  | exchanged =>
    cases i with
    | desel => exact ⟨_, .closeExchanged, h⟩
    | _ => exact absurd h Bool.false_ne_true

/-- The level of the select line where the host's list stands (10_state R22). -/
def WindowPhase.level (p : WindowPhase) : Level := p == .closed

theorem selBody_ends_low (s : State) : (selBody s).Ends (fun _ => True) (·.cs = false) :=
  ((requireNoWindow_keeps (P := fun _ => True) trivial).ends fun _ _ => trivial).andThen fun _ _ _ =>
    (pin_ends trivial).andThen fun _ _ _ => rfl

theorem exec_sel_cs {s t : State} (h : exec .sel s = .next t) (hs : s.fault = 0) (hf : t.fault = 0) :
    t.cs = false := by
  obtain ⟨-, ⟨-, rfl⟩ | ⟨hne, -⟩⟩ := exec_next h
  · obtain ⟨u, hu, hend⟩ | ⟨c, u, -, hend⟩ := (selBody_ends_low (started .sel s)).final
    · exact hend ▸ hu
    · exact absurd hf (hend ▸ causeCode_ne_zero c)
  · exact absurd hs hne

section
variable {p q : WindowPhase} {i : Instr} {s t : State}

/-- The only check that can fail in the shape of the windows is that `DECODE` has a word. -/
theorem PhaseMove.failedCheck {c : Cause} (hm : PhaseMove p i q) (hcs : s.cs = p.level) (hc : FailedCheck i s c) :
    c = .unwritten := by
  cases hc with
  | window hi hhigh => cases hm <;> simp_all [Shifts, WindowPhase.level]
  | noWindow hi hlow => cases hm <;> simp_all [WindowPhase.level]
  | dirOut hi _ => cases hm <;> simp at hi
  | dirIn hi _ => cases hm <;> cases hi
  | held => rfl

/-- The select line goes with the host's list as long as no fault is taken. -/
theorem PhaseMove.cs_of_no_fault (hm : PhaseMove p i q) (hs : Ready s) (hcs : s.cs = p.level) (h : exec i s = .next t)
    (hf : t.fault = 0) : t.cs = q.level := by
  obtain ⟨-, hzero⟩ := hs
  have kept (hi : ¬ (i = .sel ∨ i = .desel)) : t.cs = p.level :=
    (exec_cs h hi (hf.trans hzero.symm)).trans hcs
  cases hm with
  | sel => exact exec_sel_cs h hzero hf
  | desel | closeDrained | closeExchanged => exact exec_desel_cs h hzero
  | drain | rdreg | wrreg | dirout | dirin | decode | setres | wait => exact kept (by simp)

/-- A fault in the shape of the windows is `TransportFailure` or `Unwritten`, and it deselects the line. -/
theorem PhaseMove.fault_deselects (hm : PhaseMove p i q) (hs : Ready s) (hcs : s.cs = p.level) (h : exec i s = .next t)
    (hf : t.fault ≠ 0) : t.cs = true ∧ (t.fault = 1 ∨ t.fault = 5) := by
  obtain ⟨-, hzero⟩ := hs
  obtain ⟨hhigh, -, c, hout, hcode⟩ := everyFaultEndsDeselected i s t h hzero hf
  refine ⟨hhigh, ?_⟩
  obtain ⟨-, hcheck | ⟨rfl, -⟩⟩ := exec_fault_cause h hout
  · obtain rfl := hm.failedCheck hcs hcheck
    exact .inr hcode
  · exact .inl hcode

/-- The shape of the windows from any phase, the select line being where the phase says. -/
theorem runOps_windowsKept {ops : List Instr} (hk : windowsKept p ops = true) (hs : Ready s) (hcs : s.cs = p.level)
    (h : runOps ops s = .next t) : t.cs = true ∧ (t.fault = 0 ∨ t.fault = 1 ∨ t.fault = 5) := by
  induction ops generalizing p s with
  | nil =>
    obtain ⟨-, hzero⟩ := hs
    obtain rfl : s = t := Host.Outcome.next.inj h
    exact ⟨hcs.trans hk, .inl hzero⟩
  | cons i rest ih =>
    obtain ⟨q, hm, hrest⟩ := windowsKept_cons hk
    obtain ⟨u, hu, ⟨hne, rfl⟩ | ⟨hzero, hrun⟩⟩ := runOps_cons_next h
    · obtain ⟨hhigh, hcode⟩ := hm.fault_deselects hs hcs hu hne
      exact ⟨hhigh, .inr hcode⟩
    · have hlevel := hm.cs_of_no_fault hs hcs hu hzero
      obtain ⟨hseq, -⟩ := hs
      exact ih hrest ⟨(exec_seq hu).trans hseq, hzero⟩ hlevel hrun

end

/-- Settles O60: outside a window the select line is high. -/
theorem keptWindowsEndDeselected : Obligations.KeptWindowsEndDeselected :=
  fun _ _ _ hk hs hcs => runOps_windowsKept hk hs hcs

end Sys2Proof.Machine
end
